-- ==== Sys2Proof/Word.lean ====
section
/-! DEFINITION. The word types of the core (00_scope R6: every quantity is unsigned, a byte is 8 bits). -/

namespace Sys2Proof

/-- A byte of the serial stream, of the FIFO storage or of an event's data field (R6). -/
abbrev Byte := BitVec 8

/-- A half byte: a Frame-Type tag, a transport-channel tag or a status high nibble (R64, R68). -/
abbrev Nibble := BitVec 4

/-- A bit pattern presented at a port, right-aligned; the widest format, EVT32, has 32 bits (R61). -/
abbrev Word := BitVec 32

end Sys2Proof
end

