-- ==== Sys2Proof/Syntax.lean ====
section
/-! DEFINITION. The instructions of the core: one constructor per row of spec/opcode_table.json (30_encoding R77),
and the data they are made of: the framed event, the phases and the ports a pattern is presented on. -/

namespace Sys2Proof

/-- A framed event: the tag byte's two nibbles and up to three data bytes (R64).
Any value of any field is a legal input (R69). -/
structure Event where
  /-- The transport-channel tag, high nibble of the tag byte. -/
  cable : Nibble
  /-- The Frame-Type tag, low nibble of the tag byte. -/
  cin : Nibble
  d1 : Byte
  d2 : Byte
  d3 : Byte
  deriving DecidableEq, Repr

/-- The phases of the loop controller; the codes 5, 6 and 7 are never taken (R25, R72, U10). -/
inductive Phase where
  | pump1
  | cfg
  | drainA
  | drainB
  | pump2
  deriving DecidableEq, Repr

/-- Where a bit pattern is presented, which tells its format (R61, R75).
The four query rows of format PORT are matched by every vector, so the output that is read names the query (R76). -/
inductive Port where
  /-- The request lines of the FIFO, `clr, wr_en, rd_en, wr_data` (format PORT). -/
  | request
  /-- The driven output `rd_data` is read while a vector is presented (format PORT). -/
  | rdData
  /-- The driven output `count` is read (format PORT). -/
  | count
  /-- The driven output `empty` is read (format PORT). -/
  | empty
  /-- The driven output `full` is read (format PORT). -/
  | full
  /-- The parser's input `feed_byte` (format BYTE8). -/
  | feedByte
  /-- The serializer's input `ser_evt` (format EVT32). -/
  | serEvt
  /-- The loop controller's phase register (format PHASE3). -/
  | phase
  /-- The reset input `rst` (format RST1). -/
  | rst
  deriving DecidableEq, Repr

/-- The width in bits of the patterns of a port's format (R61). -/
def Port.width : Port → Nat
  | .request | .rdData | .count | .empty | .full => 11
  | .feedByte => 8
  | .serEvt => 32
  | .phase => 3
  | .rst => 1

/-- The ports at which a stimulus presents a pattern (R78): every port but the phase register, whose pattern is the
register's own value and is presented by nothing else (R28, R61). DESIGN CHOICE, log 29. -/
inductive Inlet where
  | request
  | rdData
  | count
  | empty
  | full
  | feedByte
  | serEvt
  | rst
  deriving DecidableEq, Repr

/-- The port an inlet is. -/
def Inlet.port : Inlet → Port
  | .request => .request
  | .rdData => .rdData
  | .count => .count
  | .empty => .empty
  | .full => .full
  | .feedByte => .feedByte
  | .serEvt => .serEvt
  | .rst => .rst

/-- The inlet at a port, if a stimulus can present a pattern there. -/
def Port.inlet : Port → Option Inlet
  | .request => some .request
  | .rdData => some .rdData
  | .count => some .count
  | .empty => some .empty
  | .full => some .full
  | .feedByte => some .feedByte
  | .serEvt => some .serEvt
  | .phase => none
  | .rst => some .rst

/-- What a port sees of a word: its lines carry the low `width` bits and nothing stands above them (R61, R76). -/
def Port.lines (p : Port) (w : Word) : Word := (w.setWidth p.width).setWidth 32

/-- One operation of one block. Operands are the pattern's free bits, so that no bit of an encoding is lost. -/
inductive Instr where
  /-- `INSERT`: vector `0 1 r d` (R87); with `r` set the same vector also requests `REMOVE` (R53, R76). -/
  | insert (r : Bool) (d : Byte)
  /-- `REMOVE`: vector `0 w 1 d` (R88), the data ignored; with `w` set the same vector also requests `INSERT`. -/
  | remove (w : Bool) (d : Byte)
  /-- `PEEK`: the output `rd_data` under any vector (R89). -/
  | peek (c w r : Bool) (d : Byte)
  /-- `COUNT`: the output `count` under any vector (R90). -/
  | count (c w r : Bool) (d : Byte)
  /-- `ISEMPTY`: the output `empty` under any vector (R91). -/
  | isEmpty (c w r : Bool) (d : Byte)
  /-- `ISFULL`: the output `full` under any vector (R93). -/
  | isFull (c w r : Bool) (d : Byte)
  /-- `CLEAR`: vector `1 w r d`, the other bits ignored (R92). -/
  | clear (w r : Bool) (d : Byte)
  /-- `FEED.RT`: feed the real-time byte `0xF8 + rt` (R102). -/
  | feedRt (rt : BitVec 3)
  /-- `FEED.SOX`: feed `0xF0` (R104). -/
  | feedSox
  /-- `FEED.EOX`: feed `0xF7` (R105). -/
  | feedEox
  /-- `FEED.ST8`: feed the status byte `0x80 + channel` (R106). -/
  | feedSt8 (channel : Nibble)
  /-- `FEED.ST9`: feed the status byte `0x90 + channel` (R106). -/
  | feedSt9 (channel : Nibble)
  /-- `FEED.STA`: feed the status byte `0xA0 + channel` (R106). -/
  | feedStA (channel : Nibble)
  /-- `FEED.STB`: feed the status byte `0xB0 + channel` (R106). -/
  | feedStB (channel : Nibble)
  /-- `FEED.STC`: feed the status byte `0xC0 + channel` (R106). -/
  | feedStC (channel : Nibble)
  /-- `FEED.STD`: feed the status byte `0xD0 + channel` (R106). -/
  | feedStD (channel : Nibble)
  /-- `FEED.STE`: feed the status byte `0xE0 + channel` (R106). -/
  | feedStE (channel : Nibble)
  /-- `FEED.SC1`: feed the byte `0xF1` (R106). -/
  | feedSc1
  /-- `FEED.SC2`: feed the byte `0xF2` (R106). -/
  | feedSc2
  /-- `FEED.SC3`: feed the byte `0xF3` (R106). -/
  | feedSc3
  /-- `FEED.SC4`: feed the byte `0xF4` (R106). -/
  | feedSc4
  /-- `FEED.SC5`: feed the byte `0xF5` (R106). -/
  | feedSc5
  /-- `FEED.SC6`: feed the byte `0xF6` (R106). -/
  | feedSc6
  /-- `FEED.DATA`: feed a byte below `0x80` (R107, R108). -/
  | feedData (data : BitVec 7)
  /-- `SER.0`: serialize a framed event of Frame-Type 0 (R131). -/
  | ser0 (cable : Nibble) (d1 d2 d3 : Byte)
  /-- `SER.1`: serialize a framed event of Frame-Type 1 (R131). -/
  | ser1 (cable : Nibble) (d1 d2 d3 : Byte)
  /-- `SER.2`: serialize a framed event of Frame-Type 2 (R132). -/
  | ser2 (cable : Nibble) (d1 d2 d3 : Byte)
  /-- `SER.3`: serialize a framed event of Frame-Type 3 (R132). -/
  | ser3 (cable : Nibble) (d1 d2 d3 : Byte)
  /-- `SER.4`: serialize a framed event of Frame-Type 4 (R133). -/
  | ser4 (cable : Nibble) (d1 d2 d3 : Byte)
  /-- `SER.5`: serialize a framed event of Frame-Type 5 (R133). -/
  | ser5 (cable : Nibble) (d1 d2 d3 : Byte)
  /-- `SER.6`: serialize a framed event of Frame-Type 6 (R133). -/
  | ser6 (cable : Nibble) (d1 d2 d3 : Byte)
  /-- `SER.7`: serialize a framed event of Frame-Type 7 (R133). -/
  | ser7 (cable : Nibble) (d1 d2 d3 : Byte)
  /-- `SER.8`: serialize a framed event of Frame-Type 8 (R134). -/
  | ser8 (cable : Nibble) (d1 d2 d3 : Byte)
  /-- `SER.9`: serialize a framed event of Frame-Type 9 (R134). -/
  | ser9 (cable : Nibble) (d1 d2 d3 : Byte)
  /-- `SER.10`: serialize a framed event of Frame-Type 10 (R134). -/
  | ser10 (cable : Nibble) (d1 d2 d3 : Byte)
  /-- `SER.11`: serialize a framed event of Frame-Type 11 (R134). -/
  | ser11 (cable : Nibble) (d1 d2 d3 : Byte)
  /-- `SER.12`: serialize a framed event of Frame-Type 12 (R134). -/
  | ser12 (cable : Nibble) (d1 d2 d3 : Byte)
  /-- `SER.13`: serialize a framed event of Frame-Type 13 (R134). -/
  | ser13 (cable : Nibble) (d1 d2 d3 : Byte)
  /-- `SER.14`: serialize a framed event of Frame-Type 14 (R134). -/
  | ser14 (cable : Nibble) (d1 d2 d3 : Byte)
  /-- `SER.15`: serialize a framed event of Frame-Type 15 (R135). -/
  | ser15 (cable : Nibble) (d1 d2 d3 : Byte)
  /-- `STEP.PUMP1`: tick the timers and pump (R144). -/
  | stepPump1
  /-- `STEP.CFG`: ask whether the device is configured (R145). -/
  | stepCfg
  /-- `STEP.DRAIN_A`: one FIFO byte toward the packet transport (R146, R147). -/
  | stepDrainA
  /-- `STEP.DRAIN_B`: one framed event toward the serial egress (R148, R149). -/
  | stepDrainB
  /-- `STEP.PUMP2`: pump and end the loop step (R150). -/
  | stepPump2
  /-- `RESET` (R191). -/
  | reset
  deriving DecidableEq, Repr

end Sys2Proof
end

