-- ==== Sys2Proof/Config.lean ====
section
/-! DEFINITION. The implementation parameters (00_scope R5) and the values the spec leaves free. -/

namespace Sys2Proof

/-- The entries of the length ROM, Frame-Type 0 first: the value column of R5 and the table of R66. -/
def lenTable : Vector (BitVec 2) 16 := #v[0, 0, 2, 3, 3, 1, 2, 3, 3, 3, 3, 3, 2, 2, 3, 1]

/-- The parameters of the core (R5), each a field beside the proof that its value is a legal one. `PW` and `CW` are
no fields: D1 lets `head`, `tail` and `count` be naturals bounded by the invariant (log 2). -/
structure Config where
  /-- `N`, the FIFO capacity in bytes, at least 1 (R5, U14). -/
  n : Nat
  nPos : 0 < n
  /-- `LEN[0..15]`, the ROM from Frame-Type to byte count (R5). -/
  len : Vector (BitVec 2) 16
  /-- The source fixes the ROM: the table has one legal value (R66). -/
  lenFixed : len = lenTable
  /-- `CARRY_INDEX`: what `idx` becomes after a step-7c completion, 0 or 1 (R5, D7, U7). -/
  carryIndex : BitVec 1
  /-- `STATUS_CLEARS_SYSEX`: whether step 4 clears `sysex` (R5, D8, U8). -/
  statusClearsSysex : Bool
  /-- `TW`, the width of each activity timer, at least 1 (R5, D20). -/
  tw : Nat
  twPos : 0 < tw
  /-- `ACTIVITY_RELOAD`, any natural below `2^TW` (R5, D20, U11). -/
  activityReload : Nat
  reloadFits : activityReload < 2 ^ tw
  deriving DecidableEq, Repr

/-- `LEN[c]`, a read of the length ROM (R7, R66). -/
def Config.lenRom (c : Config) (cin : Nibble) : BitVec 2 := c.len[cin.toNat]'cin.isLt

/-- `ACTIVITY_RELOAD` is OPEN in the spec: a constant with no body, so nothing can rest on its value (U11, log 3). -/
opaque Config.freeReload : Fin (2 ^ 16)

/-- What a cell of `buf` that nothing has written since power-on reads as (R14, R31, U2, log 4). -/
opaque Config.bufContents : Nat → Byte

/-- The byte a `REMOVE` or `PEEK` on an empty FIFO returns, at a drawing number (R88, R89, U1, log 7). -/
opaque Config.freeByte : Nat → Byte

/-- A host answer of `deviceConfigured`, `sendFramedEvent` or `txReady` (R142, R152, U12, log 8). -/
opaque Config.freeBool : Nat → Bool

/-- A host answer of `receiveFramedEvent`: `none` or any 32-bit event (R142, R152, U12, log 8). -/
opaque Config.freeEvent : Nat → Option Event

/-- Whether the receive interrupt takes the next step and with which byte, or the loop does (R52, R152, log 9). -/
opaque Config.arrival : Nat → Option Byte

/-- The bytes for which the receive interrupt fires between two atomic steps of a phase action, in order, at a drawing
number: any bytes, any number of them (R52, R152, log 10). -/
opaque Config.burst : Nat → List Byte

/-- The parameters of this hardware: the value column of R5. DESIGN CHOICE of the spec, log 1. -/
def Config.hw : Config where
  n := 128
  nPos := by decide
  len := lenTable
  lenFixed := rfl
  carryIndex := 1#1
  statusClearsSysex := false
  tw := 16
  twPos := by decide
  activityReload := Config.freeReload.val
  reloadFits := Config.freeReload.isLt

end Sys2Proof
end

