-- ==== Sys2Proof/WellFormed.lean ====
section
/-! DEFINITION. Which terms of Instr stand for a pattern the decoder reads back as them. -/

namespace Sys2Proof

/-- The one check there is: a vector with `wr_en` and `rd_en` both set matches the rows INSERT and REMOVE and both
are performed (R76, R77), and the model writes it as `insert true d`; `remove true d` is the same vector under its
second name and no term the decoder answers. Every other operand may hold any value (R69). -/
def Instr.wellFormed : Instr → Bool
  | .remove w _ => !w
  | _ => true

/-- `Instr.wellFormed` as a proposition. -/
abbrev Instr.WellFormed (i : Instr) : Prop := i.wellFormed = true

end Sys2Proof
end

