-- ==== Sys2Proof/Decode.lean ====
section
/-! DEFINITION. The decoder of the five formats (30_encoding R61 to R65, R72, R76, R77) and the encoder written from
the same tables. -/

namespace Sys2Proof

/-- Why a pattern is no instruction. No pattern that stands at a port stops the machine: there is no illegal-encoding
trap (R69), and what two of these do there `State.idle` says. -/
inductive Reject where
  /-- The pattern has a bit set above its format's width. -/
  | tooWide
  /-- A request vector with `clr`, `wr_en` and `rd_en` all 0 requests no operation (R76). -/
  | noRequest
  /-- A byte that no row of format BYTE8 matches; there is none (R62). -/
  | noByteRow
  /-- The phase codes 5, 6 and 7, which are never taken (R25, U10). -/
  | phaseNeverTaken
  /-- The reset input at 0 (R77). -/
  | resetNotAsserted
  deriving DecidableEq, Repr

/-! ## Patterns as words -/

/-- The request vector `clr, wr_en, rd_en, wr_data[7:0]`, 11 bits (R76). -/
def portVector (c w r : Bool) (d : Byte) : BitVec 11 :=
  BitVec.ofBool c ++ BitVec.ofBool w ++ BitVec.ofBool r ++ d

/-- A framed event as a 32-bit word: tag byte in bits 7:0, then `d1`, `d2`, `d3` (R64). -/
def eventWord (e : Event) : Word :=
  e.d3 ++ e.d2 ++ e.d1 ++ e.cable ++ e.cin

/-- The framed event a 32-bit word carries (R64, R65). -/
def wordEvent (w : Word) : Event where
  cin := w.extractLsb' 0 4
  cable := w.extractLsb' 4 4
  d1 := w.extractLsb' 8 8
  d2 := w.extractLsb' 16 8
  d3 := w.extractLsb' 24 8

/-- The code of a phase (R72). -/
def phaseCode : Phase → BitVec 3
  | .pump1 => 0#3
  | .cfg => 1#3
  | .drainA => 2#3
  | .drainB => 3#3
  | .pump2 => 4#3

/-! ## Decoding -/

/-- The operation that the request lines ask for: `clr` is tested first; `wr_en` and `rd_en` together are one
vector that performs both, written as INSERT with `r` set (R76, R77). -/
def decodeRequest (v : BitVec 11) : Except Reject Instr :=
  if v.getLsbD 10 then .ok (.clear (v.getLsbD 9) (v.getLsbD 8) (v.extractLsb' 0 8))
  else if v.getLsbD 9 then .ok (.insert (v.getLsbD 8) (v.extractLsb' 0 8))
  else if v.getLsbD 8 then .ok (.remove false (v.extractLsb' 0 8))
  else .error .noRequest

/-- A query row under the vector `v`: all its bits are field letters, so nothing is rejected (R76). -/
def decodeQuery (row : Bool → Bool → Bool → Byte → Instr) (v : BitVec 11) : Instr :=
  row (v.getLsbD 10) (v.getLsbD 9) (v.getLsbD 8) (v.extractLsb' 0 8)

/-- The rows of class STATUS by their exact patterns (R63). -/
def decodeStatus (b : Byte) : Option Instr :=
  let h : Nibble := b.extractLsb' 4 4
  let low : Nibble := b.extractLsb' 0 4
  if h = 0x8#4 then some (.feedSt8 low)
  else if h = 0x9#4 then some (.feedSt9 low)
  else if h = 0xA#4 then some (.feedStA low)
  else if h = 0xB#4 then some (.feedStB low)
  else if h = 0xC#4 then some (.feedStC low)
  else if h = 0xD#4 then some (.feedStD low)
  else if h = 0xE#4 then some (.feedStE low)
  else if b = 0xF1#8 then some .feedSc1
  else if b = 0xF2#8 then some .feedSc2
  else if b = 0xF3#8 then some .feedSc3
  else if b = 0xF4#8 then some .feedSc4
  else if b = 0xF5#8 then some .feedSc5
  else if b = 0xF6#8 then some .feedSc6
  else none

/-- The row of format BYTE8 that a byte matches, the tests in the normative order of R62. -/
def decodeByte (b : Byte) : Option Instr :=
  if 0xF8#8 ≤ b then some (.feedRt (b.extractLsb' 0 3))
  else if b = 0xF0#8 then some .feedSox
  else if b = 0xF7#8 then some .feedEox
  else if 0x80#8 ≤ b then decodeStatus b
  else some (.feedData (b.extractLsb' 0 7))

/-- The row of format EVT32 an event word matches, by its Frame-Type nibble; every word matches one (R65, R77). -/
def decodeEvent (w : Word) : Instr :=
  let ⟨cable, cin, d1, d2, d3⟩ := wordEvent w
  if cin = 0#4 then .ser0 cable d1 d2 d3
  else if cin = 1#4 then .ser1 cable d1 d2 d3
  else if cin = 2#4 then .ser2 cable d1 d2 d3
  else if cin = 3#4 then .ser3 cable d1 d2 d3
  else if cin = 4#4 then .ser4 cable d1 d2 d3
  else if cin = 5#4 then .ser5 cable d1 d2 d3
  else if cin = 6#4 then .ser6 cable d1 d2 d3
  else if cin = 7#4 then .ser7 cable d1 d2 d3
  else if cin = 8#4 then .ser8 cable d1 d2 d3
  else if cin = 9#4 then .ser9 cable d1 d2 d3
  else if cin = 10#4 then .ser10 cable d1 d2 d3
  else if cin = 11#4 then .ser11 cable d1 d2 d3
  else if cin = 12#4 then .ser12 cable d1 d2 d3
  else if cin = 13#4 then .ser13 cable d1 d2 d3
  else if cin = 14#4 then .ser14 cable d1 d2 d3
  else .ser15 cable d1 d2 d3

/-- The phase action a phase code selects (R72); 5, 6 and 7 select none. -/
def decodePhase (p : BitVec 3) : Except Reject Instr :=
  if p = 0#3 then .ok .stepPump1
  else if p = 1#3 then .ok .stepCfg
  else if p = 2#3 then .ok .stepDrainA
  else if p = 3#3 then .ok .stepDrainB
  else if p = 4#3 then .ok .stepPump2
  else .error .phaseNeverTaken

/-- The instruction a pattern stands for at the port it is presented on; total, rejecting by name. -/
def decode (p : Port) (w : Word) : Except Reject Instr :=
  if 2 ^ p.width ≤ w.toNat then .error .tooWide
  else match p with
    | .request => decodeRequest (w.setWidth 11)
    | .rdData => .ok (decodeQuery .peek (w.setWidth 11))
    | .count => .ok (decodeQuery .count (w.setWidth 11))
    | .empty => .ok (decodeQuery .isEmpty (w.setWidth 11))
    | .full => .ok (decodeQuery .isFull (w.setWidth 11))
    | .feedByte => match decodeByte (w.setWidth 8) with
      | some i => .ok i
      | none => .error .noByteRow
    | .serEvt => .ok (decodeEvent w)
    | .phase => decodePhase (w.setWidth 3)
    | .rst => if w = 1#32 then .ok .reset else .error .resetNotAsserted

/-! ## Encoding -/

/-- The port and the pattern of an instruction, from the same tables. -/
def encode : Instr → Port × Word
  | .insert r d => (.request, (portVector false true r d).setWidth 32)
  | .remove w d => (.request, (portVector false w true d).setWidth 32)
  | .peek c w r d => (.rdData, (portVector c w r d).setWidth 32)
  | .count c w r d => (.count, (portVector c w r d).setWidth 32)
  | .isEmpty c w r d => (.empty, (portVector c w r d).setWidth 32)
  | .isFull c w r d => (.full, (portVector c w r d).setWidth 32)
  | .clear w r d => (.request, (portVector true w r d).setWidth 32)
  | .feedRt rt => (.feedByte, (0b11111#5 ++ rt).setWidth 32)
  | .feedSox => (.feedByte, 0xF0#32)
  | .feedEox => (.feedByte, 0xF7#32)
  | .feedSt8 channel => (.feedByte, (0x8#4 ++ channel).setWidth 32)
  | .feedSt9 channel => (.feedByte, (0x9#4 ++ channel).setWidth 32)
  | .feedStA channel => (.feedByte, (0xA#4 ++ channel).setWidth 32)
  | .feedStB channel => (.feedByte, (0xB#4 ++ channel).setWidth 32)
  | .feedStC channel => (.feedByte, (0xC#4 ++ channel).setWidth 32)
  | .feedStD channel => (.feedByte, (0xD#4 ++ channel).setWidth 32)
  | .feedStE channel => (.feedByte, (0xE#4 ++ channel).setWidth 32)
  | .feedSc1 => (.feedByte, 0xF1#32)
  | .feedSc2 => (.feedByte, 0xF2#32)
  | .feedSc3 => (.feedByte, 0xF3#32)
  | .feedSc4 => (.feedByte, 0xF4#32)
  | .feedSc5 => (.feedByte, 0xF5#32)
  | .feedSc6 => (.feedByte, 0xF6#32)
  | .feedData data => (.feedByte, (0#1 ++ data).setWidth 32)
  | .ser0 cable d1 d2 d3 => (.serEvt, eventWord ⟨cable, 0#4, d1, d2, d3⟩)
  | .ser1 cable d1 d2 d3 => (.serEvt, eventWord ⟨cable, 1#4, d1, d2, d3⟩)
  | .ser2 cable d1 d2 d3 => (.serEvt, eventWord ⟨cable, 2#4, d1, d2, d3⟩)
  | .ser3 cable d1 d2 d3 => (.serEvt, eventWord ⟨cable, 3#4, d1, d2, d3⟩)
  | .ser4 cable d1 d2 d3 => (.serEvt, eventWord ⟨cable, 4#4, d1, d2, d3⟩)
  | .ser5 cable d1 d2 d3 => (.serEvt, eventWord ⟨cable, 5#4, d1, d2, d3⟩)
  | .ser6 cable d1 d2 d3 => (.serEvt, eventWord ⟨cable, 6#4, d1, d2, d3⟩)
  | .ser7 cable d1 d2 d3 => (.serEvt, eventWord ⟨cable, 7#4, d1, d2, d3⟩)
  | .ser8 cable d1 d2 d3 => (.serEvt, eventWord ⟨cable, 8#4, d1, d2, d3⟩)
  | .ser9 cable d1 d2 d3 => (.serEvt, eventWord ⟨cable, 9#4, d1, d2, d3⟩)
  | .ser10 cable d1 d2 d3 => (.serEvt, eventWord ⟨cable, 10#4, d1, d2, d3⟩)
  | .ser11 cable d1 d2 d3 => (.serEvt, eventWord ⟨cable, 11#4, d1, d2, d3⟩)
  | .ser12 cable d1 d2 d3 => (.serEvt, eventWord ⟨cable, 12#4, d1, d2, d3⟩)
  | .ser13 cable d1 d2 d3 => (.serEvt, eventWord ⟨cable, 13#4, d1, d2, d3⟩)
  | .ser14 cable d1 d2 d3 => (.serEvt, eventWord ⟨cable, 14#4, d1, d2, d3⟩)
  | .ser15 cable d1 d2 d3 => (.serEvt, eventWord ⟨cable, 15#4, d1, d2, d3⟩)
  | .stepPump1 => (.phase, (phaseCode .pump1).setWidth 32)
  | .stepCfg => (.phase, (phaseCode .cfg).setWidth 32)
  | .stepDrainA => (.phase, (phaseCode .drainA).setWidth 32)
  | .stepDrainB => (.phase, (phaseCode .drainB).setWidth 32)
  | .stepPump2 => (.phase, (phaseCode .pump2).setWidth 32)
  | .reset => (.rst, 1#32)

/-! ## The opcode table's words -/

/-- The port of a word that the opcode table gives `nbits` bits. One byte is a serial byte, except that the values
below 5 are read as phase codes: the table's formats BYTE8, PHASE3 and RST1 all fit one byte and its number of bits
does not tell them apart. A PORT vector with no request bit matches the four query rows and is read as the first of
them, `PEEK`. DESIGN CHOICE, log 15. -/
def tablePort (nbits w : Nat) : Port :=
  if nbits = 1 then .rst
  else if nbits ≤ 3 then .phase
  else if nbits ≤ 8 then (if w < 5 then .phase else .feedByte)
  else if nbits ≤ 16 then (if w < 256 then .rdData else .request)
  else .serEvt

/-- The instruction the decoder reads from an instruction whose bits are `w`, numbered as the opcode table does;
`none` where the decoder refuses, and for a number wider than 32 bits. -/
def decodeTableWord (nbits w : Nat) : Option Instr :=
  if 2 ^ 32 ≤ w then none
  else match decode (tablePort nbits w) (BitVec.ofNat 32 w) with
    | .ok i => some i
    | .error _ => none

end Sys2Proof
end

