-- ==== Sys2Proof/Machine/State.lean ====
section
/-! DEFINITION. The whole state of the core as plain data (10_state R13), its value after reset (R31), and the
reasons a step can stop. -/

namespace Sys2Proof.Machine

/-! ## The four blocks -/

/-- `async_fifo_spsc` (R14 to R16). The indices and the count are naturals bounded by the invariant, as D1 allows;
the storage lists the cells written since power-on, addresses strictly rising. -/
structure Fifo where
  /-- `buf`, the cells that have been written (R14). -/
  mem : List Host.Cell
  /-- Index of the next cell to write (R15). -/
  head : Nat
  /-- Index of the oldest unread cell (R15). -/
  tail : Nat
  /-- Number of bytes held (R16). -/
  count : Nat
  deriving DecidableEq, Repr

/-- `midi_byte_parser` (R19 to R21). -/
structure Parser where
  /-- `ev_d[0]`, the partial event's `Data1` (R19). -/
  ev0 : Byte
  /-- `ev_d[1]`. -/
  ev1 : Byte
  /-- `ev_d[2]`. -/
  ev2 : Byte
  /-- Bytes written so far, 0..3 (R20). -/
  idx : BitVec 2
  /-- A System Exclusive message is open (R21). -/
  sysex : Bool
  /-- Expected total length of the current message (R21). -/
  explen : BitVec 2
  /-- The status nibble the event was opened with (R21, D10). -/
  openCin : Nibble
  deriving DecidableEq, Repr

/-- `midi_frame_serializer` (R22): `lastValid = false` is the sentinel "none". -/
structure Serializer where
  lastValid : Bool
  lastStatus : Byte
  deriving DecidableEq, Repr

/-! ## Conditions, trace, results, inputs -/

/-- The silent conditions of R166, with their information. -/
inductive Condition where
  /-- The dropped byte (R167). -/
  | overflow (b : Byte)
  /-- The discarded byte (R168). -/
  | protocolViolation (b : Byte)
  /-- The event not sent (R169, R170). -/
  | transmitNotReady (e : Event)
  /-- `REMOVE` or `PEEK` on an empty FIFO (R171). -/
  | underflow
  /-- A byte below `0xF8` fed with `idx == 3` (R172). -/
  | parserOverrun
  deriving DecidableEq, Repr

/-- One entry of the observable trace: a touch of the external interface (R142), with the host's answer, or a
condition raised (R166: conditions exist for a model's trace only). -/
inductive TraceItem where
  /-- `INSERT` of a byte and whether it was stored (`wr_ok`). -/
  | insert (b : Byte) (stored : Bool)
  /-- `pumpUsbTask()`. -/
  | pump
  /-- `deviceConfigured()` and its answer. -/
  | configured (answer : Bool)
  /-- `sendFramedEvent(e)` and whether it was accepted. -/
  | send (e : Event) (accepted : Bool)
  /-- `txReady()` and its answer. -/
  | txReady (answer : Bool)
  /-- `receiveFramedEvent()` and its answer. -/
  | receive (answer : Option Event)
  /-- `sendByte(b)`. -/
  | sendByte (b : Byte)
  /-- A condition was raised. -/
  | raised (c : Condition)
  deriving DecidableEq, Repr

/-- The results of the last instruction, under the port names of R75; absent where it gave none. The MODEL's record,
not a register of the core (R27, R34), log 12. -/
structure Outputs where
  /-- `wr_ok`, the result of `INSERT`. -/
  wrOk : Option Bool := none
  /-- `rd_data`, the result of `REMOVE` or `PEEK`. -/
  rdData : Option Byte := none
  /-- `count`, the result of `COUNT`. -/
  count : Option Nat := none
  /-- `empty`, the result of `ISEMPTY`. -/
  empty : Option Bool := none
  /-- `full`, the result of `ISFULL`. -/
  full : Option Bool := none
  /-- `evt_valid` and `evt`, the result of `feed`: nothing or one event. -/
  evt : Option (Option Event) := none
  /-- `ser_b0` to `ser_b2`, the result of `serialize`. -/
  ser : Option (List Byte) := none
  deriving DecidableEq, Repr

/-- Whose step comes next (R8, R52). -/
inductive Turn where
  /-- The receive interrupt fires with a byte and its handler runs (R174, R176). -/
  | irq (b : Byte)
  /-- The loop controller takes its next phase action (R143). -/
  | loop
  /-- A pattern is presented at a block's port by the stimulus (R78); the port sees its own lines of the word. -/
  | request (p : Inlet) (w : Word)
  deriving DecidableEq, Repr

/-- The answers the host will give, each list consumed left to right (R78, `HOST`); a list that has ended is answered
by a free value (U12). -/
structure HostAnswers where
  /-- `deviceConfigured()`. -/
  cfg : List Bool := []
  /-- `sendFramedEvent(e)`. -/
  acc : List Bool := []
  /-- `receiveFramedEvent()`. -/
  rx : List (Option Event) := []
  /-- `txReady()`. -/
  txr : List Bool := []
  deriving DecidableEq, Repr

/-! ## The state -/

/-- The state of the machine. -/
structure State where
  /-- `async_fifo_spsc`. -/
  fifo : Fifo
  /-- `midi_byte_parser`. -/
  parser : Parser
  /-- `midi_frame_serializer`. -/
  ser : Serializer
  /-- The latched mode flag (R24). -/
  bridgeMode : Bool
  /-- The loop controller's sequencing register (R25). -/
  phase : Phase
  /-- Activity timer of direction A, a countdown below `2^TW` (R26). -/
  timerA : Nat
  /-- Activity timer of direction B (R26). -/
  timerB : Nat
  /-- Input: the parameters the core was built with, no register (R5, R27). They stand here because `exec` has no other
  argument to take them from; no step writes them (log 1). -/
  config : Config
  /-- Input: the platform's `mode_in` (R142, R192). -/
  modeIn : Bool
  /-- Input: whose steps come next; an ended list is continued by free values (log 9). -/
  turns : List Turn
  /-- Input: the host's answers (log 8). -/
  host : HostAnswers
  /-- Input: the bytes that arrive at the next points between two atomic steps of a phase action, one list for each
  point; an ended list is continued by free values (R52, R143, log 10). -/
  gaps : List (List Byte)
  /-- The model's own: the run loop has been entered or the handler has run since reset (R92, U4, log 17). -/
  entered : Bool
  /-- The model's own: how many free values have been drawn (log 11). -/
  draws : Nat
  /-- The model's own: the results of the last instruction (log 12). -/
  out : Outputs
  /-- The model's own: what the core has done at its interface since reset, oldest first (log 12). -/
  trace : List TraceItem
  deriving DecidableEq, Repr

/-! ## Reset -/

/-- The FIFO after reset: empty, no cell written (R31). -/
def Fifo.reset : Fifo := { mem := [], head := 0, tail := 0, count := 0 }

/-- The parser after reset (R31). -/
def Parser.reset : Parser :=
  { ev0 := 0#8, ev1 := 0#8, ev2 := 0#8, idx := 0#2, sysex := false, explen := 0#2, openCin := 0#4 }

/-- The serializer after reset: "none" (R31). DESIGN CHOICE (log 5): `lastStatus`, unspecified there, is 0. -/
def Serializer.reset : Serializer := { lastValid := false, lastStatus := 0#8 }

/-- The machine right after reset in the MIDI-bridge mode (R31, R193). DESIGN CHOICE (log 18): `mode_in` is 1. -/
def State.reset : State where
  fifo := Fifo.reset
  parser := Parser.reset
  ser := Serializer.reset
  bridgeMode := true
  phase := .pump1
  timerA := 0
  timerB := 0
  config := .hw
  modeIn := true
  turns := []
  host := {}
  gaps := []
  entered := false
  draws := 0
  out := {}
  trace := []

/-! ## Stops -/

/-- Faults of a step. There is none: "there is no crash/abort path in this core" (R9, R166), so the type has no
constructor and that no step faults is a fact of its type. Safe: nothing is hidden behind a fault. -/
inductive Fault where
  deriving DecidableEq, Repr

/-- Why a step has no meaning. -/
inductive Refusal where
  /-- Raised by an arm of exec for an instruction not modelled yet; no arm does. Safe: the machine stops. -/
  | notModelled (mnemonic : String)
  /-- Raised by every instruction but `RESET`, and by an idle turn, while `bridge_mode` is 0: the excluded
  serial-passthrough core runs and the spec says nothing of it (R24, R192, U5). Safe: nothing is claimed of that mode. -/
  | excludedMode
  /-- Raised by `CLEAR` after the run loop was entered or the interrupt handler has run: the spec gives it no meaning
  there and tells a model to refuse (R92, R200, U4). Safe: the machine stops. -/
  | clearAfterEntry
  deriving DecidableEq, Repr

end Sys2Proof.Machine
end

