-- ==== Sys2Proof/Machine/Flags.lean ====
section
/-! DEFINITION. The flags of the core. None is stored: each is a function of a register (10_state R18, R26). -/

namespace Sys2Proof.Machine

/-- `empty = (count == 0)` (R18). -/
def Fifo.isEmpty (f : Fifo) : Bool := f.count = 0

/-- `full = (count == N)` (R18). -/
def Fifo.isFull (c : Config) (f : Fifo) : Bool := f.count = c.n

/-- The indicator of direction A: `timerA != 0` (R26). -/
def State.actA (s : State) : Bool := s.timerA != 0

/-- The indicator of direction B: `timerB != 0` (R26). -/
def State.actB (s : State) : Bool := s.timerB != 0

end Sys2Proof.Machine
end

