-- ==== Sys2Proof/Machine/Operands.lean ====
section
/-! DEFINITION. What the core assembles from bits: byte classes, NoRunningStatus, the frame of an
emitted event (30_encoding R62 to R68, 42_parser R109). -/

namespace Sys2Proof.Machine

/-- `NoRunningStatus`: the Frame-Types whose `d1` is never suppressed (R67, R128). -/
def noRunningStatus (cin : Nibble) : Bool :=
  cin = 0#4 || cin = 1#4 || cin = 4#4 || cin = 5#4 || cin = 6#4 || cin = 7#4 || cin = 15#4

/-- The classes of a serial byte (R62). -/
inductive ByteClass where
  | rt
  | sox
  | eox
  | status
  | data
  deriving DecidableEq, Repr

/-- The class of a byte: the first test that holds, in the normative order of R62. -/
def byteClass (b : Byte) : ByteClass :=
  if 0xF8#8 ≤ b then .rt
  else if b = 0xF0#8 then .sox
  else if b = 0xF7#8 then .eox
  else if 0x80#8 ≤ b then .status
  else .data

/-- The status high nibble `b[7:4]` (R68 item 1). -/
def statusNibble (b : Byte) : Nibble := b.extractLsb' 4 4

/-- The byte a STATUS pattern with a channel nibble stands for (R63). -/
def statusByte (h channel : Nibble) : Byte := h ++ channel

/-- The Frame-Type of a System Exclusive end, `4 + idx` (R68 item 2). -/
def eoxFrameType (idx : BitVec 2) : Nibble := 4#4 + idx.setWidth 4

/-- `frame(c, n)`: the first `n` data bytes of the partial event, zero-filled from the byte count and not from the
buffer, with transport-channel tag 0 (R109, R68 items 4 and 5). -/
def Parser.frame (p : Parser) (c : Nibble) (n : BitVec 2) : Event where
  cable := 0#4
  cin := c
  d1 := p.ev0
  d2 := if 2#2 ≤ n then p.ev1 else 0#8
  d3 := if 3#2 ≤ n then p.ev2 else 0#8

/-- The event of a real-time byte, built beside the partial event (R102). -/
def realTimeEvent (b : Byte) : Event := { cable := 0#4, cin := 15#4, d1 := b, d2 := 0#8, d3 := 0#8 }

end Sys2Proof.Machine
end

