-- ==== Sys2Proof/Machine/Ops.lean ====
section
/-! DEFINITION. The named operations every meaning is built from: the storage, raising a condition, drawing a free
value, asking the host, the mode guard, fetching the next instruction. -/

namespace Sys2Proof.Machine

/-! ## The storage `buf` -/

/-- The byte of a listed cell; an unlisted cell has no value of its own (`MemRead`, R7). -/
def Mem.read : List Host.Cell → Nat → Option Byte
  | [], _ => none
  | (a, v) :: rest, addr => if a = addr then some v else Mem.read rest addr

/-- `MemWrite(addr, 1, v)` (R7), keeping the addresses strictly rising. -/
def Mem.write : List Host.Cell → Nat → Byte → List Host.Cell
  | [], addr, b => [(addr, b)]
  | (a, v) :: rest, addr, b =>
    if addr < a then (addr, b) :: (a, v) :: rest
    else if addr = a then (a, b) :: rest
    else (a, v) :: Mem.write rest addr b

/-- The canonical form: the addresses rise strictly from `lo` and stay below `n` (R41: addresses `0..N-1`). -/
def Mem.wfFrom (n : Nat) : Nat → List Host.Cell → Bool
  | _, [] => true
  | lo, (a, _) :: rest => decide (lo ≤ a) && decide (a < n) && Mem.wfFrom n (a + 1) rest

/-- The canonical form of the storage of a FIFO of capacity `n`. -/
def Mem.wf (n : Nat) (m : List Host.Cell) : Bool := Mem.wfFrom n 0 m

/-- What a read of a cell answers: the byte written last, or the cell's unspecified reset content (R14, U2, log 4). -/
def Fifo.cell (f : Fifo) (addr : Nat) : Byte := (Mem.read f.mem addr).getD (Config.bufContents addr)

/-- The queue's contents, oldest first (R17). -/
def Fifo.contents (c : Config) (f : Fifo) : List Byte :=
  (List.range f.count).map fun k => f.cell ((f.tail + k) % c.n)

/-! ## Conditions and the trace -/

/-- The code of a condition (R166). -/
def Condition.code : Condition → Nat
  | .overflow _ => 1
  | .protocolViolation _ => 2
  | .transmitNotReady _ => 3
  | .underflow => 4
  | .parserOverrun => 5

/-- One more entry at the end of the observable trace. -/
def State.log (s : State) (x : TraceItem) : State := { s with trace := s.trace ++ [x] }

/-- TAKING A CONDITION, the one shared operation for all five: it is reported in the trace and changes no register
and no control flow (R7 `raise`, R166, R34). There is nothing to return from. -/
def State.raise (s : State) (c : Condition) : State := s.log (.raised c)

/-- The conditions of one operation, in the order it raises them (R178 item 3). -/
def State.raiseAll (s : State) (cs : List Condition) : State := cs.foldl State.raise s

/-! ## Free values and the host's answers -/

/-- A free value has been drawn: the next one is another (log 11). -/
def State.drawn (s : State) : State := { s with draws := s.draws + 1 }

/-- `host.deviceConfigured()` (R142). -/
def State.askConfigured (s : State) : Bool × State :=
  match s.host.cfg with
  | a :: rest => (a, { s with host := { s.host with cfg := rest } }.log (.configured a))
  | [] => (Config.freeBool s.draws, s.drawn.log (.configured (Config.freeBool s.draws)))

/-- `host.sendFramedEvent(e)`, answered accepted or not (R142, D18). -/
def State.askSend (s : State) (e : Event) : Bool × State :=
  match s.host.acc with
  | a :: rest => (a, { s with host := { s.host with acc := rest } }.log (.send e a))
  | [] => (Config.freeBool s.draws, s.drawn.log (.send e (Config.freeBool s.draws)))

/-- `host.txReady()` (R142, D19). -/
def State.askTxReady (s : State) : Bool × State :=
  match s.host.txr with
  | a :: rest => (a, { s with host := { s.host with txr := rest } }.log (.txReady a))
  | [] => (Config.freeBool s.draws, s.drawn.log (.txReady (Config.freeBool s.draws)))

/-- `host.receiveFramedEvent()` (R142). -/
def State.askReceive (s : State) : Option Event × State :=
  match s.host.rx with
  | a :: rest => (a, { s with host := { s.host with rx := rest } }.log (.receive a))
  | [] => (Config.freeEvent s.draws, s.drawn.log (.receive (Config.freeEvent s.draws)))

/-- `host.pumpUsbTask()`: neither reads nor writes core state (R142, R150). -/
def State.pump (s : State) : State := s.log .pump

/-- The bytes that arrive at this point between two atomic steps of a phase action (R52, R152, log 10). -/
def State.gapBytes (s : State) : List Byte × State :=
  match s.gaps with
  | bs :: rest => (bs, { s with gaps := rest })
  | [] => (Config.burst s.draws, s.drawn)

/-! ## The mode guard -/

/-- Run an operation in the MIDI-bridge mode: with `bridge_mode == 0` the spec gives nothing a meaning (R24, U5). The
results of the instruction before are forgotten. -/
def State.inBridge (s : State) (f : State → State) : Host.Outcome State Fault Refusal :=
  if s.bridgeMode then .next (f { s with out := {} }) else .refused .excludedMode

/-- The run loop has been entered, or the handler has run: from here on `CLEAR` is not legal (R92, R200, U4). -/
def State.enter (s : State) : State := { s with entered := true }

/-- Run a phase action: with it the run loop has been entered, however the action came to run (R92, log 17). -/
def State.inLoop (s : State) (f : State → State) : Host.Outcome State Fault Refusal :=
  s.inBridge fun s => f s.enter

/-- A turn that asks for no operation: a request vector with `clr`, `wr_en` and `rd_en` all 0, or the reset input at 0.
Nothing changes (R69: nothing is checked that no rule checks; R76, R77). -/
def State.idle (s : State) : Host.Outcome State Fault Refusal := s.inBridge id

/-! ## Fetching the next instruction -/

/-- The turn that comes next and the state once it is taken: the head of the list, or, where the list has ended, an
arrival or a step of the loop as a free value decides (R52, R174, log 9). -/
def State.nextTurn (s : State) : Turn × State :=
  match s.turns with
  | t :: rest => (t, { s with turns := rest })
  | [] => (match Config.arrival s.draws with
      | some b => .irq b
      | none => .loop, s.drawn)

/-- The instruction of the next turn, decoded from the pattern it presents, and the state it runs in: the interrupt
callback raises `wr_en` with the received byte (R176), the loop's phase register selects the phase action (R25, R72),
a request presents its pattern at its port (R76, R78).
DESIGN CHOICE (log 25): a request may stand between any two turns of the handler and of the loop and is taken as the
same producer's (`INSERT`) or the same consumer's (`REMOVE`, `PEEK`, `feed`, `serialize`) own step, never as a second
one's (R199), and it does not mark the run loop as entered (log 17). -/
def State.fetch (s : State) : Except Reject Instr × State :=
  match s.nextTurn with
  | (.irq b, t) => (decode .request ((portVector false true false b).setWidth 32), t.enter)
  | (.loop, t) => (decode .phase ((phaseCode t.phase).setWidth 32), t)
  | (.request p w, t) => (decode p.port (p.port.lines w), t)

/-! ## Placing an instruction for the next step -/

/-- The phase a phase code stands for, if any (R72). -/
def codePhase (w : Nat) : Option Phase :=
  match w with
  | 0 => some .pump1
  | 1 => some .cfg
  | 2 => some .drainA
  | 3 => some .drainB
  | 4 => some .pump2
  | _ => none

/-- The state with a table word placed where the next step fetches: a phase code in `phase` with the loop's turn next,
any other word as the next request at its port (log 16); a phase code that is never taken cannot be placed (U10). -/
def State.place (s : State) (nbits w : Nat) : State :=
  match (tablePort nbits w).inlet, codePhase w with
  | some p, _ => { s with turns := .request p (BitVec.ofNat 32 w) :: s.turns }
  | none, some p => { s with phase := p, turns := .loop :: s.turns }
  | none, none => s

end Sys2Proof.Machine
end

