-- ==== Sys2Proof/Machine/Feed.lean ====
section
/-! DEFINITION. The operation `feed` of midi_byte_parser, one function per byte class, and the meanings of the rows of
format BYTE8 (42_parser). -/

namespace Sys2Proof.Machine

/-- What `feed` answers: the new parser state, the completed event if any, the conditions raised (R101, R178). -/
structure FeedResult where
  parser : Parser
  event : Option Event
  raised : List Condition
  deriving DecidableEq, Repr

/-! ## The steps -/

/-- The overrun guard before step 2: with three bytes buffered they are abandoned (R103). The spec's own decision D11,
log 19. -/
def Parser.guarded (p : Parser) : Parser := if p.idx = 3#2 then { p with idx := 0#2 } else p

/-- What the overrun guard raises (R103, R172). -/
def Parser.guardRaises (p : Parser) : List Condition := if p.idx = 3#2 then [.parserOverrun] else []

/-- `x[idx] <- b`; position 3 does not exist and the guard keeps `idx` below it (R19, R103). -/
def Parser.put (p : Parser) (b : Byte) : Parser :=
  if p.idx = 0#2 then { p with ev0 := b }
  else if p.idx = 1#2 then { p with ev1 := b }
  else if p.idx = 2#2 then { p with ev2 := b }
  else p

/-- Step 6: store the byte at position `idx` and advance `idx` (R107). -/
def Parser.store (p : Parser) (b : Byte) : Parser :=
  let p := p.put b
  { p with idx := p.idx + 1#2 }

/-- The completion checks in order, 7a (R110), 7b (R111), 7c (R112), after `b` was stored. -/
def Parser.complete (c : Config) (p : Parser) (b : Byte) : Parser × Option Event :=
  if p.sysex && p.idx = 3#2 then ({ p with idx := 0#2 }, some (p.frame 4#4 3#2))
  else if b = 0xF7#8 then ({ p with idx := 0#2 }, some (p.frame (eoxFrameType p.idx) p.idx))
  else if p.idx = p.explen then ({ p with idx := c.carryIndex.setWidth 2 }, some (p.frame p.openCin p.idx))
  else (p, none)

/-- Steps 6 and 7 of a byte that is stored, with what the guard raised before. -/
def Parser.storeAndComplete (c : Config) (p : Parser) (b : Byte) (raised : List Condition) : FeedResult :=
  let (q, e) := (p.store b).complete c b
  { parser := q, event := e, raised := raised }

/-! ## One function per class -/

/-- Class RT: an event beside the partial one, no register changed (R102, C1). -/
def feedRealTime (p : Parser) (b : Byte) : FeedResult :=
  { parser := p, event := some (realTimeEvent b), raised := [] }

/-- Class SOX: step 2, then the store at the current `idx` (R104, C3). -/
def feedSysexStart (c : Config) (p : Parser) : FeedResult :=
  { p.guarded with sysex := true }.storeAndComplete c 0xF0#8 p.guardRaises

/-- Class EOX: step 3, then the store (R105). -/
def feedSysexEnd (c : Config) (p : Parser) : FeedResult :=
  { p.guarded with sysex := false }.storeAndComplete c 0xF7#8 p.guardRaises

/-- Class STATUS: step 4, then the store at position 0 (R106, R115). -/
def feedStatus (c : Config) (p : Parser) (b : Byte) : FeedResult :=
  { p.guarded with
      idx := 0#2, explen := c.lenRom (statusNibble b), openCin := statusNibble b,
      sysex := p.sysex && !c.statusClearsSysex }.storeAndComplete c b p.guardRaises

/-- Class DATA: discarded with `ProtocolViolation` when no message is open (step 5, R108), else stored (R107). -/
def feedDataByte (c : Config) (p : Parser) (b : Byte) : FeedResult :=
  if p.guarded.idx = 0#2 && !p.guarded.sysex then
    { parser := p.guarded, event := none, raised := p.guardRaises ++ [.protocolViolation b] }
  else p.guarded.storeAndComplete c b p.guardRaises

/-- `feed(P, b)` (R101): the class of the byte selects the function. -/
def feed (c : Config) (p : Parser) (b : Byte) : FeedResult :=
  match byteClass b with
  | .rt => feedRealTime p b
  | .sox => feedSysexStart c p
  | .eox => feedSysexEnd c p
  | .status => feedStatus c p b
  | .data => feedDataByte c p b

/-! ## The meanings -/

/-- A `feed` used alone: the new parser state is always kept (R101). -/
def State.feedWith (s : State) (f : Config → Parser → FeedResult) : Host.Outcome State Fault Refusal :=
  s.inBridge fun s =>
    let r := f s.config s.parser
    { s with parser := r.parser, out := { s.out with evt := some r.event } }.raiseAll r.raised

/-- `FEED.RT` (R102). -/
def execFeedRt (rt : BitVec 3) (s : State) : Host.Outcome State Fault Refusal :=
  s.feedWith fun _ p => feedRealTime p (0b11111#5 ++ rt)

/-- `FEED.SOX` (R104). -/
def execFeedSox (s : State) : Host.Outcome State Fault Refusal :=
  s.feedWith feedSysexStart

/-- `FEED.EOX` (R105). -/
def execFeedEox (s : State) : Host.Outcome State Fault Refusal :=
  s.feedWith feedSysexEnd

/-- `FEED.ST8` (R106). -/
def execFeedSt8 (channel : Nibble) (s : State) : Host.Outcome State Fault Refusal :=
  s.feedWith fun c p => feedStatus c p (statusByte 0x8#4 channel)

/-- `FEED.ST9` (R106). -/
def execFeedSt9 (channel : Nibble) (s : State) : Host.Outcome State Fault Refusal :=
  s.feedWith fun c p => feedStatus c p (statusByte 0x9#4 channel)

/-- `FEED.STA` (R106). -/
def execFeedStA (channel : Nibble) (s : State) : Host.Outcome State Fault Refusal :=
  s.feedWith fun c p => feedStatus c p (statusByte 0xA#4 channel)

/-- `FEED.STB` (R106). -/
def execFeedStB (channel : Nibble) (s : State) : Host.Outcome State Fault Refusal :=
  s.feedWith fun c p => feedStatus c p (statusByte 0xB#4 channel)

/-- `FEED.STC` (R106). -/
def execFeedStC (channel : Nibble) (s : State) : Host.Outcome State Fault Refusal :=
  s.feedWith fun c p => feedStatus c p (statusByte 0xC#4 channel)

/-- `FEED.STD` (R106). -/
def execFeedStD (channel : Nibble) (s : State) : Host.Outcome State Fault Refusal :=
  s.feedWith fun c p => feedStatus c p (statusByte 0xD#4 channel)

/-- `FEED.STE` (R106). -/
def execFeedStE (channel : Nibble) (s : State) : Host.Outcome State Fault Refusal :=
  s.feedWith fun c p => feedStatus c p (statusByte 0xE#4 channel)

/-- `FEED.SC1` (R106). -/
def execFeedSc1 (s : State) : Host.Outcome State Fault Refusal :=
  s.feedWith fun c p => feedStatus c p 0xF1#8

/-- `FEED.SC2` (R106). -/
def execFeedSc2 (s : State) : Host.Outcome State Fault Refusal :=
  s.feedWith fun c p => feedStatus c p 0xF2#8

/-- `FEED.SC3` (R106). -/
def execFeedSc3 (s : State) : Host.Outcome State Fault Refusal :=
  s.feedWith fun c p => feedStatus c p 0xF3#8

/-- `FEED.SC4` (R106). -/
def execFeedSc4 (s : State) : Host.Outcome State Fault Refusal :=
  s.feedWith fun c p => feedStatus c p 0xF4#8

/-- `FEED.SC5` (R106). -/
def execFeedSc5 (s : State) : Host.Outcome State Fault Refusal :=
  s.feedWith fun c p => feedStatus c p 0xF5#8

/-- `FEED.SC6` (R106). -/
def execFeedSc6 (s : State) : Host.Outcome State Fault Refusal :=
  s.feedWith fun c p => feedStatus c p 0xF6#8

/-- `FEED.DATA` (R107, R108). -/
def execFeedData (data : BitVec 7) (s : State) : Host.Outcome State Fault Refusal :=
  s.feedWith fun c p => feedDataByte c p (0#1 ++ data)

end Sys2Proof.Machine
end

