-- ==== Sys2Proof/Machine/Ring.lean ====
section
/-! DEFINITION. The operations of async_fifo_spsc and the meanings of the rows of format PORT (41_fifo). -/

namespace Sys2Proof.Machine

/-! ## The block -/

/-- The circular advance of an index (R48, R94). -/
def Config.next (c : Config) (i : Nat) : Nat := (i + 1) % c.n

/-- The accepted part of `INSERT`: the byte is written before the indices move (R87, R51). -/
def Fifo.push (c : Config) (f : Fifo) (b : Byte) : Fifo where
  mem := Mem.write f.mem f.head b
  head := Config.next c f.head
  tail := f.tail
  count := f.count + 1

/-- The byte `PEEK` and a defined `REMOVE` read, `MemRead(tail, 1)` (R88, R89). -/
def Fifo.front (f : Fifo) : Byte := f.cell f.tail

/-- The index update of a defined `REMOVE`; no cell is altered (R88). -/
def Fifo.pop (c : Config) (f : Fifo) : Fifo :=
  { f with tail := Config.next c f.tail, count := f.count - 1 }

/-- `CLEAR`: the indices and the count become 0 together, `buf` is not written (R92). -/
def Fifo.clear (f : Fifo) : Fifo := { f with head := 0, tail := 0, count := 0 }

/-! ## The operations on the state -/

/-- The effect of `INSERT(b)` (R87): the byte is stored, or dropped with `Overflow` when `count == N` and nothing else
changed (R167). -/
def State.store (c : Config) (s : State) (b : Byte) : State :=
  if s.fifo.isFull c then (s.log (.insert b false)).raise (.overflow b)
  else { s with fifo := s.fifo.push c b }.log (.insert b true)

/-- `INSERT(b)` with its result (R87). -/
def State.insertOp (c : Config) (s : State) (b : Byte) : State :=
  { s with out := { s.out with wrOk := some (!s.fifo.isFull c) } }.store c b

/-- A point between two atomic steps of a phase action: the handler runs for each byte that arrives there, its `INSERT`
one atomic step with the result discarded (R50, R52, R143, R176). -/
def State.gap (c : Config) (s : State) : State :=
  let (bytes, s) := s.gapBytes
  bytes.foldl (State.store c) s

/-- The byte of a read of an empty FIFO: a free value, with `Underflow` and no other change (R88, R89, R171, U1). -/
def State.underflowRead (s : State) : State :=
  { s with out := { s.out with rdData := some (Config.freeByte s.draws) } }.drawn.raise .underflow

/-- `REMOVE()` (R88). -/
def State.removeOp (c : Config) (s : State) : State :=
  if s.fifo.isEmpty then s.underflowRead
  else { s with out := { s.out with rdData := some s.fifo.front }, fifo := s.fifo.pop c }

/-- `PEEK()` (R89). -/
def State.peekOp (s : State) : State :=
  if s.fifo.isEmpty then s.underflowRead
  else { s with out := { s.out with rdData := some s.fifo.front } }

/-- `INSERT` and `REMOVE` presented together: both guards are those of the state before, which is one of the two serial
orders; with the FIFO empty the remove comes first, else the insert (R53). -/
def State.insertRemoveOp (c : Config) (s : State) (b : Byte) : State :=
  if s.fifo.isEmpty then (s.removeOp c).insertOp c b else (s.insertOp c b).removeOp c

/-! ## The meanings -/

/-- `INSERT` (R87), with `REMOVE` when the vector also sets `rd_en` (R53, R76). -/
def execInsert (r : Bool) (d : Byte) (s : State) : Host.Outcome State Fault Refusal :=
  s.inBridge fun s => if r then s.insertRemoveOp s.config d else s.insertOp s.config d

/-- `REMOVE` (R88), with `INSERT` when the vector also sets `wr_en` (R53, R76). -/
def execRemove (w : Bool) (d : Byte) (s : State) : Host.Outcome State Fault Refusal :=
  s.inBridge fun s => if w then s.insertRemoveOp s.config d else s.removeOp s.config

/-- `PEEK` (R89): the value of the state before any operation the vector requests takes effect (R76).
DESIGN CHOICE (log 30): reading the output performs no operation
that the vector `c, w, r, d` requests; such an operation runs by a turn of its own at the request port. -/
def execPeek (s : State) : Host.Outcome State Fault Refusal :=
  s.inBridge State.peekOp

/-- `COUNT` (R90): the value of the state before any operation the vector requests takes effect (R76).
DESIGN CHOICE (log 30): reading the output performs no operation
that the vector `c, w, r, d` requests; such an operation runs by a turn of its own at the request port. -/
def execCount (s : State) : Host.Outcome State Fault Refusal :=
  s.inBridge fun s => { s with out := { s.out with count := some s.fifo.count } }

/-- `ISEMPTY` (R91): the value of the state before any operation the vector requests takes effect (R76).
DESIGN CHOICE (log 30): reading the output performs no operation
that the vector `c, w, r, d` requests; such an operation runs by a turn of its own at the request port. -/
def execIsEmpty (s : State) : Host.Outcome State Fault Refusal :=
  s.inBridge fun s => { s with out := { s.out with empty := some s.fifo.isEmpty } }

/-- `ISFULL` (R93): the value of the state before any operation the vector requests takes effect (R76).
DESIGN CHOICE (log 30): reading the output performs no operation
that the vector `c, w, r, d` requests; such an operation runs by a turn of its own at the request port. -/
def execIsFull (s : State) : Host.Outcome State Fault Refusal :=
  s.inBridge fun s => { s with out := { s.out with full := some (s.fifo.isFull s.config) } }

/-- `CLEAR` (R92): only while neither agent is active; afterwards the spec gives it no meaning (U4). The mode is
asked first (R24). -/
def execClear (s : State) : Host.Outcome State Fault Refusal :=
  if s.bridgeMode && s.entered then .refused .clearAfterEntry
  else s.inBridge fun s => { s with fifo := s.fifo.clear }

end Sys2Proof.Machine
end

