-- ==== Sys2Proof/Machine/Serialize.lean ====
section
/-! DEFINITION. The operation `serialize` of midi_frame_serializer and the meanings of the rows of format EVT32
(43_serializer). -/

namespace Sys2Proof.Machine

/-- Whether `d1` is emitted: never suppressed for a NoRunningStatus type, nor from "none", nor when it differs from
the last status on any of its 8 bits (R129). -/
def Serializer.emitsD1 (s : Serializer) (e : Event) : Bool :=
  noRunningStatus e.cin || !s.lastValid || e.d1 != s.lastStatus

/-- The bytes of an event, in order (R126). -/
def Serializer.bytes (c : Config) (s : Serializer) (e : Event) : List Byte :=
  (if s.emitsD1 e then [e.d1] else []) ++ (if 2#2 ≤ c.lenRom e.cin then [e.d2] else [])
    ++ (if 3#2 ≤ c.lenRom e.cin then [e.d3] else [])

/-- The last status after an event: `d1` whenever the byte count is at least 1 (R130). -/
def Serializer.after (c : Config) (s : Serializer) (e : Event) : Serializer :=
  if 1#2 ≤ c.lenRom e.cin then { lastValid := true, lastStatus := e.d1 } else s

/-- `serialize(S, e)` (R126). The high nibble of the tag is not read (R127). -/
def serialize (c : Config) (s : Serializer) (e : Event) : Serializer × List Byte := (s.after c e, s.bytes c e)

/-! ## The meanings -/

/-- A `serialize` used alone; its new state is always kept (R126). -/
def State.serializeWith (s : State) (e : Event) : Host.Outcome State Fault Refusal :=
  s.inBridge fun s =>
    let (q, bytes) := serialize s.config s.ser e
    { s with ser := q, out := { s.out with ser := some bytes } }

/-- `SER.0` (R131). -/
def execSer0 (cable : Nibble) (d1 d2 d3 : Byte) (s : State) : Host.Outcome State Fault Refusal :=
  s.serializeWith ⟨cable, 0#4, d1, d2, d3⟩

/-- `SER.1` (R131). -/
def execSer1 (cable : Nibble) (d1 d2 d3 : Byte) (s : State) : Host.Outcome State Fault Refusal :=
  s.serializeWith ⟨cable, 1#4, d1, d2, d3⟩

/-- `SER.2` (R132). -/
def execSer2 (cable : Nibble) (d1 d2 d3 : Byte) (s : State) : Host.Outcome State Fault Refusal :=
  s.serializeWith ⟨cable, 2#4, d1, d2, d3⟩

/-- `SER.3` (R132). -/
def execSer3 (cable : Nibble) (d1 d2 d3 : Byte) (s : State) : Host.Outcome State Fault Refusal :=
  s.serializeWith ⟨cable, 3#4, d1, d2, d3⟩

/-- `SER.4` (R133). -/
def execSer4 (cable : Nibble) (d1 d2 d3 : Byte) (s : State) : Host.Outcome State Fault Refusal :=
  s.serializeWith ⟨cable, 4#4, d1, d2, d3⟩

/-- `SER.5` (R133). -/
def execSer5 (cable : Nibble) (d1 d2 d3 : Byte) (s : State) : Host.Outcome State Fault Refusal :=
  s.serializeWith ⟨cable, 5#4, d1, d2, d3⟩

/-- `SER.6` (R133). -/
def execSer6 (cable : Nibble) (d1 d2 d3 : Byte) (s : State) : Host.Outcome State Fault Refusal :=
  s.serializeWith ⟨cable, 6#4, d1, d2, d3⟩

/-- `SER.7` (R133). -/
def execSer7 (cable : Nibble) (d1 d2 d3 : Byte) (s : State) : Host.Outcome State Fault Refusal :=
  s.serializeWith ⟨cable, 7#4, d1, d2, d3⟩

/-- `SER.8` (R134). -/
def execSer8 (cable : Nibble) (d1 d2 d3 : Byte) (s : State) : Host.Outcome State Fault Refusal :=
  s.serializeWith ⟨cable, 8#4, d1, d2, d3⟩

/-- `SER.9` (R134). -/
def execSer9 (cable : Nibble) (d1 d2 d3 : Byte) (s : State) : Host.Outcome State Fault Refusal :=
  s.serializeWith ⟨cable, 9#4, d1, d2, d3⟩

/-- `SER.10` (R134). -/
def execSer10 (cable : Nibble) (d1 d2 d3 : Byte) (s : State) : Host.Outcome State Fault Refusal :=
  s.serializeWith ⟨cable, 10#4, d1, d2, d3⟩

/-- `SER.11` (R134). -/
def execSer11 (cable : Nibble) (d1 d2 d3 : Byte) (s : State) : Host.Outcome State Fault Refusal :=
  s.serializeWith ⟨cable, 11#4, d1, d2, d3⟩

/-- `SER.12` (R134). -/
def execSer12 (cable : Nibble) (d1 d2 d3 : Byte) (s : State) : Host.Outcome State Fault Refusal :=
  s.serializeWith ⟨cable, 12#4, d1, d2, d3⟩

/-- `SER.13` (R134). -/
def execSer13 (cable : Nibble) (d1 d2 d3 : Byte) (s : State) : Host.Outcome State Fault Refusal :=
  s.serializeWith ⟨cable, 13#4, d1, d2, d3⟩

/-- `SER.14` (R134). -/
def execSer14 (cable : Nibble) (d1 d2 d3 : Byte) (s : State) : Host.Outcome State Fault Refusal :=
  s.serializeWith ⟨cable, 14#4, d1, d2, d3⟩

/-- `SER.15` (R135). -/
def execSer15 (cable : Nibble) (d1 d2 d3 : Byte) (s : State) : Host.Outcome State Fault Refusal :=
  s.serializeWith ⟨cable, 15#4, d1, d2, d3⟩

end Sys2Proof.Machine
end

