-- ==== Sys2Proof/Machine/Bridge.lean ====
section
/-! DEFINITION. The phase actions of midi_transceiver_top, the meanings of the rows of format PHASE3 (44_bridge). Each
is one step of the model and none of its FIFO operations and host calls are fused: between any two of them stands a
`State.gap`, where the handler may run (R52, R143, log 10). -/

namespace Sys2Proof.Machine

/-- A countdown timer's tick: one less, stopping at 0 as a natural does (R144). -/
def tick (t : Nat) : Nat := t - 1

/-- `STEP.PUMP1` (R144). -/
def State.pump1Action (s : State) : State :=
  { { s with timerA := tick s.timerA, timerB := tick s.timerB }.pump with phase := .cfg }

/-- `STEP.CFG` (R145). -/
def State.cfgAction (s : State) : State :=
  let (configured, s) := s.askConfigured
  { s with phase := if configured then .drainA else .pump2 }

/-- The commit of direction A: the parser state is written and the byte removed together (R147). -/
def State.commit (c : Config) (s : State) (p : Parser) : State :=
  { s with parser := p, fifo := s.fifo.pop c, phase := .drainA }

/-- Direction A once the byte is peeked and fed: delivery, and the commit or not (R147). -/
def State.offer (c : Config) (s : State) (r : FeedResult) : State :=
  match r.event with
  | none => s.commit c r.parser
  | some e =>
    let (accepted, s) := s.askSend e
    if accepted then { (s.gap c).commit c r.parser with timerA := c.activityReload }
    else { s.raise (.transmitNotReady e) with phase := .drainB }

/-- `STEP.DRAIN_A` (R146, R147): the oldest byte is fed; it leaves the FIFO only if the event it completes, if any, is
accepted, and a refused event leaves the parser and the FIFO unchanged. The points where the handler may run lie after
`ISEMPTY`, after `PEEK` and, where there is one, after the accepted send. -/
def State.drainAAction (c : Config) (s : State) : State :=
  if s.fifo.isEmpty then { s with phase := .drainB }
  else
    let s := s.gap c
    let r := feed c s.parser s.fifo.front
    ((s.raiseAll r.raised).gap c).offer c r

/-- `host.sendByte(v)` for each byte, in order; the handler may run before each (R149). -/
def State.sendBytes (c : Config) (s : State) (bytes : List Byte) : State :=
  bytes.foldl (fun s v => (s.gap c).log (.sendByte v)) s

/-- The second half of `STEP.DRAIN_B`: an event once received is serialized and sent whole (R149). -/
def State.deliver (c : Config) (s : State) (e : Event) : State :=
  let (q, bytes) := serialize c s.ser e
  { { s with ser := q }.sendBytes c bytes with timerB := c.activityReload, phase := .drainB }

/-- `STEP.DRAIN_B` (R148, R149): readiness is asked before the event is taken. -/
def State.drainBAction (c : Config) (s : State) : State :=
  let (ready, s) := s.askTxReady
  if ready then
    let (r, s) := (s.gap c).askReceive
    match r with
    | none => { s with phase := .pump2 }
    | some e => s.deliver c e
  else { s with phase := .pump2 }

/-- `STEP.PUMP2` (R150). -/
def State.pump2Action (s : State) : State := { s.pump with phase := .pump1 }

/-! ## The meanings -/

/-- `STEP.PUMP1` (R144). -/
def execStepPump1 (s : State) : Host.Outcome State Fault Refusal := s.inLoop State.pump1Action

/-- `STEP.CFG` (R145). -/
def execStepCfg (s : State) : Host.Outcome State Fault Refusal := s.inLoop State.cfgAction

/-- `STEP.DRAIN_A` (R146, R147). -/
def execStepDrainA (s : State) : Host.Outcome State Fault Refusal := s.inLoop fun s => s.drainAAction s.config

/-- `STEP.DRAIN_B` (R148, R149). -/
def execStepDrainB (s : State) : Host.Outcome State Fault Refusal := s.inLoop fun s => s.drainBAction s.config

/-- `STEP.PUMP2` (R150). -/
def execStepPump2 (s : State) : Host.Outcome State Fault Refusal := s.inLoop State.pump2Action

end Sys2Proof.Machine
end

