-- ==== Sys2Proof/Machine/Reset.lean ====
section
/-! DEFINITION. The meaning of the row of format RST1, reset (70_reset_and_hazards R191 to R194). -/

namespace Sys2Proof.Machine

/-- Reset at once gives every register its value of R31, performs `CLEAR` on the FIFO and latches `bridge_mode` from
`mode_in` (R191, R192). It leaves alone the contents of `buf` and `last_status` (R194, log 6), and the inputs. -/
def State.resetOp (s : State) : State where
  fifo := s.fifo.clear
  parser := Parser.reset
  ser := { s.ser with lastValid := false }
  bridgeMode := s.modeIn
  phase := .pump1
  timerA := 0
  timerB := 0
  config := s.config
  modeIn := s.modeIn
  turns := s.turns
  host := s.host
  gaps := s.gaps
  entered := false
  draws := s.draws
  out := {}
  trace := []

/-- `RESET` (R191), in either mode: it is the one event that selects the mode (R192). -/
def execReset (s : State) : Host.Outcome State Fault Refusal := .next s.resetOp

end Sys2Proof.Machine
end

