-- ==== Sys2Proof/Machine/Dispatch.lean ====
section
/-! DEFINITION. The dispatch: one arm per constructor of Instr, each one direct call of that instruction's meaning. -/

namespace Sys2Proof.Machine

def exec (i : Instr) (s : State) : Host.Outcome State Fault Refusal :=
  match i with
  | .insert r d => Sys2Proof.Machine.execInsert r d s
  | .remove w d => Sys2Proof.Machine.execRemove w d s
  | .peek _ _ _ _ => Sys2Proof.Machine.execPeek s
  | .count _ _ _ _ => Sys2Proof.Machine.execCount s
  | .isEmpty _ _ _ _ => Sys2Proof.Machine.execIsEmpty s
  | .isFull _ _ _ _ => Sys2Proof.Machine.execIsFull s
  | .clear _ _ _ => Sys2Proof.Machine.execClear s
  | .feedRt rt => Sys2Proof.Machine.execFeedRt rt s
  | .feedSox => Sys2Proof.Machine.execFeedSox s
  | .feedEox => Sys2Proof.Machine.execFeedEox s
  | .feedSt8 channel => Sys2Proof.Machine.execFeedSt8 channel s
  | .feedSt9 channel => Sys2Proof.Machine.execFeedSt9 channel s
  | .feedStA channel => Sys2Proof.Machine.execFeedStA channel s
  | .feedStB channel => Sys2Proof.Machine.execFeedStB channel s
  | .feedStC channel => Sys2Proof.Machine.execFeedStC channel s
  | .feedStD channel => Sys2Proof.Machine.execFeedStD channel s
  | .feedStE channel => Sys2Proof.Machine.execFeedStE channel s
  | .feedSc1 => Sys2Proof.Machine.execFeedSc1 s
  | .feedSc2 => Sys2Proof.Machine.execFeedSc2 s
  | .feedSc3 => Sys2Proof.Machine.execFeedSc3 s
  | .feedSc4 => Sys2Proof.Machine.execFeedSc4 s
  | .feedSc5 => Sys2Proof.Machine.execFeedSc5 s
  | .feedSc6 => Sys2Proof.Machine.execFeedSc6 s
  | .feedData data => Sys2Proof.Machine.execFeedData data s
  | .ser0 cable d1 d2 d3 => Sys2Proof.Machine.execSer0 cable d1 d2 d3 s
  | .ser1 cable d1 d2 d3 => Sys2Proof.Machine.execSer1 cable d1 d2 d3 s
  | .ser2 cable d1 d2 d3 => Sys2Proof.Machine.execSer2 cable d1 d2 d3 s
  | .ser3 cable d1 d2 d3 => Sys2Proof.Machine.execSer3 cable d1 d2 d3 s
  | .ser4 cable d1 d2 d3 => Sys2Proof.Machine.execSer4 cable d1 d2 d3 s
  | .ser5 cable d1 d2 d3 => Sys2Proof.Machine.execSer5 cable d1 d2 d3 s
  | .ser6 cable d1 d2 d3 => Sys2Proof.Machine.execSer6 cable d1 d2 d3 s
  | .ser7 cable d1 d2 d3 => Sys2Proof.Machine.execSer7 cable d1 d2 d3 s
  | .ser8 cable d1 d2 d3 => Sys2Proof.Machine.execSer8 cable d1 d2 d3 s
  | .ser9 cable d1 d2 d3 => Sys2Proof.Machine.execSer9 cable d1 d2 d3 s
  | .ser10 cable d1 d2 d3 => Sys2Proof.Machine.execSer10 cable d1 d2 d3 s
  | .ser11 cable d1 d2 d3 => Sys2Proof.Machine.execSer11 cable d1 d2 d3 s
  | .ser12 cable d1 d2 d3 => Sys2Proof.Machine.execSer12 cable d1 d2 d3 s
  | .ser13 cable d1 d2 d3 => Sys2Proof.Machine.execSer13 cable d1 d2 d3 s
  | .ser14 cable d1 d2 d3 => Sys2Proof.Machine.execSer14 cable d1 d2 d3 s
  | .ser15 cable d1 d2 d3 => Sys2Proof.Machine.execSer15 cable d1 d2 d3 s
  | .stepPump1 => Sys2Proof.Machine.execStepPump1 s
  | .stepCfg => Sys2Proof.Machine.execStepCfg s
  | .stepDrainA => Sys2Proof.Machine.execStepDrainA s
  | .stepDrainB => Sys2Proof.Machine.execStepDrainB s
  | .stepPump2 => Sys2Proof.Machine.execStepPump2 s
  | .reset => Sys2Proof.Machine.execReset s

end Sys2Proof.Machine
end

