-- ==== Sys2Proof/Machine/Step.lean ====
section
/-! DEFINITION. One step of the machine: the next turn's instruction is fetched and run. -/

namespace Sys2Proof.Machine

/-- One step (R8, R143): fetch the instruction of the next turn and run it; a pattern that asks for no operation
changes nothing (R69). -/
def step (s : State) : Host.Outcome State Fault Refusal :=
  match s.fetch with
  | (.ok i, t) => exec i t
  | (.error _, t) => t.idle

/-- `s` with a word of the opcode table placed where the next step fetches (log 16). -/
def State.withFetchWord (s : State) (nbits w : Nat) : State := s.place nbits w

end Sys2Proof.Machine
end

