-- ==== Sys2Proof/Safety.lean ====
section
/-! DEFINITION. What counts as a good state and a good run, in the terms the statements use: the invariants of
10_state R14, R17, R23, and the histories behind 20_memory R49 and 44_bridge R156. -/

namespace Sys2Proof.Machine

/-! ## Invariants -/

/-- The FIFO invariant (R17). -/
abbrev Fifo.Inv (c : Config) (f : Fifo) : Prop :=
  f.count ≤ c.n ∧ f.head < c.n ∧ f.tail < c.n ∧ f.head = (f.tail + f.count) % c.n

/-- Every cell of the live window has been written (R14). -/
abbrev Fifo.Written (c : Config) (f : Fifo) : Prop :=
  ∀ k < f.count, (Mem.read f.mem ((f.tail + k) % c.n)).isSome = true

/-- The parser invariant (R23); the disjunct with zeros is the time before any step 4. -/
abbrev Parser.Inv (c : Config) (p : Parser) : Prop :=
  (p.explen = 0#2 ∧ p.openCin = 0#4 ∨ 8#4 ≤ p.openCin ∧ p.explen = c.lenRom p.openCin) ∧
    (p.idx = 3#2 → p.sysex = false)

/-- Both timers fit their width (R26). -/
abbrev State.TimersFit (s : State) : Prop := s.timerA < 2 ^ s.config.tw ∧ s.timerB < 2 ^ s.config.tw

/-- The invariant of the whole machine. -/
abbrev State.Inv (s : State) : Prop :=
  Mem.wf s.config.n s.fifo.mem = true ∧ s.fifo.Inv s.config ∧ s.fifo.Written s.config ∧ s.parser.Inv s.config ∧
    s.TimersFit

/-! ## What a trace says -/

/-- The bytes accepted by `INSERT`, in order. -/
def acceptedBytes (tr : List TraceItem) : List Byte :=
  tr.filterMap fun x => match x with
    | .insert b true => some b
    | _ => none

/-- The bytes offered by `INSERT`, stored or not, in order. -/
def offeredBytes (tr : List TraceItem) : List Byte :=
  tr.filterMap fun x => match x with
    | .insert b _ => some b
    | _ => none

/-- The items that the producer's `INSERT`s leave in a trace. -/
def TraceItem.isArrival : TraceItem → Bool
  | .insert _ _ | .raised (.overflow _) => true
  | _ => false

/-- What the loop did, in order: the trace without the items of the producer's `INSERT`s. -/
def loopTrace (tr : List TraceItem) : List TraceItem := tr.filter fun x => !x.isArrival

/-- The events accepted by the packet transport, in order. -/
def acceptedEvents (tr : List TraceItem) : List Event :=
  tr.filterMap fun x => match x with
    | .send e true => some e
    | _ => none

/-- The events the host returned, in order. -/
def receivedEvents (tr : List TraceItem) : List Event :=
  tr.filterMap fun x => match x with
    | .receive (some e) => some e
    | _ => none

/-- The bytes given to `sendByte`, in order. -/
def sentBytes (tr : List TraceItem) : List Byte :=
  tr.filterMap fun x => match x with
    | .sendByte b => some b
    | _ => none

/-! ## The blocks over a whole stream -/

/-- `feed` applied to a stream, the new state always kept: the last state and the events, in order (R101). -/
def feedAll (c : Config) : Parser → List Byte → Parser × List Event
  | p, [] => (p, [])
  | p, b :: bs =>
    let r := feed c p b
    let (q, es) := feedAll c r.parser bs
    (q, r.event.toList ++ es)

/-- `serialize` applied to a list of events: the last state and the bytes, in order (R126). -/
def serializeAll (c : Config) : Serializer → List Event → Serializer × List Byte
  | s, [] => (s, [])
  | s, e :: es =>
    let (q, bytes) := serialize c s e
    let (q', rest) := serializeAll c q es
    (q', bytes ++ rest)

/-! ## The bridge end to end -/

/-- Direction A (R156): the bytes accepted since reset are those the parser has consumed and those the FIFO still
holds, and the parser and the accepted events are what `feed` makes of the consumed ones from reset. -/
def State.DirectionA (s : State) : Prop :=
  ∃ consumed : List Byte,
    acceptedBytes s.trace = consumed ++ s.fifo.contents s.config ∧
    feedAll s.config Parser.reset consumed = (s.parser, acceptedEvents s.trace)

/-- The last status as the serializer reads it: `none` is the sentinel (R22). -/
def Serializer.last (s : Serializer) : Option Byte := if s.lastValid then some s.lastStatus else none

/-- Direction B (R156): the bytes sent since reset are what `serialize` makes of the received events from reset. -/
def State.DirectionB (s : State) : Prop :=
  s.ser.last = (serializeAll s.config Serializer.reset (receivedEvents s.trace)).1.last ∧
    sentBytes s.trace = (serializeAll s.config Serializer.reset (receivedEvents s.trace)).2

/-- The next turn is the handler's or the loop's, not a block driven directly by the stimulus (R8, R29). -/
def State.bridgeTurn (s : State) : Bool :=
  match s.turns with
  | .request _ _ :: _ => false
  | _ => true

/-! ## The FIFO over a history of operations -/

/-- What a series of FIFO operations has done: the bytes stored, the bytes taken, the state it has led to. -/
structure PortHistory where
  stored : List Byte
  taken : List Byte
  state : State

/-- The byte an instruction offers to the FIFO, where its vector sets `wr_en` without `clr`. -/
def offeredByte : Instr → Option Byte
  | .insert _ d => some d
  | .remove true d => some d
  | _ => none

/-- Whether an instruction's vector sets `rd_en` without `clr`. -/
def requestsRemove : Instr → Bool
  | .insert r _ => r
  | .remove _ _ => true
  | _ => false

/-- The operations of the FIFO other than `CLEAR`. -/
def isFifoOp : Instr → Bool
  | .insert _ _ | .remove _ _ | .peek _ _ _ _ | .count _ _ _ _ | .isEmpty _ _ _ _ | .isFull _ _ _ _ => true
  | _ => false

/-- One more operation: its byte counts as stored when `wr_ok` answers so, and the byte it returns counts as taken
when the FIFO was not empty (a remove of an empty FIFO takes nothing, R88). -/
def PortHistory.next (h : PortHistory) (i : Instr) : PortHistory :=
  match exec i h.state with
  | .next t =>
    { stored := h.stored ++ (if t.out.wrOk = some true then (offeredByte i).toList else [])
      taken := h.taken ++ (if requestsRemove i && !h.state.fifo.isEmpty then t.out.rdData.toList else [])
      state := t }
  | _ => h

/-! ## What a step leaves alone -/

/-- The indices, the count and every byte of the storage are unchanged. -/
abbrev KeepsFifo (s t : State) : Prop :=
  t.fifo.head = s.fifo.head ∧ t.fifo.tail = s.fifo.tail ∧ t.fifo.count = s.fifo.count ∧
    ∀ a, Mem.read t.fifo.mem a = Mem.read s.fifo.mem a

/-- Every parser register is unchanged. -/
abbrev KeepsParser (s t : State) : Prop := t.parser = s.parser

/-- Both serializer registers are unchanged. -/
abbrev KeepsSerializer (s t : State) : Prop := t.ser = s.ser

/-- The mode, the phase and both timers are unchanged. -/
abbrev KeepsController (s t : State) : Prop :=
  t.bridgeMode = s.bridgeMode ∧ t.phase = s.phase ∧ t.timerA = s.timerA ∧ t.timerB = s.timerB

/-- The parameters, the mode input and the turns to come are unchanged. -/
abbrev KeepsPlatform (s t : State) : Prop :=
  t.config = s.config ∧ t.modeIn = s.modeIn ∧ t.turns = s.turns

/-- Every input and the mark that the run loop was entered are unchanged. -/
abbrev KeepsInputs (s t : State) : Prop :=
  KeepsPlatform s t ∧ t.host = s.host ∧ t.gaps = s.gaps ∧ t.entered = s.entered

/-- The FIFO after `k` removes and the arrivals that came meanwhile: `tail` moves by `k`, the accepted bytes stand
behind what is left of the contents, and only the cells they went to are written (R52, R88, R95). -/
abbrev Receives (k : Nat) (s t : State) : Prop :=
  ∃ more : List Byte, acceptedBytes t.trace = acceptedBytes s.trace ++ more ∧
    t.fifo.contents s.config = (s.fifo.contents s.config).drop k ++ more ∧
    t.fifo.tail = (s.fifo.tail + k) % s.config.n ∧ t.fifo.head = (s.fifo.head + more.length) % s.config.n ∧
    t.fifo.count + k = s.fifo.count + more.length ∧
    ∀ a, (∀ j < more.length, a ≠ (s.fifo.head + j) % s.config.n) →
      Mem.read t.fifo.mem a = Mem.read s.fifo.mem a

/-! ## The spec's algorithm, line by line -/

/-- The phase action of each phase (R72, R143). -/
def phaseAction : Phase → Instr
  | .pump1 => .stepPump1
  | .cfg => .stepCfg
  | .drainA => .stepDrainA
  | .drainB => .stepDrainB
  | .pump2 => .stepPump2

/-- The position the next byte below `0xF8` goes to, once the overrun guard has run (R103, R107). -/
def Parser.position (p : Parser) : BitVec 2 := if p.idx = 3#2 then 0#2 else p.idx

/-- The algorithm of R101 as its pseudocode stands, one test after the other. -/
def feedAlgorithm (c : Config) (p : Parser) (b : Byte) : FeedResult :=
  if b ≥ 0xF8#8 then ⟨p, some ⟨0, 15, b, 0, 0⟩, []⟩
  else
    let raised := if p.idx = 3#2 then [Condition.parserOverrun] else []
    let p := { p with idx := p.position }
    if b < 0x80#8 ∧ p.idx = 0#2 ∧ p.sysex = false then ⟨p, none, raised ++ [.protocolViolation b]⟩
    else
      let p :=
        if b = 0xF0#8 then { p with sysex := true }
        else if b = 0xF7#8 then { p with sysex := false }
        else if b ≥ 0x80#8 then
          { p with idx := 0, explen := c.lenRom (b >>> 4 |>.setWidth 4), openCin := (b >>> 4).setWidth 4,
                   sysex := if c.statusClearsSysex then false else p.sysex }
        else p
      let p :=
        { p with ev0 := if p.idx = 0#2 then b else p.ev0, ev1 := if p.idx = 1#2 then b else p.ev1,
                 ev2 := if p.idx = 2#2 then b else p.ev2, idx := p.idx + 1 }
      if p.sysex = true ∧ p.idx = 3#2 then ⟨{ p with idx := 0 }, some (p.frame 4 3), raised⟩
      else if b = 0xF7#8 then ⟨{ p with idx := 0 }, some (p.frame (4 + p.idx.setWidth 4) p.idx), raised⟩
      else if p.idx = p.explen then
        ⟨{ p with idx := c.carryIndex.setWidth 2 }, some (p.frame p.openCin p.idx), raised⟩
      else ⟨p, none, raised⟩

/-! ## Events -/

/-- The data bytes of an event that its Frame-Type declares valid (R66). -/
def eventBytes (c : Config) (e : Event) : List Byte := [e.d1, e.d2, e.d3].take (c.lenRom e.cin).toNat

/-- A channel message as the parser emits it: the Frame-Type is the high nibble of a status byte in `0x80..0xEF`, the
others are data bytes, and what the byte count leaves out is zero (R63, R71). -/
abbrev ChannelMessage (c : Config) (e : Event) : Prop :=
  e.cable = 0#4 ∧ 8#4 ≤ e.cin ∧ e.cin < 15#4 ∧ statusNibble e.d1 = e.cin ∧ e.d2 < 0x80#8 ∧ e.d3 < 0x80#8 ∧
    (c.lenRom e.cin = 2#2 → e.d3 = 0#8)

end Sys2Proof.Machine
end

