-- ==== Sys2Proof/Certificates/Slice0/Obligations.lean ====
section
/-! DEFINITION. The statements for the provers. Each docstring names the rules of spec/ it formalises. Wherever a
statement reads `out` or `trace`, it reads the model's own record of results, calls and conditions (log 12). -/

open Sys2Proof Sys2Proof.Machine

/-! ## Encoding -/

/-- Decoding the encoding of a well-formed instruction gives it back, for every operand value (R61 to R65, R72, R76,
R77). -/
def Obligations.DecodeOfEncode : Prop :=
  ∀ i : Instr, i.WellFormed → decode (encode i).1 (encode i).2 = .ok i

/-- A pattern that decodes is the encoding of what it decodes to, at the port it was presented on, and what it
decodes to is well-formed: no bit of a pattern is dropped and no two patterns of a port stand for one instruction. -/
def Obligations.EncodeOfDecode : Prop :=
  ∀ (p : Port) (w : Word) (i : Instr), decode p w = .ok i → encode i = (p, w) ∧ i.WellFormed

/-- Words written out from the tables of 30_encoding stand for the instructions they should: one per family. -/
def Obligations.SpelledWordsDecode : Prop :=
  decode .request 0b01010010000#32 = .ok (.insert false 0x90) ∧
  decode .request 0b00100000000#32 = .ok (.remove false 0x00) ∧
  decode .request 0b10000000000#32 = .ok (.clear false false 0x00) ∧
  decode .feedByte 0b11111110#32 = .ok (.feedRt 6) ∧
  decode .feedByte 0b10010011#32 = .ok (.feedSt9 3) ∧
  decode .feedByte 0b11110010#32 = .ok .feedSc2 ∧
  decode .serEvt 0x7F409009#32 = .ok (.ser9 0 0x90 0x40 0x7F) ∧
  decode .phase 0b011#32 = .ok .stepDrainB ∧
  decode .rst 1#32 = .ok .reset

/-- The byte classes are the ranges of R62, they are tried in its order, and each byte decodes to a row of its class. -/
def Obligations.ByteClassesAsTabled : Prop :=
  ∀ b : Byte,
    (byteClass b = .rt ↔ 0xF8#8 ≤ b) ∧
    (byteClass b = .sox ↔ b = 0xF0#8) ∧
    (byteClass b = .eox ↔ b = 0xF7#8) ∧
    (byteClass b = .status ↔ (0x80#8 ≤ b ∧ b ≤ 0xEF#8) ∨ (0xF1#8 ≤ b ∧ b ≤ 0xF6#8)) ∧
    (byteClass b = .data ↔ b < 0x80#8) ∧
    (decode .feedByte (b.setWidth 32)).isOk = true

/-- The length ROM and its use as the expected length of a status byte's message (R66, R63). -/
def Obligations.LengthRomAsTabled : Prop :=
  (∀ x ∈ [(0#4, 0#2), (1, 0), (2, 2), (3, 3), (4, 3), (5, 1), (6, 2), (7, 3), (8, 3), (9, 3), (10, 3), (11, 3),
      (12, 2), (13, 2), (14, 3), (15, 1)], ∀ c : Config, c.lenRom x.1 = x.2) ∧
  ∀ (c : Config) (p : Parser) (b : Byte), byteClass b = .status →
    (feed c p b).parser.explen = c.lenRom ((b >>> 4).setWidth 4)

/-! ## The step -/

/-- A step runs the instruction that its turn fetches, in the state with the turn taken: the handler's turn an `INSERT`
of the received byte, the loop's turn the action of its phase, a request the instruction its pattern decodes to;
with no turn listed an arrival or the loop, as the free value says. The patterns that are no instruction are an idle
request vector and the reset input at 0, and they change nothing; that, and that a port sees only its own low lines
of a word, the model deduces from R69, R76 and R77 (log 14). The list of turns is the model's choice (log 9), the
entry mark too (log 17), and that a request stands at any port but the phase register (log 29). -/
def Obligations.StepRunsFetchedInstruction : Prop :=
  (∀ (s : State) (b : Byte) (rest : List Turn), s.turns = .irq b :: rest →
    step s = exec (.insert false b) { s with turns := rest, entered := true }) ∧
  (∀ (s : State) (rest : List Turn), s.turns = .loop :: rest →
    step s = exec (phaseAction s.phase) { s with turns := rest }) ∧
  (∀ (s : State) (p : Inlet) (w : Word) (rest : List Turn) (i : Instr), s.turns = .request p w :: rest →
    decode p.port (p.port.lines w) = .ok i → step s = exec i { s with turns := rest }) ∧
  (∀ (s : State) (p : Inlet) (w : Word) (rest : List Turn) (r : Reject), s.turns = .request p w :: rest →
    decode p.port (p.port.lines w) = .error r → (p = .request ∧ r = .noRequest ∨ p = .rst ∧ r = .resetNotAsserted) ∧
      (s.bridgeMode = true → step s = .next { s with turns := rest, out := {} })) ∧
  (∀ s : State, s.turns = [] →
    step s = match Config.arrival s.draws with
      | some b => exec (.insert false b) { s with draws := s.draws + 1, entered := true }
      | none => exec (phaseAction s.phase) { s with draws := s.draws + 1 })

/-- A word of the opcode table placed for the next fetch is the instruction the next step runs, in the state as it was
but for the phase where the word is a phase code. Where a word is placed is the model's choice
(log 15, log 16). -/
def Obligations.PlacedWordRunsNext : Prop :=
  ∀ (s : State) (nbits w : Nat) (i : Instr), decodeTableWord nbits w = some i →
    ∃ u, step (s.withFetchWord nbits w) = exec i u ∧
      (u = s ∨ ∃ p, i = phaseAction p ∧ u = { s with phase := p })

/-! ## Reset and mode -/

/-- What `State.reset` holds: the registers have the values of R31, whose numbers are the spec's decision D3, and the
flags those of R18; `bridge_mode` is the input `mode_in` (R192). The model's choices: that the parameters stand in State
and are there the value column of R5 (log 1), that `mode_in` is 1 (log 18), and the value of `last_status` (log 5), of
which nothing is said here. -/
def Obligations.ResetStateValues : Prop :=
  let s := State.reset
  s.config = .hw ∧ s.fifo.head = 0 ∧ s.fifo.tail = 0 ∧ s.fifo.count = 0 ∧
  s.parser.ev0 = 0 ∧ s.parser.ev1 = 0 ∧ s.parser.ev2 = 0 ∧ s.parser.idx = 0 ∧ s.parser.sysex = false ∧
  s.parser.explen = 0 ∧ s.parser.openCin = 0 ∧ s.ser.lastValid = false ∧ s.bridgeMode = s.modeIn ∧
  s.phase = .pump1 ∧ s.timerA = 0 ∧ s.timerB = 0 ∧
  s.fifo.isEmpty = true ∧ s.fifo.isFull s.config = false ∧ s.actA = false ∧ s.actB = false

/-- `RESET` completes in every state and mode: every register takes its value of R31, the FIFO is cleared, the mode is
latched from `mode_in` (R191). The numbers are the spec's decision D3. The model's choices are these: `buf` and
`last_status` are kept, where R194 allows any value (log 6); the parameters, the turns, the host's answers and the
arrivals, which are inputs, are kept (log 23); and the entry mark is cleared, so `CLEAR` is legal again (log 17). -/
def Obligations.ResetInitialises : Prop :=
  ∀ s : State, ∃ t, exec .reset s = .next t ∧
    t.fifo.head = 0 ∧ t.fifo.tail = 0 ∧ t.fifo.count = 0 ∧
    (∀ a, Mem.read t.fifo.mem a = Mem.read s.fifo.mem a) ∧
    t.parser = Parser.reset ∧ t.ser.lastValid = false ∧ t.ser.lastStatus = s.ser.lastStatus ∧
    t.bridgeMode = s.modeIn ∧ t.phase = .pump1 ∧ t.timerA = 0 ∧ t.timerB = 0 ∧
    KeepsPlatform s t ∧ t.host = s.host ∧ t.gaps = s.gaps ∧ t.entered = false

/-- No instruction but `RESET` writes the mode, and none writes the input it is latched from (R24, R192) or a
parameter of the core (R5, R27). That the parameters stand in State is the model's choice (log 1). -/
def Obligations.ModeLatchedByResetOnly : Prop :=
  ∀ (i : Instr) (s t : State), exec i s = .next t →
    t.config = s.config ∧ t.modeIn = s.modeIn ∧ (i ≠ .reset → t.bridgeMode = s.bridgeMode)

/-- With `bridge_mode` 0 nothing has a meaning but `RESET` (R24, U5). The refusal is the spec's decision D22 (log 18). -/
def Obligations.ExcludedModeRefuses : Prop :=
  ∀ (i : Instr) (s : State), s.bridgeMode = false → i ≠ .reset → exec i s = .refused .excludedMode

/-! ## async_fifo_spsc -/

/-- `INSERT` with room (R87): the byte goes to `buf[head]`, behind the contents; every other cell and every other
register is left alone. -/
def Obligations.InsertStoresByte : Prop :=
  ∀ (s : State) (b : Byte), s.bridgeMode = true → s.fifo.Inv s.config → s.fifo.count ≠ s.config.n →
    ∃ t, exec (.insert false b) s = .next t ∧
      t.fifo.contents s.config = s.fifo.contents s.config ++ [b] ∧
      Mem.read t.fifo.mem s.fifo.head = some b ∧
      (∀ a, a ≠ s.fifo.head → Mem.read t.fifo.mem a = Mem.read s.fifo.mem a) ∧
      t.fifo.head = (s.fifo.head + 1) % s.config.n ∧ t.fifo.tail = s.fifo.tail ∧
      t.fifo.count = s.fifo.count + 1 ∧ t.out.wrOk = some true ∧ t.trace = s.trace ++ [.insert b true] ∧
      KeepsParser s t ∧ KeepsSerializer s t ∧ KeepsController s t ∧ KeepsInputs s t

/-- `INSERT` on a full FIFO (R167): the result is false, the byte is lost, nothing else changes. -/
def Obligations.InsertOnFullDrops : Prop :=
  ∀ (s : State) (b : Byte), s.bridgeMode = true → s.fifo.count = s.config.n →
    ∃ t, exec (.insert false b) s = .next t ∧ t.out.wrOk = some false ∧
      t.trace = s.trace ++ [.insert b false, .raised (.overflow b)] ∧
      KeepsFifo s t ∧ KeepsParser s t ∧ KeepsSerializer s t ∧ KeepsController s t ∧ KeepsInputs s t

/-- `REMOVE` of a non-empty FIFO (R88): it returns the oldest byte and only `tail` and `count` move. -/
def Obligations.RemoveTakesOldest : Prop :=
  ∀ (s : State) (d : Byte), s.bridgeMode = true → s.fifo.Inv s.config → s.fifo.count ≠ 0 →
    ∃ t b, exec (.remove false d) s = .next t ∧ t.out.rdData = some b ∧
      s.fifo.contents s.config = b :: t.fifo.contents s.config ∧
      t.fifo.tail = (s.fifo.tail + 1) % s.config.n ∧ t.fifo.count + 1 = s.fifo.count ∧
      t.fifo.head = s.fifo.head ∧ (∀ a, Mem.read t.fifo.mem a = Mem.read s.fifo.mem a) ∧
      t.trace = s.trace ∧ KeepsParser s t ∧ KeepsSerializer s t ∧ KeepsController s t ∧ KeepsInputs s t

/-- `REMOVE` and `PEEK` of an empty FIFO (R171): `Underflow`, no state changes, some byte is returned and nothing is
said of which. That nothing changes and `Underflow` is raised is the spec's decision D9, and that the run goes on
with a free byte the model's choice (log 7). For `PEEK`: that an operation requested in the vector under which the
output is read is not performed is the model's choice (log 30). -/
def Obligations.EmptyReadUnderflows : Prop :=
  ∀ (s : State) (c w r : Bool) (d : Byte), s.bridgeMode = true → s.fifo.count = 0 →
    ∀ i ∈ [Instr.remove false d, Instr.peek c w r d], ∃ t b, exec i s = .next t ∧ t.out.rdData = some b ∧
      t.trace = s.trace ++ [.raised .underflow] ∧
      KeepsFifo s t ∧ KeepsParser s t ∧ KeepsSerializer s t ∧ KeepsController s t ∧ KeepsInputs s t

/-- `PEEK` of a non-empty FIFO (R89): it returns the oldest byte and changes nothing. That an operation requested in the
vector under which the output is read is not performed is the model's choice (log 30). -/
def Obligations.PeekReadsOldest : Prop :=
  ∀ (s : State) (c w r : Bool) (d : Byte), s.bridgeMode = true → s.fifo.Inv s.config → s.fifo.count ≠ 0 →
    ∃ t, exec (.peek c w r d) s = .next t ∧ t.out.rdData = (s.fifo.contents s.config).head? ∧
      t.out.rdData.isSome = true ∧ t.trace = s.trace ∧
      KeepsFifo s t ∧ KeepsParser s t ∧ KeepsSerializer s t ∧ KeepsController s t ∧ KeepsInputs s t

/-- `COUNT`, `ISEMPTY`, `ISFULL` (R90, R91, R93): the number of bytes held, whether it is 0, whether it is `N`; no state
changes and no condition is raised. That an operation requested in the vector under which the output is read is not
performed is the model's choice (log 30). -/
def Obligations.QueriesAnswer : Prop :=
  ∀ (s : State) (c w r : Bool) (d : Byte), s.bridgeMode = true →
    (∃ t, exec (.count c w r d) s = .next t ∧ t.out.count = some (s.fifo.contents s.config).length ∧ t.trace = s.trace ∧
      KeepsFifo s t ∧ KeepsParser s t ∧ KeepsSerializer s t ∧ KeepsController s t ∧ KeepsInputs s t) ∧
    (∃ t, exec (.isEmpty c w r d) s = .next t ∧ t.out.empty = some (decide (s.fifo.contents s.config = [])) ∧
      t.trace = s.trace ∧
      KeepsFifo s t ∧ KeepsParser s t ∧ KeepsSerializer s t ∧ KeepsController s t ∧ KeepsInputs s t) ∧
    (∃ t, exec (.isFull c w r d) s = .next t ∧
      t.out.full = some (decide ((s.fifo.contents s.config).length = s.config.n)) ∧ t.trace = s.trace ∧
      KeepsFifo s t ∧ KeepsParser s t ∧ KeepsSerializer s t ∧ KeepsController s t ∧ KeepsInputs s t)

/-- `CLEAR` while neither agent has been active (R92): the indices and the count become 0, `buf` is not written. That
this time ends with the first turn of the loop or of the handler is the model's reading (log 17). The zeros are the
spec's decision D3. -/
def Obligations.ClearEmptiesBeforeEntry : Prop :=
  ∀ (s : State) (w r : Bool) (d : Byte), s.bridgeMode = true → s.entered = false →
    ∃ t, exec (.clear w r d) s = .next t ∧ t.fifo.head = 0 ∧ t.fifo.tail = 0 ∧ t.fifo.count = 0 ∧
      (∀ a, Mem.read t.fifo.mem a = Mem.read s.fifo.mem a) ∧ t.trace = s.trace ∧
      KeepsParser s t ∧ KeepsSerializer s t ∧ KeepsController s t ∧ KeepsInputs s t

/-- `CLEAR` after that has no meaning and is refused (R92, R200, U4; log 17). -/
def Obligations.ClearRefusedAfterEntry : Prop :=
  ∀ (s : State) (w r : Bool) (d : Byte), s.bridgeMode = true → s.entered = true →
    exec (.clear w r d) s = .refused .clearAfterEntry

/-- `INSERT` and `REMOVE` presented together (R53), under either row's name: full, the insert is rejected and the remove
succeeds; empty, the insert is accepted and the remove is the empty case; otherwise both take effect and the count is
unchanged. How the pair is resolved is the spec's decision D5, the empty case its decision D9. -/
def Obligations.SimultaneousPair : Prop :=
  ∀ (s : State) (d : Byte), s.bridgeMode = true → s.fifo.Inv s.config →
    ∀ i ∈ [Instr.insert true d, Instr.remove true d], ∃ t b, exec i s = .next t ∧ t.out.rdData = some b ∧
      KeepsParser s t ∧ KeepsSerializer s t ∧ KeepsController s t ∧ KeepsInputs s t ∧
      (∀ a, a ≠ s.fifo.head → Mem.read t.fifo.mem a = Mem.read s.fifo.mem a) ∧
      (s.fifo.count = s.config.n → t.out.wrOk = some false ∧ s.fifo.contents s.config = b :: t.fifo.contents s.config ∧
        t.trace = s.trace ++ [.insert d false, .raised (.overflow d)] ∧
        (∀ a, Mem.read t.fifo.mem a = Mem.read s.fifo.mem a)) ∧
      (s.fifo.count = 0 → t.out.wrOk = some true ∧ t.fifo.contents s.config = [d] ∧ t.fifo.tail = s.fifo.tail ∧
        t.trace = s.trace ++ [.raised .underflow, .insert d true]) ∧
      (s.fifo.count ≠ s.config.n → s.fifo.count ≠ 0 →
        t.out.wrOk = some true ∧ s.fifo.contents s.config ++ [d] = b :: t.fifo.contents s.config ∧
        t.fifo.count = s.fifo.count ∧ t.trace = s.trace ++ [.insert d true])

/-- First in, first out (R49), over any series of FIFO operations: what was held and then stored is what was taken and
is then held, in one order, each byte once; a rejected byte is nowhere. R49 is marked by the spec as its own
inference. That a query in the series performs no operation of its vector is the model's choice (log 30). -/
def Obligations.FirstInFirstOut : Prop :=
  ∀ (is : List Instr) (s : State), s.bridgeMode = true → s.fifo.Inv s.config → (∀ i ∈ is, isFifoOp i = true) →
    let h := is.foldl PortHistory.next ⟨[], [], s⟩
    s.fifo.contents s.config ++ h.stored = h.taken ++ h.state.fifo.contents s.config

/-- The FIFO invariant holds after reset and every step keeps it (R17). R17 is marked by the spec as its own inference.
-/
def Obligations.FifoInvariantKept : Prop :=
  State.reset.fifo.Inv State.reset.config ∧
    ∀ s t : State, s.fifo.Inv s.config → step s = .next t → t.fifo.Inv t.config

/-- Both timers fit their width `TW` after reset and every step keeps them so (R26, R5). `TW` and the reload value are
the spec's decision D20. -/
def Obligations.TimersFitKept : Prop :=
  State.reset.TimersFit ∧ ∀ s t : State, s.TimersFit → step s = .next t → t.TimersFit

/-- Every step keeps the storage in its canonical form: addresses strictly rising and inside `0..N-1` (R41). The form of
the list is the model's choice (log 4). -/
def Obligations.StorageStaysCanonical : Prop :=
  ∀ s t : State, s.fifo.Inv s.config → Mem.wf s.config.n s.fifo.mem = true → step s = .next t →
    Mem.wf t.config.n t.fifo.mem = true

/-- No operation observes a cell that was not written (R14): every step keeps the live window written, and with the
window written the oldest byte is one that was written. Which cells count as written is the model's record (log 4).
-/
def Obligations.ReadsFindWrittenCells : Prop :=
  (∀ s t : State, s.fifo.Inv s.config → s.fifo.Written s.config → step s = .next t → t.fifo.Written t.config) ∧
  (∀ s : State, s.fifo.Inv s.config → s.fifo.Written s.config → s.fifo.count ≠ 0 →
    Mem.read s.fifo.mem s.fifo.tail = some s.fifo.front ∧ (s.fifo.contents s.config).head? = some s.fifo.front)

/-- The state after reset meets every invariant stated here. The reset values are the spec's decision D3. -/
def Obligations.ResetMeetsInvariants : Prop :=
  State.reset.Inv ∧ State.reset.DirectionA ∧ State.reset.DirectionB

/-! ## midi_byte_parser -/

/-- `feed`, given class by class, is the algorithm of R101 as its pseudocode stands, for every choice of the parameters.
The pseudocode holds the spec's decisions D7, D8, D10, D11, D12, D27 and D28 beside the source's steps. -/
def Obligations.FeedIsTheAlgorithm : Prop :=
  ∀ (c : Config) (p : Parser) (b : Byte), feed c p b = feedAlgorithm c p b

/-- Every row of format BYTE8 completes and is `feed` of its byte: the new parser state is kept, the event is the
result, the conditions are reported, everything else is left alone (R101). The rows are FEED.RT, FEED.SOX, FEED.EOX,
FEED.ST8 to FEED.STE, FEED.SC1 to FEED.SC6 and FEED.DATA. -/
def Obligations.FeedRowsRunFeed : Prop :=
  ∀ (s : State) (b : Byte) (i : Instr), s.bridgeMode = true → decode .feedByte (b.setWidth 32) = .ok i →
    ∃ t, exec i s = .next t ∧ t.parser = (feed s.config s.parser b).parser ∧
      t.out.evt = some (feed s.config s.parser b).event ∧
      t.trace = s.trace ++ (feed s.config s.parser b).raised.map .raised ∧
      KeepsFifo s t ∧ KeepsSerializer s t ∧ KeepsController s t ∧ KeepsInputs s t

/-- `FEED.RT` (R102): the event `(15; b 00 00)` and no parser register changed. That `idx` is unchanged is the spec's
decision D12, which settles conflict C1. -/
def Obligations.RealTimeLeavesParser : Prop :=
  ∀ (s : State) (rt : BitVec 3), s.bridgeMode = true →
    ∃ t, exec (.feedRt rt) s = .next t ∧ KeepsParser s t ∧
      t.out.evt = some (some ⟨0, 15, 0xF8 + rt.setWidth 8, 0, 0⟩) ∧ t.trace = s.trace ∧
      KeepsFifo s t ∧ KeepsSerializer s t ∧ KeepsController s t ∧ KeepsInputs s t

/-- `FEED.SOX` (R104): the flag is set, `0xF0` goes to the current position, step 7a fires at the third byte, else step
7c against the stale expected length, else the byte waits. The position is the spec's decisions D11 and D28, step 7c
here its decision D27, and `idx` 1 after it its decision D7. -/
def Obligations.SysexStartStores : Prop :=
  ∀ s : State, s.bridgeMode = true → let k := s.parser.position
    ∃ t, exec .feedSox s = .next t ∧ t.parser.sysex = true ∧
      t.trace = s.trace ++ (if s.parser.idx = 3 then [.raised .parserOverrun] else []) ∧
      t.parser.ev0 = (if k = 0 then 0xF0 else s.parser.ev0) ∧
      t.parser.ev1 = (if k = 1 then 0xF0 else s.parser.ev1) ∧
      t.parser.ev2 = (if k = 2 then 0xF0 else s.parser.ev2) ∧
      t.parser.explen = s.parser.explen ∧ t.parser.openCin = s.parser.openCin ∧
      (k = 2 → t.out.evt = some (some ⟨0, 4, s.parser.ev0, s.parser.ev1, 0xF0⟩) ∧ t.parser.idx = 0) ∧
      (k ≠ 2 → k + 1 = s.parser.explen →
        t.out.evt = some (some (t.parser.frame s.parser.openCin (k + 1))) ∧
          t.parser.idx = s.config.carryIndex.setWidth 2) ∧
      (k ≠ 2 → k + 1 ≠ s.parser.explen → t.out.evt = some none ∧ t.parser.idx = k + 1)

/-- `FEED.EOX` (R105, R111): whatever was open, the buffered bytes and `0xF7` are emitted as Frame-Type 5, 6 or 7 for 1,
2 or 3 bytes, and the parser is Idle outside System Exclusive. That three buffered bytes are abandoned is the spec's
decision D11. -/
def Obligations.SysexEndAlwaysEmits : Prop :=
  ∀ s : State, s.bridgeMode = true → let k := s.parser.position
    ∃ t e, exec .feedEox s = .next t ∧ t.out.evt = some (some e) ∧
      t.parser.sysex = false ∧ t.parser.idx = 0 ∧
      t.parser.ev0 = (if k = 0 then 0xF7 else s.parser.ev0) ∧
      t.parser.ev1 = (if k = 1 then 0xF7 else s.parser.ev1) ∧
      t.parser.ev2 = (if k = 2 then 0xF7 else s.parser.ev2) ∧
      t.trace = s.trace ++ (if s.parser.idx = 3 then [.raised .parserOverrun] else []) ∧
      t.parser.explen = s.parser.explen ∧ t.parser.openCin = s.parser.openCin ∧
      (k = 0 → e = ⟨0, 5, 0xF7, 0, 0⟩) ∧
      (k = 1 → e = ⟨0, 6, s.parser.ev0, 0xF7, 0⟩) ∧
      (k = 2 → e = ⟨0, 7, s.parser.ev0, s.parser.ev1, 0xF7⟩)

/-- `FEED.ST8` to `FEED.STE` (R106): a new message is opened at once, whatever was buffered, and nothing is emitted. That
the flag is kept is the spec's decision D8, the register of the nibble its decision D10. -/
def Obligations.ChannelStatusOpens : Prop :=
  ∀ (s : State) (ch : Nibble), s.bridgeMode = true →
    ∀ x ∈ [(Instr.feedSt8 ch, 8#4, 3#2), (.feedSt9 ch, 9, 3), (.feedStA ch, 10, 3), (.feedStB ch, 11, 3),
        (.feedStC ch, 12, 2), (.feedStD ch, 13, 2), (.feedStE ch, 14, 3)],
      ∃ t, exec x.1 s = .next t ∧ t.out.evt = some none ∧
        t.trace = s.trace ++ (if s.parser.idx = 3 then [.raised .parserOverrun] else []) ∧
        t.parser.ev0 = x.2.1 ++ ch ∧ t.parser.ev1 = s.parser.ev1 ∧ t.parser.ev2 = s.parser.ev2 ∧
        t.parser.idx = 1 ∧ t.parser.explen = x.2.2 ∧ t.parser.openCin = x.2.1 ∧
        t.parser.sysex = (s.parser.sysex && !s.config.statusClearsSysex)

/-- `FEED.SC1` to `FEED.SC6` (R106): each is a message of one byte, emitted at once as `(15; b 00 00)`. `idx` 1
afterwards is the spec's decision D7, the flag kept its decision D8. -/
def Obligations.SystemCommonEmitsAtOnce : Prop :=
  ∀ s : State, s.bridgeMode = true →
    ∀ x ∈ [(Instr.feedSc1, 0xF1#8), (.feedSc2, 0xF2), (.feedSc3, 0xF3), (.feedSc4, 0xF4), (.feedSc5, 0xF5),
        (.feedSc6, 0xF6)],
      ∃ t, exec x.1 s = .next t ∧ t.out.evt = some (some ⟨0, 15, x.2, 0, 0⟩) ∧
        t.trace = s.trace ++ (if s.parser.idx = 3 then [.raised .parserOverrun] else []) ∧
        t.parser.ev0 = x.2 ∧ t.parser.ev1 = s.parser.ev1 ∧ t.parser.ev2 = s.parser.ev2 ∧
        t.parser.idx = s.config.carryIndex.setWidth 2 ∧ t.parser.explen = 1 ∧ t.parser.openCin = 15 ∧
        t.parser.sysex = (s.parser.sysex && !s.config.statusClearsSysex)

/-- `FEED.DATA` with no message open (R108): silently discarded; only the guard may have moved `idx`. That three buffered
bytes are abandoned first is the spec's decision D11. -/
def Obligations.StrayDataDiscarded : Prop :=
  ∀ (s : State) (d : BitVec 7), s.bridgeMode = true → s.parser.position = 0 → s.parser.sysex = false →
    ∃ t, exec (.feedData d) s = .next t ∧ t.out.evt = some none ∧ t.parser = { s.parser with idx := 0 } ∧
      t.trace = s.trace ++
        (if s.parser.idx = 3 then [.raised .parserOverrun] else []) ++ [.raised (.protocolViolation (d.setWidth 8))]

/-- `FEED.DATA` with a message open (R107, R110, R112): stored at the current position; step 7a fires on the third byte
of a System Exclusive packet, else step 7c when the expected length is reached, else the byte waits. `idx` 1 after
step 7c is the spec's decision D7, step 7c inside System Exclusive its decision D27, the position its decision D11.
-/
def Obligations.OpenDataStored : Prop :=
  ∀ (s : State) (d : BitVec 7), s.bridgeMode = true → let k := s.parser.position
    let b : Byte := d.setWidth 8
    (k ≠ 0 ∨ s.parser.sysex = true) →
    ∃ t, exec (.feedData d) s = .next t ∧
      t.trace = s.trace ++ (if s.parser.idx = 3 then [.raised .parserOverrun] else []) ∧
      t.parser.ev0 = (if k = 0 then b else s.parser.ev0) ∧
      t.parser.ev1 = (if k = 1 then b else s.parser.ev1) ∧
      t.parser.ev2 = (if k = 2 then b else s.parser.ev2) ∧
      t.parser.sysex = s.parser.sysex ∧ t.parser.explen = s.parser.explen ∧ t.parser.openCin = s.parser.openCin ∧
      (if s.parser.sysex = true ∧ k = 2 then
        t.out.evt = some (some ⟨0, 4, s.parser.ev0, s.parser.ev1, b⟩) ∧ t.parser.idx = 0
      else if k + 1 = s.parser.explen then
        t.out.evt = some (some (t.parser.frame s.parser.openCin (k + 1))) ∧
          t.parser.idx = s.config.carryIndex.setWidth 2
      else t.out.evt = some none ∧ t.parser.idx = k + 1)

/-- The overrun guard (R103): a byte below `0xF8` fed with three bytes buffered is handled as from `idx == 0`, after
`ParserOverrun`. The guard is the spec's own decision (D11; log 19). -/
def Obligations.OverrunRestartsFromIdle : Prop :=
  ∀ (c : Config) (p : Parser) (b : Byte), p.idx = 3 → b < 0xF8#8 →
    (feed c p b).parser = (feed c { p with idx := 0 } b).parser ∧
    (feed c p b).event = (feed c { p with idx := 0 } b).event ∧
    (feed c p b).raised = .parserOverrun :: (feed c { p with idx := 0 } b).raised

/-- The parser invariant (R23): it holds after reset, `feed` keeps it for every choice of the parameters, and so does
every step of the machine; and once a step 4 has run, `feed` keeps the opening nibble in 8..15. R23 is marked by the
spec as its own inference. -/
def Obligations.ParserInvariantKept : Prop :=
  (∀ c : Config, Parser.reset.Inv c) ∧
  (∀ (c : Config) (p : Parser) (b : Byte), p.Inv c → (feed c p b).parser.Inv c) ∧
  (∀ (c : Config) (p : Parser) (b : Byte), byteClass b = .status ∨ 8#4 ≤ p.openCin →
    8#4 ≤ (feed c p b).parser.openCin) ∧
  ∀ s t : State, s.parser.Inv s.config → step s = .next t → t.parser.Inv t.config

/-- What `feed` raises (R178 item 3): at most one condition, except that a data byte fed with `idx == 3` and `sysex == 0`
raises `ParserOverrun` and then `ProtocolViolation`. `ParserOverrun` is the spec's decision D11. -/
def Obligations.FeedRaisesAtMostOne : Prop :=
  ∀ (c : Config) (p : Parser) (b : Byte),
    (feed c p b).raised =
      (if p.idx = 3 ∧ b < 0xF8#8 then [.parserOverrun] else []) ++
        (if p.position = 0 ∧ p.sysex = false ∧ b < 0x80#8 then [.protocolViolation b] else [])

/-- The parser registers are written only through `feed`, except by reset (R29). -/
def Obligations.ParserWrittenByFeedOnly : Prop :=
  ∀ (i : Instr) (s t : State), exec i s = .next t → i ≠ .reset →
    t.parser = s.parser ∨ ∃ b, t.parser = (feed s.config s.parser b).parser

/-- The form of every event the parser emits (R71): tag 0, a Frame-Type in 4..15, and exactly as many leading data fields
from the buffer as the Frame-Type declares, the rest zero. R71 is marked by the spec as its own inference. -/
def Obligations.EmittedEventForm : Prop :=
  ∀ (c : Config) (p : Parser) (b : Byte) (e : Event), p.Inv c → (feed c p b).event = some e →
    let q := (feed c p b).parser
    e.cable = 0 ∧ 4#4 ≤ e.cin ∧ 1#2 ≤ c.lenRom e.cin ∧
    (b < 0xF8#8 → e.d1 = q.ev0 ∧ (2#2 ≤ c.lenRom e.cin → e.d2 = q.ev1) ∧ (3#2 ≤ c.lenRom e.cin → e.d3 = q.ev2)) ∧
    (0xF8#8 ≤ b → e.cin = 15 ∧ e.d1 = b) ∧
    (c.lenRom e.cin < 2#2 → e.d2 = 0) ∧ (c.lenRom e.cin < 3#2 → e.d3 = 0)

/-- Running status on input (R202): after a channel status byte outside System Exclusive, every further message's data
bytes are one more event under that status with `CARRY_INDEX == 1`, and with 0 only the first event appears. The
default 1 is the spec's decision D7. -/
def Obligations.RunningStatusOnInput : Prop :=
  ∀ (c : Config) (p : Parser) (h ch : Nibble), p.sysex = false → 8#4 ≤ h → h < 15#4 →
    (∀ ds : List (Byte × Byte), c.lenRom h = 3#2 → (∀ d ∈ ds, d.1 < 0x80#8 ∧ d.2 < 0x80#8) →
      (feedAll c p ((h ++ ch) :: ds.flatMap fun d => [d.1, d.2])).2 =
        (if c.carryIndex = 1 then ds else ds.take 1).map (fun d => ⟨0, h, h ++ ch, d.1, d.2⟩)) ∧
    (∀ ds : List Byte, c.lenRom h = 2#2 → (∀ d ∈ ds, d < 0x80#8) →
      (feedAll c p ((h ++ ch) :: ds)).2 =
        (if c.carryIndex = 1 then ds else ds.take 1).map (fun d => ⟨0, h, h ++ ch, d, 0⟩))

/-- A System Exclusive message that starts from Idle, with the last status of expected length 3 or none yet (R203,
R204), is framed whole: the events' valid bytes are the stream, all but the last are Frame-Type 4, the last is 5, 6
or 7, and the parser is Idle again. Data bytes only: real-time bytes inside (R102) and the hazards of a last
expected length 1 or 2 (R204) are not spoken of. -/
def Obligations.SysexFramedWhole : Prop :=
  ∀ (c : Config) (p : Parser) (ds : List Byte), p.idx = 0 → (p.explen = 0 ∨ p.explen = 3) →
    (∀ d ∈ ds, d < 0x80#8) →
    let r := feedAll c p (0xF0 :: ds ++ [0xF7])
    r.2.flatMap (eventBytes c) = 0xF0 :: ds ++ [0xF7] ∧ (∀ e ∈ r.2.dropLast, e.cin = 4) ∧
    (∃ e, r.2.getLast? = some e ∧ (e.cin = 5 ∨ e.cin = 6 ∨ e.cin = 7)) ∧
    r.1.idx = 0 ∧ r.1.sysex = false

/-- A status byte inside System Exclusive (R115): the buffered bytes are dropped without a terminator; a three-byte
message that follows is Frame-Type 4 with the flag kept (the default) and its own Frame-Type with the flag cleared.
The parameter and its default are the spec's decision D8. -/
def Obligations.StatusInsideSysex : Prop :=
  ∀ (c : Config) (p : Parser) (h ch : Nibble) (x y : Byte), p.sysex = true → 8#4 ≤ h → h < 15#4 →
    c.lenRom h = 3#2 → x < 0x80#8 → y < 0x80#8 →
    let r := feedAll c p [h ++ ch, x, y]
    r.2 = [⟨0, if c.statusClearsSysex then h else 4, h ++ ch, x, y⟩] ∧ r.1.sysex = !c.statusClearsSysex

/-! ## midi_frame_serializer -/

/-- `SER.0`, `SER.1`, `SER.4` to `SER.7`, `SER.15` (R131, R133, R135): `d1` is never suppressed; the reserved types
leave the last status alone, the others replace it. That the reserved types, whose byte count is 0, emit `d1` and leave
the state alone is the spec's decision D14, which settles conflict C5. -/
def Obligations.NeverCompressedTypes : Prop :=
  ∀ (s : State) (cable : Nibble) (d1 d2 d3 : Byte), s.bridgeMode = true →
    ∀ x ∈ [(Instr.ser0 cable d1 d2 d3, [d1], s.ser), (.ser1 cable d1 d2 d3, [d1], s.ser),
        (.ser4 cable d1 d2 d3, [d1, d2, d3], ⟨true, d1⟩), (.ser5 cable d1 d2 d3, [d1], ⟨true, d1⟩),
        (.ser6 cable d1 d2 d3, [d1, d2], ⟨true, d1⟩), (.ser7 cable d1 d2 d3, [d1, d2, d3], ⟨true, d1⟩),
        (.ser15 cable d1 d2 d3, [d1], ⟨true, d1⟩)],
      ∃ t, exec x.1 s = .next t ∧ t.out.ser = some x.2.1 ∧ t.ser = x.2.2 ∧ t.trace = s.trace ∧
        KeepsFifo s t ∧ KeepsParser s t ∧ KeepsController s t ∧ KeepsInputs s t

/-- `SER.2`, `SER.3`, `SER.8` to `SER.14` (R132, R134): `d1` is omitted exactly when it equals the last status, and
becomes the last status either way. "Exactly when", where the source says "only if", is the spec's decision D14. -/
def Obligations.CompressibleTypes : Prop :=
  ∀ (s : State) (cable : Nibble) (d1 d2 d3 : Byte), s.bridgeMode = true →
    ∀ x ∈ [(Instr.ser2 cable d1 d2 d3, [d2]), (.ser3 cable d1 d2 d3, [d2, d3]), (.ser8 cable d1 d2 d3, [d2, d3]),
        (.ser9 cable d1 d2 d3, [d2, d3]), (.ser10 cable d1 d2 d3, [d2, d3]), (.ser11 cable d1 d2 d3, [d2, d3]),
        (.ser12 cable d1 d2 d3, [d2]), (.ser13 cable d1 d2 d3, [d2]), (.ser14 cable d1 d2 d3, [d2, d3])],
      ∃ t, exec x.1 s = .next t ∧
        t.out.ser = some (if s.ser.lastValid = true ∧ s.ser.lastStatus = d1 then x.2 else d1 :: x.2) ∧
        t.ser = ⟨true, d1⟩ ∧ t.trace = s.trace ∧
        KeepsFifo s t ∧ KeepsParser s t ∧ KeepsController s t ∧ KeepsInputs s t

/-- The number of bytes of every event (R136): never 0, never more than 3, one less when `d1` is suppressed. R136 is
marked by the spec as its own inference. -/
def Obligations.OutputLengths : Prop :=
  ∀ (c : Config) (s : Serializer) (e : Event), let n := (serialize c s e).2.length
    (e.cin ∈ [0#4, 1, 5, 15] → n = 1) ∧ (e.cin = 6 → n = 2) ∧ (e.cin ∈ [4#4, 7] → n = 3) ∧
    (e.cin ∈ [2#4, 12, 13] → n = if s.last = some e.d1 then 1 else 2) ∧
    (e.cin ∈ [3#4, 8, 9, 10, 11, 14] → n = if s.last = some e.d1 then 2 else 3) ∧ 1 ≤ n ∧ n ≤ 3

/-- The round trip (43_serializer R134, 95_test_vectors X2 for any list): channel messages serialized from the reset
state, with running status, parse from the reset state to the same messages where `CARRY_INDEX` has its default 1,
which is the spec's decision D7. -/
def Obligations.SerializeThenParse : Prop :=
  ∀ (c : Config) (es : List Event), c.carryIndex = 1 → (∀ e ∈ es, ChannelMessage c e) →
    (feedAll c Parser.reset (serializeAll c Serializer.reset es).2).2 = es

/-- The last status is written only by `serialize`, never returns to "none" except by reset, and while it is "none" the
byte beside it is ignored (R22). The valid bit beside the byte is the spec's decision D13. -/
def Obligations.LastStatusNeverForgotten : Prop :=
  (∀ (i : Instr) (s t : State), exec i s = .next t → i ≠ .reset →
    (t.ser = s.ser ∨ ∃ e, t.ser = (serialize s.config s.ser e).1) ∧ (s.ser.lastValid = true → t.ser.lastValid = true)) ∧
  ∀ (c : Config) (x y : Byte) (e : Event), (serialize c ⟨false, x⟩ e).2 = (serialize c ⟨false, y⟩ e).2 ∧
    (serialize c ⟨false, x⟩ e).1.last = (serialize c ⟨false, y⟩ e).1.last

/-! ## midi_transceiver_top -/

/-- `STEP.PUMP1` (R144): each timer counts down once and stops at 0, one pump call, the next phase is `CFG`. The tick is
the spec's decision D20, the order of the phases its decision D16, the entry mark the model's choice (log 17). -/
def Obligations.Pump1TicksTimers : Prop :=
  ∀ s : State, s.bridgeMode = true → ∃ t, exec .stepPump1 s = .next t ∧
    t.timerA = (if s.timerA ≠ 0 then s.timerA - 1 else 0) ∧ t.timerB = (if s.timerB ≠ 0 then s.timerB - 1 else 0) ∧
    t.phase = .cfg ∧ t.trace = s.trace ++ [.pump] ∧ KeepsFifo s t ∧ KeepsParser s t ∧ KeepsSerializer s t ∧
    t.bridgeMode = s.bridgeMode ∧ KeepsPlatform s t ∧ t.host = s.host ∧ t.gaps = s.gaps ∧ t.entered = true

/-- `STEP.CFG` (R145): the host is asked once, by the scripted answer where there is one; both drains are skipped on
"no". The use of the answer is the spec's decision D17, the entry mark the model's choice (log 17). That the
scripted answers are used, one at each call, is the model's choice (log 8), after the `HOST` line of R78. -/
def Obligations.CfgAsksConfigured : Prop :=
  ∀ s : State, s.bridgeMode = true → ∃ t a, exec .stepCfg s = .next t ∧
    (∀ a' rest, s.host.cfg = a' :: rest → a = a' ∧ t.host.cfg = rest) ∧
    t.host.acc = s.host.acc ∧ t.host.rx = s.host.rx ∧ t.host.txr = s.host.txr ∧
    t.phase = (if a = true then .drainA else .pump2) ∧ t.trace = s.trace ++ [.configured a] ∧
    KeepsFifo s t ∧ KeepsParser s t ∧ KeepsSerializer s t ∧ t.timerA = s.timerA ∧ t.timerB = s.timerB ∧
    t.bridgeMode = s.bridgeMode ∧ KeepsPlatform s t ∧ t.gaps = s.gaps ∧ t.entered = true

/-- `STEP.DRAIN_A` on an empty FIFO (R146): direction A is done. The order of the phases is the spec's decision D16, the
entry mark the model's choice (log 17). -/
def Obligations.DrainAEndsWhenEmpty : Prop :=
  ∀ s : State, s.bridgeMode = true → s.fifo.count = 0 → ∃ t, exec .stepDrainA s = .next t ∧
    t.phase = .drainB ∧ t.trace = s.trace ∧ KeepsFifo s t ∧ KeepsParser s t ∧ KeepsSerializer s t ∧
    t.timerA = s.timerA ∧ t.timerB = s.timerB ∧ t.bridgeMode = s.bridgeMode ∧ KeepsPlatform s t ∧
    t.host = s.host ∧ t.gaps = s.gaps ∧ t.entered = true

/-- `STEP.DRAIN_A` on a byte that completes no event (R147): the byte is consumed whether or not the transport is ready,
and no call is made; what arrives meanwhile, at the two points where the handler may run (R52), goes behind it. The
transaction form is the spec's decision D18, the lists of arrivals are the model's choice (log 10). The entry mark
is the model's choice (log 17). -/
def Obligations.DrainAConsumesSilently : Prop :=
  ∀ (s : State) (b : Byte) (rest : List Byte), s.bridgeMode = true → s.fifo.Inv s.config →
    s.fifo.contents s.config = b :: rest → (feed s.config s.parser b).event = none →
    ∃ t, exec .stepDrainA s = .next t ∧ t.parser = (feed s.config s.parser b).parser ∧ Receives 1 s t ∧
      t.phase = .drainA ∧
      loopTrace t.trace = loopTrace s.trace ++ (feed s.config s.parser b).raised.map .raised ∧
      (∀ g₁ g₂ more, s.gaps = g₁ :: g₂ :: more →
        t.gaps = more ∧ offeredBytes t.trace = offeredBytes s.trace ++ g₁ ++ g₂) ∧
      KeepsSerializer s t ∧ t.timerA = s.timerA ∧ t.timerB = s.timerB ∧ t.bridgeMode = s.bridgeMode ∧
      KeepsPlatform s t ∧ t.host = s.host ∧ t.entered = true

/-- `STEP.DRAIN_A` on a byte that completes an event (R147): the event is offered once, answered by the script where
there is one. Accepted, the byte leaves the FIFO and the parser state advances together and `timerA` is reloaded;
refused, the parser is unchanged, no byte leaves the FIFO and direction A is done for this loop step. What arrives
meanwhile, at the points where the handler may run (R52), goes behind the contents. The transaction form is the
spec's decision D18, the reload value is open (D20, log 3); the lists of arrivals (log 10) and that the conditions
of a feed computed and not kept are reported (log 20) are the model's reading. That the scripted answers are used,
one at each call, is the model's choice (log 8), after the `HOST` line of R78. The entry mark is the model's choice
(log 17). -/
def Obligations.DrainACommitsOnAcceptance : Prop :=
  ∀ (s : State) (b : Byte) (rest : List Byte) (e : Event), s.bridgeMode = true → s.fifo.Inv s.config →
    s.fifo.contents s.config = b :: rest → (feed s.config s.parser b).event = some e →
    ∃ t a, exec .stepDrainA s = .next t ∧
      (∀ a' more, s.host.acc = a' :: more → a = a' ∧ t.host.acc = more) ∧
      t.host.cfg = s.host.cfg ∧ t.host.rx = s.host.rx ∧ t.host.txr = s.host.txr ∧
      KeepsSerializer s t ∧ t.timerB = s.timerB ∧ t.bridgeMode = s.bridgeMode ∧ KeepsPlatform s t ∧
      t.entered = true ∧
      (if a = true then
        t.parser = (feed s.config s.parser b).parser ∧ Receives 1 s t ∧ t.phase = .drainA ∧
          t.timerA = s.config.activityReload ∧
          loopTrace t.trace = loopTrace s.trace ++ (feed s.config s.parser b).raised.map .raised ++ [.send e true] ∧
          (∀ g₁ g₂ g₃ more, s.gaps = g₁ :: g₂ :: g₃ :: more →
            t.gaps = more ∧ offeredBytes t.trace = offeredBytes s.trace ++ g₁ ++ g₂ ++ g₃)
      else
        KeepsParser s t ∧ Receives 0 s t ∧ t.phase = .drainB ∧ t.timerA = s.timerA ∧
          loopTrace t.trace = loopTrace s.trace ++ (feed s.config s.parser b).raised.map .raised ++
            [.send e false, .raised (.transmitNotReady e)] ∧
          (∀ g₁ g₂ more, s.gaps = g₁ :: g₂ :: more →
            t.gaps = more ∧ offeredBytes t.trace = offeredBytes s.trace ++ g₁ ++ g₂))

/-- In a `STEP.DRAIN_A` that starts full every `INSERT` that arrives between its atomic steps is rejected, also one
between an accepted send and its `REMOVE`, before which the FIFO still holds the byte (R52, R143, R147); the contents
lose their first byte when the action goes on and nothing when the send is refused. The atomic steps are the spec's
decision D5 and the order of send and `REMOVE` its decision D18; that nothing is fused, where R155 lets a model fuse the
FIFO operations at `ISEMPTY`, is the model's choice (log 10). -/
def Obligations.FullUntilRemoved : Prop :=
  ∀ (s : State), s.bridgeMode = true → s.fifo.Inv s.config → s.fifo.count = s.config.n →
    ∃ t, exec .stepDrainA s = .next t ∧ acceptedBytes t.trace = acceptedBytes s.trace ∧
      (∀ a, Mem.read t.fifo.mem a = Mem.read s.fifo.mem a) ∧ t.fifo.head = s.fifo.head ∧
      (t.phase = .drainA → t.fifo.contents s.config = (s.fifo.contents s.config).tail) ∧
      (t.phase = .drainB → t.fifo.contents s.config = s.fifo.contents s.config) ∧
      (t.phase = .drainA ∨ t.phase = .drainB)

/-- `STEP.DRAIN_B` (R148, R149): readiness is asked first; without it, or with no event waiting, direction B is done; an
event received is serialized, every byte of it is sent in order, and `timerB` is reloaded. The script answers where
there is one; what arrives meanwhile, at the points where the handler may run (R52), goes behind the contents.
Asking readiness once per event is the spec's decision D19, the reload value is open (D20, log 3), the lists of
arrivals are the model's choice (log 10). That the scripted answers are used, one at each call, is the model's
choice (log 8), after the `HOST` line of R78. The entry mark is the model's choice (log 17). -/
def Obligations.DrainBSendsWholeEvents : Prop :=
  ∀ s : State, s.bridgeMode = true → s.fifo.Inv s.config → ∃ t ready answer, exec .stepDrainB s = .next t ∧
    (∀ a rest, s.host.txr = a :: rest → ready = a ∧ t.host.txr = rest) ∧
    t.host.cfg = s.host.cfg ∧ t.host.acc = s.host.acc ∧
    (ready = true → ∀ a rest, s.host.rx = a :: rest → answer = a ∧ t.host.rx = rest) ∧
    KeepsParser s t ∧ t.timerA = s.timerA ∧ t.bridgeMode = s.bridgeMode ∧ KeepsPlatform s t ∧ t.entered = true ∧
    (ready = false → t.phase = .pump2 ∧ KeepsSerializer s t ∧ t.timerB = s.timerB ∧ t.host.rx = s.host.rx ∧
      KeepsFifo s t ∧ t.gaps = s.gaps ∧ t.trace = s.trace ++ [.txReady false]) ∧
    (ready = true → Receives 0 s t) ∧
    (ready = true → answer = none → t.phase = .pump2 ∧ KeepsSerializer s t ∧ t.timerB = s.timerB ∧
      loopTrace t.trace = loopTrace s.trace ++ [.txReady true, .receive none] ∧
      (∀ g more, s.gaps = g :: more → t.gaps = more ∧ offeredBytes t.trace = offeredBytes s.trace ++ g)) ∧
    (ready = true → ∀ e, answer = some e → t.phase = .drainB ∧ t.ser = (serialize s.config s.ser e).1 ∧
      t.timerB = s.config.activityReload ∧
      loopTrace t.trace = loopTrace s.trace ++ [.txReady true, .receive (some e)] ++
        (serialize s.config s.ser e).2.map .sendByte ∧
      (∀ gs more, s.gaps = gs ++ more → gs.length = 1 + (serialize s.config s.ser e).2.length →
        t.gaps = more ∧ offeredBytes t.trace = offeredBytes s.trace ++ gs.flatten))

/-- `STEP.PUMP2` (R150): the second pump call, and the loop step ends. The two calls and their places are the spec's
decision D16, the entry mark is the model's choice (log 17). -/
def Obligations.Pump2EndsLoopStep : Prop :=
  ∀ s : State, s.bridgeMode = true → ∃ t, exec .stepPump2 s = .next t ∧ t.phase = .pump1 ∧
    t.trace = s.trace ++ [.pump] ∧ KeepsFifo s t ∧ KeepsParser s t ∧ KeepsSerializer s t ∧
    t.timerA = s.timerA ∧ t.timerB = s.timerB ∧ t.bridgeMode = s.bridgeMode ∧ KeepsPlatform s t ∧
    t.host = s.host ∧ t.gaps = s.gaps ∧ t.entered = true

/-- The bridge never raises `Underflow` (R146): no phase action does, in any state. `Underflow` is the spec's decision
D9. -/
def Obligations.LoopNeverUnderflows : Prop :=
  ∀ (ph : Phase) (s t : State), exec (phaseAction ph) s = .next t →
    ∃ more, t.trace = s.trace ++ more ∧ TraceItem.raised .underflow ∉ more

/-- A refused event is offered again, the same and whole (R169): after a `STEP.DRAIN_A` that was refused (it left
direction A although its byte completes an event), the next one, in any later state with that parser and with the
FIFO holding at least what it held, offers the same event. The retry is the spec's decision D18. -/
def Obligations.RefusedEventOfferedAgain : Prop :=
  ∀ (s t u : State) (b : Byte) (rest more : List Byte) (e : Event), s.bridgeMode = true → s.fifo.Inv s.config →
    s.fifo.contents s.config = b :: rest → (feed s.config s.parser b).event = some e →
    exec .stepDrainA s = .next t → t.phase = .drainB →
    u.bridgeMode = true → u.config = s.config → u.fifo.Inv s.config → u.parser = t.parser →
    u.fifo.contents s.config = t.fifo.contents s.config ++ more →
    ∃ v a, exec .stepDrainA u = .next v ∧ TraceItem.send e a ∈ v.trace.drop u.trace.length

/-- Direction A end to end (R156), kept by every turn of the handler and of the loop: the accepted events are, in order
and each once, what `feed` makes from reset of the accepted bytes the FIFO no longer holds. R156 is marked by the
spec as its own inference. -/
def Obligations.DirectionADeliversInOrder : Prop :=
  ∀ s t : State, s.bridgeTurn = true → s.fifo.Inv s.config → s.DirectionA → step s = .next t → t.DirectionA

/-- Direction B end to end (R156), kept by every turn of the handler and of the loop: the bytes sent are, in order, the
outputs of `serialize` from reset over the events the host returned. R156 is marked by the spec as its own inference.
-/
def Obligations.DirectionBDeliversInOrder : Prop :=
  ∀ s t : State, s.bridgeTurn = true → s.DirectionB → step s = .next t → t.DirectionB
end

