-- ==== Sys2Proof/Laws/State.lean ====
section
/-! SUPPORT. What each update of State leaves in each field: one lemma per field per update. -/

namespace Sys2Proof.Machine

/-! ## log -/

@[simp] theorem State.log_fifo (s : State) (x : TraceItem) : (s.log x).fifo = s.fifo := rfl
@[simp] theorem State.log_parser (s : State) (x : TraceItem) : (s.log x).parser = s.parser := rfl
@[simp] theorem State.log_ser (s : State) (x : TraceItem) : (s.log x).ser = s.ser := rfl
@[simp] theorem State.log_bridgeMode (s : State) (x : TraceItem) : (s.log x).bridgeMode = s.bridgeMode := rfl
@[simp] theorem State.log_phase (s : State) (x : TraceItem) : (s.log x).phase = s.phase := rfl
@[simp] theorem State.log_timerA (s : State) (x : TraceItem) : (s.log x).timerA = s.timerA := rfl
@[simp] theorem State.log_timerB (s : State) (x : TraceItem) : (s.log x).timerB = s.timerB := rfl
@[simp] theorem State.log_config (s : State) (x : TraceItem) : (s.log x).config = s.config := rfl
@[simp] theorem State.log_modeIn (s : State) (x : TraceItem) : (s.log x).modeIn = s.modeIn := rfl
@[simp] theorem State.log_turns (s : State) (x : TraceItem) : (s.log x).turns = s.turns := rfl
@[simp] theorem State.log_host (s : State) (x : TraceItem) : (s.log x).host = s.host := rfl
@[simp] theorem State.log_gaps (s : State) (x : TraceItem) : (s.log x).gaps = s.gaps := rfl
@[simp] theorem State.log_entered (s : State) (x : TraceItem) : (s.log x).entered = s.entered := rfl
@[simp] theorem State.log_draws (s : State) (x : TraceItem) : (s.log x).draws = s.draws := rfl
@[simp] theorem State.log_out (s : State) (x : TraceItem) : (s.log x).out = s.out := rfl
@[simp] theorem State.log_trace (s : State) (x : TraceItem) : (s.log x).trace = s.trace ++ [x] := rfl

/-! ## raise -/

@[simp] theorem State.raise_fifo (s : State) (c : Condition) : (s.raise c).fifo = s.fifo := rfl
@[simp] theorem State.raise_parser (s : State) (c : Condition) : (s.raise c).parser = s.parser := rfl
@[simp] theorem State.raise_ser (s : State) (c : Condition) : (s.raise c).ser = s.ser := rfl
@[simp] theorem State.raise_bridgeMode (s : State) (c : Condition) : (s.raise c).bridgeMode = s.bridgeMode := rfl
@[simp] theorem State.raise_phase (s : State) (c : Condition) : (s.raise c).phase = s.phase := rfl
@[simp] theorem State.raise_timerA (s : State) (c : Condition) : (s.raise c).timerA = s.timerA := rfl
@[simp] theorem State.raise_timerB (s : State) (c : Condition) : (s.raise c).timerB = s.timerB := rfl
@[simp] theorem State.raise_config (s : State) (c : Condition) : (s.raise c).config = s.config := rfl
@[simp] theorem State.raise_modeIn (s : State) (c : Condition) : (s.raise c).modeIn = s.modeIn := rfl
@[simp] theorem State.raise_turns (s : State) (c : Condition) : (s.raise c).turns = s.turns := rfl
@[simp] theorem State.raise_host (s : State) (c : Condition) : (s.raise c).host = s.host := rfl
@[simp] theorem State.raise_gaps (s : State) (c : Condition) : (s.raise c).gaps = s.gaps := rfl
@[simp] theorem State.raise_entered (s : State) (c : Condition) : (s.raise c).entered = s.entered := rfl
@[simp] theorem State.raise_draws (s : State) (c : Condition) : (s.raise c).draws = s.draws := rfl
@[simp] theorem State.raise_out (s : State) (c : Condition) : (s.raise c).out = s.out := rfl
@[simp] theorem State.raise_trace (s : State) (c : Condition) : (s.raise c).trace = s.trace ++ [.raised c] := rfl

/-! ## drawn -/

@[simp] theorem State.drawn_fifo (s : State) : (s.drawn).fifo = s.fifo := rfl
@[simp] theorem State.drawn_parser (s : State) : (s.drawn).parser = s.parser := rfl
@[simp] theorem State.drawn_ser (s : State) : (s.drawn).ser = s.ser := rfl
@[simp] theorem State.drawn_bridgeMode (s : State) : (s.drawn).bridgeMode = s.bridgeMode := rfl
@[simp] theorem State.drawn_phase (s : State) : (s.drawn).phase = s.phase := rfl
@[simp] theorem State.drawn_timerA (s : State) : (s.drawn).timerA = s.timerA := rfl
@[simp] theorem State.drawn_timerB (s : State) : (s.drawn).timerB = s.timerB := rfl
@[simp] theorem State.drawn_config (s : State) : (s.drawn).config = s.config := rfl
@[simp] theorem State.drawn_modeIn (s : State) : (s.drawn).modeIn = s.modeIn := rfl
@[simp] theorem State.drawn_turns (s : State) : (s.drawn).turns = s.turns := rfl
@[simp] theorem State.drawn_host (s : State) : (s.drawn).host = s.host := rfl
@[simp] theorem State.drawn_gaps (s : State) : (s.drawn).gaps = s.gaps := rfl
@[simp] theorem State.drawn_entered (s : State) : (s.drawn).entered = s.entered := rfl
@[simp] theorem State.drawn_draws (s : State) : (s.drawn).draws = s.draws + 1 := rfl
@[simp] theorem State.drawn_out (s : State) : (s.drawn).out = s.out := rfl
@[simp] theorem State.drawn_trace (s : State) : (s.drawn).trace = s.trace := rfl

/-! ## pump -/

@[simp] theorem State.pump_fifo (s : State) : (s.pump).fifo = s.fifo := rfl
@[simp] theorem State.pump_parser (s : State) : (s.pump).parser = s.parser := rfl
@[simp] theorem State.pump_ser (s : State) : (s.pump).ser = s.ser := rfl
@[simp] theorem State.pump_bridgeMode (s : State) : (s.pump).bridgeMode = s.bridgeMode := rfl
@[simp] theorem State.pump_phase (s : State) : (s.pump).phase = s.phase := rfl
@[simp] theorem State.pump_timerA (s : State) : (s.pump).timerA = s.timerA := rfl
@[simp] theorem State.pump_timerB (s : State) : (s.pump).timerB = s.timerB := rfl
@[simp] theorem State.pump_config (s : State) : (s.pump).config = s.config := rfl
@[simp] theorem State.pump_modeIn (s : State) : (s.pump).modeIn = s.modeIn := rfl
@[simp] theorem State.pump_turns (s : State) : (s.pump).turns = s.turns := rfl
@[simp] theorem State.pump_host (s : State) : (s.pump).host = s.host := rfl
@[simp] theorem State.pump_gaps (s : State) : (s.pump).gaps = s.gaps := rfl
@[simp] theorem State.pump_entered (s : State) : (s.pump).entered = s.entered := rfl
@[simp] theorem State.pump_draws (s : State) : (s.pump).draws = s.draws := rfl
@[simp] theorem State.pump_out (s : State) : (s.pump).out = s.out := rfl
@[simp] theorem State.pump_trace (s : State) : (s.pump).trace = s.trace ++ [.pump] := rfl

/-! ## enter -/

@[simp] theorem State.enter_fifo (s : State) : (s.enter).fifo = s.fifo := rfl
@[simp] theorem State.enter_parser (s : State) : (s.enter).parser = s.parser := rfl
@[simp] theorem State.enter_ser (s : State) : (s.enter).ser = s.ser := rfl
@[simp] theorem State.enter_bridgeMode (s : State) : (s.enter).bridgeMode = s.bridgeMode := rfl
@[simp] theorem State.enter_phase (s : State) : (s.enter).phase = s.phase := rfl
@[simp] theorem State.enter_timerA (s : State) : (s.enter).timerA = s.timerA := rfl
@[simp] theorem State.enter_timerB (s : State) : (s.enter).timerB = s.timerB := rfl
@[simp] theorem State.enter_config (s : State) : (s.enter).config = s.config := rfl
@[simp] theorem State.enter_modeIn (s : State) : (s.enter).modeIn = s.modeIn := rfl
@[simp] theorem State.enter_turns (s : State) : (s.enter).turns = s.turns := rfl
@[simp] theorem State.enter_host (s : State) : (s.enter).host = s.host := rfl
@[simp] theorem State.enter_gaps (s : State) : (s.enter).gaps = s.gaps := rfl
@[simp] theorem State.enter_entered (s : State) : (s.enter).entered = true := rfl
@[simp] theorem State.enter_draws (s : State) : (s.enter).draws = s.draws := rfl
@[simp] theorem State.enter_out (s : State) : (s.enter).out = s.out := rfl
@[simp] theorem State.enter_trace (s : State) : (s.enter).trace = s.trace := rfl

/-! ## commit -/

@[simp] theorem State.commit_fifo (s : State) (c : Config) (p : Parser) : (s.commit c p).fifo = s.fifo.pop c := rfl
@[simp] theorem State.commit_parser (s : State) (c : Config) (p : Parser) : (s.commit c p).parser = p := rfl
@[simp] theorem State.commit_ser (s : State) (c : Config) (p : Parser) : (s.commit c p).ser = s.ser := rfl
@[simp] theorem State.commit_bridgeMode (s : State) (c : Config) (p : Parser) :
    (s.commit c p).bridgeMode = s.bridgeMode := rfl
@[simp] theorem State.commit_phase (s : State) (c : Config) (p : Parser) : (s.commit c p).phase = .drainA := rfl
@[simp] theorem State.commit_timerA (s : State) (c : Config) (p : Parser) : (s.commit c p).timerA = s.timerA := rfl
@[simp] theorem State.commit_timerB (s : State) (c : Config) (p : Parser) : (s.commit c p).timerB = s.timerB := rfl
@[simp] theorem State.commit_config (s : State) (c : Config) (p : Parser) : (s.commit c p).config = s.config := rfl
@[simp] theorem State.commit_modeIn (s : State) (c : Config) (p : Parser) : (s.commit c p).modeIn = s.modeIn := rfl
@[simp] theorem State.commit_turns (s : State) (c : Config) (p : Parser) : (s.commit c p).turns = s.turns := rfl
@[simp] theorem State.commit_host (s : State) (c : Config) (p : Parser) : (s.commit c p).host = s.host := rfl
@[simp] theorem State.commit_gaps (s : State) (c : Config) (p : Parser) : (s.commit c p).gaps = s.gaps := rfl
@[simp] theorem State.commit_entered (s : State) (c : Config) (p : Parser) : (s.commit c p).entered = s.entered := rfl
@[simp] theorem State.commit_draws (s : State) (c : Config) (p : Parser) : (s.commit c p).draws = s.draws := rfl
@[simp] theorem State.commit_out (s : State) (c : Config) (p : Parser) : (s.commit c p).out = s.out := rfl
@[simp] theorem State.commit_trace (s : State) (c : Config) (p : Parser) : (s.commit c p).trace = s.trace := rfl

/-! ## resetOp -/

@[simp] theorem State.resetOp_fifo (s : State) : (s.resetOp).fifo = s.fifo.clear := rfl
@[simp] theorem State.resetOp_parser (s : State) : (s.resetOp).parser = Parser.reset := rfl
@[simp] theorem State.resetOp_ser (s : State) : (s.resetOp).ser = { s.ser with lastValid := false } := rfl
@[simp] theorem State.resetOp_bridgeMode (s : State) : (s.resetOp).bridgeMode = s.modeIn := rfl
@[simp] theorem State.resetOp_phase (s : State) : (s.resetOp).phase = .pump1 := rfl
@[simp] theorem State.resetOp_timerA (s : State) : (s.resetOp).timerA = 0 := rfl
@[simp] theorem State.resetOp_timerB (s : State) : (s.resetOp).timerB = 0 := rfl
@[simp] theorem State.resetOp_config (s : State) : (s.resetOp).config = s.config := rfl
@[simp] theorem State.resetOp_modeIn (s : State) : (s.resetOp).modeIn = s.modeIn := rfl
@[simp] theorem State.resetOp_turns (s : State) : (s.resetOp).turns = s.turns := rfl
@[simp] theorem State.resetOp_host (s : State) : (s.resetOp).host = s.host := rfl
@[simp] theorem State.resetOp_gaps (s : State) : (s.resetOp).gaps = s.gaps := rfl
@[simp] theorem State.resetOp_entered (s : State) : (s.resetOp).entered = false := rfl
@[simp] theorem State.resetOp_draws (s : State) : (s.resetOp).draws = s.draws := rfl
@[simp] theorem State.resetOp_out (s : State) : (s.resetOp).out = {} := rfl
@[simp] theorem State.resetOp_trace (s : State) : (s.resetOp).trace = [] := rfl

/-! ## underflowRead -/

@[simp] theorem State.underflowRead_fifo (s : State) : (s.underflowRead).fifo = s.fifo := rfl
@[simp] theorem State.underflowRead_parser (s : State) : (s.underflowRead).parser = s.parser := rfl
@[simp] theorem State.underflowRead_ser (s : State) : (s.underflowRead).ser = s.ser := rfl
@[simp] theorem State.underflowRead_bridgeMode (s : State) : (s.underflowRead).bridgeMode = s.bridgeMode := rfl
@[simp] theorem State.underflowRead_phase (s : State) : (s.underflowRead).phase = s.phase := rfl
@[simp] theorem State.underflowRead_timerA (s : State) : (s.underflowRead).timerA = s.timerA := rfl
@[simp] theorem State.underflowRead_timerB (s : State) : (s.underflowRead).timerB = s.timerB := rfl
@[simp] theorem State.underflowRead_config (s : State) : (s.underflowRead).config = s.config := rfl
@[simp] theorem State.underflowRead_modeIn (s : State) : (s.underflowRead).modeIn = s.modeIn := rfl
@[simp] theorem State.underflowRead_turns (s : State) : (s.underflowRead).turns = s.turns := rfl
@[simp] theorem State.underflowRead_host (s : State) : (s.underflowRead).host = s.host := rfl
@[simp] theorem State.underflowRead_gaps (s : State) : (s.underflowRead).gaps = s.gaps := rfl
@[simp] theorem State.underflowRead_entered (s : State) : (s.underflowRead).entered = s.entered := rfl
@[simp] theorem State.underflowRead_draws (s : State) : (s.underflowRead).draws = s.draws + 1 := rfl
@[simp] theorem State.underflowRead_out (s : State) :
    (s.underflowRead).out = { s.out with rdData := some (Config.freeByte s.draws) } := rfl
@[simp] theorem State.underflowRead_trace (s : State) :
    (s.underflowRead).trace = s.trace ++ [.raised .underflow] := rfl

/-! ## raiseAll -/

@[simp] theorem State.raiseAll_nil (s : State) : s.raiseAll [] = s := rfl

@[simp] theorem State.raiseAll_cons (s : State) (c : Condition) (cs : List Condition) :
    s.raiseAll (c :: cs) = (s.raise c).raiseAll cs := rfl

/-- Raising conditions appends them to the trace and does nothing else (R166). -/
theorem State.raiseAll_eq (s : State) (cs : List Condition) :
    s.raiseAll cs = { s with trace := s.trace ++ cs.map .raised } := by
  induction cs generalizing s with
  | nil => simp
  | cons c cs ih => rw [State.raiseAll_cons, ih]; simp [State.raise, State.log]

@[simp] theorem State.raiseAll_fifo (s : State) (cs : List Condition) :
    (s.raiseAll cs).fifo = s.fifo := by
  rw [State.raiseAll_eq]
@[simp] theorem State.raiseAll_parser (s : State) (cs : List Condition) :
    (s.raiseAll cs).parser = s.parser := by
  rw [State.raiseAll_eq]
@[simp] theorem State.raiseAll_ser (s : State) (cs : List Condition) :
    (s.raiseAll cs).ser = s.ser := by
  rw [State.raiseAll_eq]
@[simp] theorem State.raiseAll_bridgeMode (s : State) (cs : List Condition) :
    (s.raiseAll cs).bridgeMode = s.bridgeMode := by
  rw [State.raiseAll_eq]
@[simp] theorem State.raiseAll_phase (s : State) (cs : List Condition) :
    (s.raiseAll cs).phase = s.phase := by
  rw [State.raiseAll_eq]
@[simp] theorem State.raiseAll_timerA (s : State) (cs : List Condition) :
    (s.raiseAll cs).timerA = s.timerA := by
  rw [State.raiseAll_eq]
@[simp] theorem State.raiseAll_timerB (s : State) (cs : List Condition) :
    (s.raiseAll cs).timerB = s.timerB := by
  rw [State.raiseAll_eq]
@[simp] theorem State.raiseAll_config (s : State) (cs : List Condition) :
    (s.raiseAll cs).config = s.config := by
  rw [State.raiseAll_eq]
@[simp] theorem State.raiseAll_modeIn (s : State) (cs : List Condition) :
    (s.raiseAll cs).modeIn = s.modeIn := by
  rw [State.raiseAll_eq]
@[simp] theorem State.raiseAll_turns (s : State) (cs : List Condition) :
    (s.raiseAll cs).turns = s.turns := by
  rw [State.raiseAll_eq]
@[simp] theorem State.raiseAll_host (s : State) (cs : List Condition) :
    (s.raiseAll cs).host = s.host := by
  rw [State.raiseAll_eq]
@[simp] theorem State.raiseAll_gaps (s : State) (cs : List Condition) :
    (s.raiseAll cs).gaps = s.gaps := by
  rw [State.raiseAll_eq]
@[simp] theorem State.raiseAll_entered (s : State) (cs : List Condition) :
    (s.raiseAll cs).entered = s.entered := by
  rw [State.raiseAll_eq]
@[simp] theorem State.raiseAll_draws (s : State) (cs : List Condition) :
    (s.raiseAll cs).draws = s.draws := by
  rw [State.raiseAll_eq]
@[simp] theorem State.raiseAll_out (s : State) (cs : List Condition) :
    (s.raiseAll cs).out = s.out := by
  rw [State.raiseAll_eq]
@[simp] theorem State.raiseAll_trace (s : State) (cs : List Condition) :
    (s.raiseAll cs).trace = s.trace ++ cs.map .raised := by
  rw [State.raiseAll_eq]

/-! ## store -/

/-- A store writes the FIFO and the trace only. -/
theorem State.store_eq (c : Config) (s : State) (b : Byte) :
    s.store c b = { s with fifo := (s.store c b).fifo, trace := (s.store c b).trace } := by
  unfold State.store
  split <;> rfl

@[simp] theorem State.store_parser (c : Config) (s : State) (b : Byte) : (s.store c b).parser = s.parser := by
  rw [State.store_eq]
@[simp] theorem State.store_ser (c : Config) (s : State) (b : Byte) : (s.store c b).ser = s.ser := by
  rw [State.store_eq]
@[simp] theorem State.store_bridgeMode (c : Config) (s : State) (b : Byte) : (s.store c b).bridgeMode = s.bridgeMode := by
  rw [State.store_eq]
@[simp] theorem State.store_phase (c : Config) (s : State) (b : Byte) : (s.store c b).phase = s.phase := by
  rw [State.store_eq]
@[simp] theorem State.store_timerA (c : Config) (s : State) (b : Byte) : (s.store c b).timerA = s.timerA := by
  rw [State.store_eq]
@[simp] theorem State.store_timerB (c : Config) (s : State) (b : Byte) : (s.store c b).timerB = s.timerB := by
  rw [State.store_eq]
@[simp] theorem State.store_config (c : Config) (s : State) (b : Byte) : (s.store c b).config = s.config := by
  rw [State.store_eq]
@[simp] theorem State.store_modeIn (c : Config) (s : State) (b : Byte) : (s.store c b).modeIn = s.modeIn := by
  rw [State.store_eq]
@[simp] theorem State.store_turns (c : Config) (s : State) (b : Byte) : (s.store c b).turns = s.turns := by
  rw [State.store_eq]
@[simp] theorem State.store_host (c : Config) (s : State) (b : Byte) : (s.store c b).host = s.host := by
  rw [State.store_eq]
@[simp] theorem State.store_entered (c : Config) (s : State) (b : Byte) : (s.store c b).entered = s.entered := by
  rw [State.store_eq]
@[simp] theorem State.store_out (c : Config) (s : State) (b : Byte) : (s.store c b).out = s.out := by
  rw [State.store_eq]
@[simp] theorem State.store_gaps (c : Config) (s : State) (b : Byte) : (s.store c b).gaps = s.gaps := by
  rw [State.store_eq]
@[simp] theorem State.store_draws (c : Config) (s : State) (b : Byte) : (s.store c b).draws = s.draws := by
  rw [State.store_eq]

/-! ## gap -/

/-- A series of stores writes the FIFO and the trace only. -/
theorem State.foldl_store_eq (c : Config) (s : State) (bs : List Byte) :
    ∃ (f : Fifo) (tr : List TraceItem), bs.foldl (State.store c) s = { s with fifo := f, trace := tr } := by
  induction bs generalizing s with
  | nil => exact ⟨s.fifo, s.trace, rfl⟩
  | cons b bs ih =>
    obtain ⟨f, tr, h⟩ := ih (s.store c b)
    refine ⟨f, tr, ?_⟩
    rw [List.foldl_cons, h, State.store_eq]

/-- Arrivals write the FIFO, the trace and the inputs' bookkeeping only. -/
theorem State.gap_eq (c : Config) (s : State) :
    ∃ (f : Fifo) (tr : List TraceItem) (gs : List (List Byte)) (d : Nat),
      s.gap c = { s with fifo := f, trace := tr, gaps := gs, draws := d } := by
  unfold State.gap State.gapBytes
  cases s.gaps with
  | nil =>
    obtain ⟨f, tr, h⟩ := State.foldl_store_eq c s.drawn (Config.burst s.draws)
    exact ⟨f, tr, s.gaps, s.draws + 1, h⟩
  | cons bs rest =>
    obtain ⟨f, tr, h⟩ := State.foldl_store_eq c { s with gaps := rest } bs
    exact ⟨f, tr, rest, s.draws, h⟩

@[simp] theorem State.gap_parser (c : Config) (s : State) : (s.gap c).parser = s.parser := by
  obtain ⟨_, _, _, _, h⟩ := s.gap_eq c
  rw [h]
@[simp] theorem State.gap_ser (c : Config) (s : State) : (s.gap c).ser = s.ser := by
  obtain ⟨_, _, _, _, h⟩ := s.gap_eq c
  rw [h]
@[simp] theorem State.gap_bridgeMode (c : Config) (s : State) : (s.gap c).bridgeMode = s.bridgeMode := by
  obtain ⟨_, _, _, _, h⟩ := s.gap_eq c
  rw [h]
@[simp] theorem State.gap_phase (c : Config) (s : State) : (s.gap c).phase = s.phase := by
  obtain ⟨_, _, _, _, h⟩ := s.gap_eq c
  rw [h]
@[simp] theorem State.gap_timerA (c : Config) (s : State) : (s.gap c).timerA = s.timerA := by
  obtain ⟨_, _, _, _, h⟩ := s.gap_eq c
  rw [h]
@[simp] theorem State.gap_timerB (c : Config) (s : State) : (s.gap c).timerB = s.timerB := by
  obtain ⟨_, _, _, _, h⟩ := s.gap_eq c
  rw [h]
@[simp] theorem State.gap_config (c : Config) (s : State) : (s.gap c).config = s.config := by
  obtain ⟨_, _, _, _, h⟩ := s.gap_eq c
  rw [h]
@[simp] theorem State.gap_modeIn (c : Config) (s : State) : (s.gap c).modeIn = s.modeIn := by
  obtain ⟨_, _, _, _, h⟩ := s.gap_eq c
  rw [h]
@[simp] theorem State.gap_turns (c : Config) (s : State) : (s.gap c).turns = s.turns := by
  obtain ⟨_, _, _, _, h⟩ := s.gap_eq c
  rw [h]
@[simp] theorem State.gap_host (c : Config) (s : State) : (s.gap c).host = s.host := by
  obtain ⟨_, _, _, _, h⟩ := s.gap_eq c
  rw [h]
@[simp] theorem State.gap_entered (c : Config) (s : State) : (s.gap c).entered = s.entered := by
  obtain ⟨_, _, _, _, h⟩ := s.gap_eq c
  rw [h]
@[simp] theorem State.gap_out (c : Config) (s : State) : (s.gap c).out = s.out := by
  obtain ⟨_, _, _, _, h⟩ := s.gap_eq c
  rw [h]

/-! ## sendBytes -/

@[simp] theorem State.sendBytes_nil (c : Config) (s : State) : s.sendBytes c [] = s := rfl

@[simp] theorem State.sendBytes_cons (c : Config) (s : State) (v : Byte) (vs : List Byte) :
    s.sendBytes c (v :: vs) = ((s.gap c).log (.sendByte v)).sendBytes c vs := rfl

@[simp] theorem State.sendBytes_parser (c : Config) (s : State) (vs : List Byte) :
    (s.sendBytes c vs).parser = s.parser := by
  induction vs generalizing s with
  | nil => rfl
  | cons v vs ih => simp [ih]
@[simp] theorem State.sendBytes_ser (c : Config) (s : State) (vs : List Byte) :
    (s.sendBytes c vs).ser = s.ser := by
  induction vs generalizing s with
  | nil => rfl
  | cons v vs ih => simp [ih]
@[simp] theorem State.sendBytes_bridgeMode (c : Config) (s : State) (vs : List Byte) :
    (s.sendBytes c vs).bridgeMode = s.bridgeMode := by
  induction vs generalizing s with
  | nil => rfl
  | cons v vs ih => simp [ih]
@[simp] theorem State.sendBytes_phase (c : Config) (s : State) (vs : List Byte) :
    (s.sendBytes c vs).phase = s.phase := by
  induction vs generalizing s with
  | nil => rfl
  | cons v vs ih => simp [ih]
@[simp] theorem State.sendBytes_timerA (c : Config) (s : State) (vs : List Byte) :
    (s.sendBytes c vs).timerA = s.timerA := by
  induction vs generalizing s with
  | nil => rfl
  | cons v vs ih => simp [ih]
@[simp] theorem State.sendBytes_timerB (c : Config) (s : State) (vs : List Byte) :
    (s.sendBytes c vs).timerB = s.timerB := by
  induction vs generalizing s with
  | nil => rfl
  | cons v vs ih => simp [ih]
@[simp] theorem State.sendBytes_config (c : Config) (s : State) (vs : List Byte) :
    (s.sendBytes c vs).config = s.config := by
  induction vs generalizing s with
  | nil => rfl
  | cons v vs ih => simp [ih]
@[simp] theorem State.sendBytes_modeIn (c : Config) (s : State) (vs : List Byte) :
    (s.sendBytes c vs).modeIn = s.modeIn := by
  induction vs generalizing s with
  | nil => rfl
  | cons v vs ih => simp [ih]
@[simp] theorem State.sendBytes_turns (c : Config) (s : State) (vs : List Byte) :
    (s.sendBytes c vs).turns = s.turns := by
  induction vs generalizing s with
  | nil => rfl
  | cons v vs ih => simp [ih]
@[simp] theorem State.sendBytes_host (c : Config) (s : State) (vs : List Byte) :
    (s.sendBytes c vs).host = s.host := by
  induction vs generalizing s with
  | nil => rfl
  | cons v vs ih => simp [ih]
@[simp] theorem State.sendBytes_entered (c : Config) (s : State) (vs : List Byte) :
    (s.sendBytes c vs).entered = s.entered := by
  induction vs generalizing s with
  | nil => rfl
  | cons v vs ih => simp [ih]
@[simp] theorem State.sendBytes_out (c : Config) (s : State) (vs : List Byte) :
    (s.sendBytes c vs).out = s.out := by
  induction vs generalizing s with
  | nil => rfl
  | cons v vs ih => simp [ih]

end Sys2Proof.Machine
end

