-- ==== Sys2Proof/Laws/Ops.lean ====
section
/-! SUPPORT. For each shared operation, once, everything it can do. -/

namespace Sys2Proof.Machine

/-! ## The storage -/

/-- Reading the cell just written gives the byte written. -/
@[simp] theorem Mem.read_write_same (m : List Host.Cell) (a : Nat) (b : Byte) :
    Mem.read (Mem.write m a b) a = some b := by
  induction m with
  | nil => simp [Mem.write, Mem.read]
  | cons x rest ih =>
    obtain ⟨a', v⟩ := x
    rw [Mem.write]
    split
    · simp [Mem.read]
    · split
      · simp_all [Mem.read]
      · rw [Mem.read, if_neg (fun h => by simp_all), ih]

/-- A write leaves every other cell alone. -/
theorem Mem.read_write_other (m : List Host.Cell) {a a' : Nat} (b : Byte) (h : a' ≠ a) :
    Mem.read (Mem.write m a b) a' = Mem.read m a' := by
  induction m with
  | nil => simp [Mem.write, Mem.read, h.symm]
  | cons x rest ih =>
    obtain ⟨k, v⟩ := x
    rw [Mem.write]
    split
    · simp [Mem.read, h.symm]
    · split
      · rename_i hk
        subst hk
        simp [Mem.read, Ne.symm h]
      · simp [Mem.read, ih]

/-- A canonical form from `lo` is one from anything lower. -/
theorem Mem.wfFrom_mono {n lo lo' : Nat} {m : List Host.Cell} (hle : lo' ≤ lo) (h : Mem.wfFrom n lo m = true) :
    Mem.wfFrom n lo' m = true := by
  cases m with
  | nil => rfl
  | cons x rest =>
    simp only [Mem.wfFrom, Bool.and_eq_true, decide_eq_true_eq] at h ⊢
    exact ⟨⟨hle.trans h.1.1, h.1.2⟩, h.2⟩

/-- A write to an address in range keeps the canonical form. -/
theorem Mem.write_wfFrom {n lo a : Nat} {m : List Host.Cell} (b : Byte) (hlo : lo ≤ a) (ha : a < n)
    (h : Mem.wfFrom n lo m = true) : Mem.wfFrom n lo (Mem.write m a b) = true := by
  induction m generalizing lo with
  | nil => simp [Mem.write, Mem.wfFrom, hlo, ha]
  | cons x rest ih =>
    obtain ⟨k, v⟩ := x
    simp only [Mem.wfFrom, Bool.and_eq_true, decide_eq_true_eq] at h
    rw [Mem.write]
    split
    · simp only [Mem.wfFrom, Bool.and_eq_true, decide_eq_true_eq]
      exact ⟨⟨hlo, ha⟩, ⟨by omega, h.1.2⟩, h.2⟩
    · split
      · simp only [Mem.wfFrom, Bool.and_eq_true, decide_eq_true_eq]
        exact ⟨⟨by omega, by omega⟩, by simp_all⟩
      · simp only [Mem.wfFrom, Bool.and_eq_true, decide_eq_true_eq]
        exact ⟨h.1, ih (by omega) h.2⟩

/-- Every memory operation of the model keeps the canonical form: `Mem.write` is the only one that writes. -/
theorem Mem.write_wf {n a : Nat} {m : List Host.Cell} (b : Byte) (ha : a < n) (h : Mem.wf n m = true) :
    Mem.wf n (Mem.write m a b) = true :=
  Mem.write_wfFrom b (Nat.zero_le a) ha h

/-! ## The mode guard -/

/-- A meaning under the mode guard answers a next state exactly in the MIDI-bridge mode (R24). -/
theorem State.inBridge_next {s t : State} {f : State → State} :
    s.inBridge f = .next t ↔ s.bridgeMode = true ∧ t = f { s with out := {} } := by
  unfold State.inBridge
  cases s.bridgeMode
  · simp
  · simp only [if_true, true_and, Host.Outcome.next.injEq]
    exact eq_comm

/-- In the MIDI-bridge mode the guard runs the operation. -/
theorem State.inBridge_run {s : State} (h : s.bridgeMode = true) (f : State → State) :
    s.inBridge f = .next (f { s with out := {} }) := by
  simp [State.inBridge, h]

/-- In the excluded mode the guard refuses. -/
theorem State.inBridge_excluded {s : State} (h : s.bridgeMode = false) (f : State → State) :
    s.inBridge f = .refused .excludedMode := by
  simp [State.inBridge, h]

/-- A phase action answers a next state exactly in the MIDI-bridge mode, and the run loop is entered (R92). -/
theorem State.inLoop_next {s t : State} {f : State → State} :
    s.inLoop f = .next t ↔ s.bridgeMode = true ∧ t = f { s with out := {}, entered := true } :=
  State.inBridge_next

/-- In the MIDI-bridge mode a phase action runs. -/
theorem State.inLoop_run {s : State} (h : s.bridgeMode = true) (f : State → State) :
    s.inLoop f = .next (f { s with out := {}, entered := true }) :=
  State.inBridge_run h _

/-! ## The host's answers -/

/-- `askConfigured` changes the inputs' bookkeeping and appends its call; no register of the core changes. -/
theorem State.askConfigured_eq (s : State) :
    ∃ (cfg : List Bool) (d : Nat), (s.askConfigured).2 =
      { s with host := { s.host with cfg := cfg }, draws := d,
               trace := s.trace ++ [.configured s.askConfigured.1] } := by
  unfold State.askConfigured
  cases s.host.cfg with
  | nil => exact ⟨s.host.cfg, _, rfl⟩
  | cons a rest => exact ⟨rest, s.draws, rfl⟩

/-- `askSend` changes the inputs' bookkeeping and appends its call; no register of the core changes. -/
theorem State.askSend_eq (s : State) (e : Event) :
    ∃ (acc : List Bool) (d : Nat), (s.askSend e).2 =
      { s with host := { s.host with acc := acc }, draws := d, trace := s.trace ++ [.send e (s.askSend e).1] } := by
  unfold State.askSend
  cases s.host.acc with
  | nil => exact ⟨s.host.acc, _, rfl⟩
  | cons a rest => exact ⟨rest, s.draws, rfl⟩

/-- `askTxReady` changes the inputs' bookkeeping and appends its call; no register of the core changes. -/
theorem State.askTxReady_eq (s : State) :
    ∃ (txr : List Bool) (d : Nat), (s.askTxReady).2 =
      { s with host := { s.host with txr := txr }, draws := d, trace := s.trace ++ [.txReady s.askTxReady.1] } := by
  unfold State.askTxReady
  cases s.host.txr with
  | nil => exact ⟨s.host.txr, _, rfl⟩
  | cons a rest => exact ⟨rest, s.draws, rfl⟩

/-- `askReceive` changes the inputs' bookkeeping and appends its call; no register of the core changes. -/
theorem State.askReceive_eq (s : State) :
    ∃ (rx : List (Option Event)) (d : Nat), (s.askReceive).2 =
      { s with host := { s.host with rx := rx }, draws := d, trace := s.trace ++ [.receive s.askReceive.1] } := by
  unfold State.askReceive
  cases s.host.rx with
  | nil => exact ⟨s.host.rx, _, rfl⟩
  | cons a rest => exact ⟨rest, s.draws, rfl⟩

/-! ## Fetching -/

/-- Taking a turn changes only the inputs' bookkeeping. -/
theorem State.nextTurn_eq (s : State) :
    ∃ (ts : List Turn) (d : Nat), s.nextTurn.2 = { s with turns := ts, draws := d } := by
  unfold State.nextTurn
  split
  · exact ⟨_, _, rfl⟩
  · exact ⟨s.turns, _, rfl⟩

/-- A fetch changes only the inputs' bookkeeping and the mark that the run loop was entered. -/
theorem State.fetch_eq (s : State) :
    ∃ (ts : List Turn) (d : Nat) (e : Bool), s.fetch.2 = { s with turns := ts, draws := d, entered := e } := by
  obtain ⟨ts, d, h⟩ := s.nextTurn_eq
  refine ⟨ts, d, ?_⟩
  unfold State.fetch
  generalize s.nextTurn = q at h
  obtain ⟨t, u⟩ := q
  simp only at h
  subst h
  cases t with
  | irq b => exact ⟨true, rfl⟩
  | loop => exact ⟨s.entered, rfl⟩
  | request p w => exact ⟨s.entered, rfl⟩

/-- In the MIDI-bridge mode an idle turn changes nothing but the results. -/
theorem State.idle_run {s : State} (h : s.bridgeMode = true) : s.idle = .next { s with out := {} } :=
  State.inBridge_run h id

/-- A step answers a next state exactly when the fetched pattern is an instruction and exec answers it, or it asks for
no operation and the turn is idle: the one inversion lemma of `step`. -/
theorem step_next {s t : State} :
    step s = .next t ↔ (∃ i, s.fetch.1 = .ok i ∧ exec i s.fetch.2 = .next t) ∨
      ((∃ r, s.fetch.1 = .error r) ∧ s.fetch.2.bridgeMode = true ∧ t = { s.fetch.2 with out := {} }) := by
  unfold step
  split
  · rename_i h
    simp [h]
  · rename_i h
    simp only [h, reduceCtorEq, false_and, exists_false, false_or, Except.error.injEq, exists_eq', true_and]
    exact State.inBridge_next

/-! ## No pattern at a port is illegal -/

/-- A port's lines carry a pattern of its width. -/
theorem Port.lines_lt (p : Port) (w : Word) : (p.lines w).toNat < 2 ^ p.width := by
  cases p <;> simp only [Port.lines, Port.width, BitVec.toNat_setWidth] <;> omega

/-- A pattern of the port's width loses nothing on its lines. -/
theorem Port.lines_of_lt {p : Port} {w : Word} (h : w.toNat < 2 ^ p.width) : p.lines w = w := by
  apply BitVec.eq_of_toNat_eq
  cases p <;> simp only [Port.lines, Port.width, BitVec.toNat_setWidth] at h ⊢ <;> omega

end Sys2Proof.Machine
end

