-- ==== Sys2Proof/Laws/Exec.lean ====
section
/-! SUPPORT. What `exec` answers for each row in the MIDI-bridge mode: the next state, as the row's operation on the
state with the results of the instruction before forgotten. -/

namespace Sys2Proof.Machine

variable {s : State}

/-- The state a meaning starts from: the results of the instruction before are forgotten. -/
abbrev State.fresh (s : State) : State := { s with out := {} }

/-- The state a phase action starts from: that, and the run loop is entered. -/
abbrev State.freshLoop (s : State) : State := { s with out := {}, entered := true }

/-! ## PORT -/

theorem exec_insert_run (d : Byte) (hb : s.bridgeMode = true) :
    exec (.insert false d) s = .next (s.fresh.insertOp s.config d) := by
  unfold exec execInsert
  exact State.inBridge_run hb _

theorem exec_insertPair_run (d : Byte) (hb : s.bridgeMode = true) :
    exec (.insert true d) s = .next (s.fresh.insertRemoveOp s.config d) := by
  unfold exec execInsert
  exact State.inBridge_run hb _

theorem exec_remove_run (d : Byte) (hb : s.bridgeMode = true) :
    exec (.remove false d) s = .next (s.fresh.removeOp s.config) := by
  unfold exec execRemove
  exact State.inBridge_run hb _

theorem exec_removePair_run (d : Byte) (hb : s.bridgeMode = true) :
    exec (.remove true d) s = .next (s.fresh.insertRemoveOp s.config d) := by
  unfold exec execRemove
  exact State.inBridge_run hb _

theorem exec_peek_run (c w r : Bool) (d : Byte) (hb : s.bridgeMode = true) :
    exec (.peek c w r d) s = .next (s.fresh.peekOp) := by
  unfold exec execPeek
  exact State.inBridge_run hb _

theorem exec_count_run (c w r : Bool) (d : Byte) (hb : s.bridgeMode = true) :
    exec (.count c w r d) s = .next ({ s with out := { count := some s.fifo.count } }) := by
  unfold exec execCount
  exact State.inBridge_run hb _

theorem exec_isEmpty_run (c w r : Bool) (d : Byte) (hb : s.bridgeMode = true) :
    exec (.isEmpty c w r d) s = .next ({ s with out := { empty := some s.fifo.isEmpty } }) := by
  unfold exec execIsEmpty
  exact State.inBridge_run hb _

theorem exec_isFull_run (c w r : Bool) (d : Byte) (hb : s.bridgeMode = true) :
    exec (.isFull c w r d) s = .next ({ s with out := { full := some (s.fifo.isFull s.config) } }) := by
  unfold exec execIsFull
  exact State.inBridge_run hb _

theorem exec_clear_run (w r : Bool) (d : Byte) (hb : s.bridgeMode = true) (he : s.entered = false) :
    exec (.clear w r d) s = .next { s.fresh with fifo := s.fifo.clear } := by
  change execClear s = _
  unfold execClear
  rw [he, Bool.and_false, if_neg Bool.false_ne_true]
  exact State.inBridge_run hb _

/-! ## BYTE8 -/

/-- A row of format BYTE8 keeps the parser state, answers the event and reports the conditions. -/
theorem State.feedWith_run (hb : s.bridgeMode = true) (f : Config → Parser → FeedResult) :
    s.feedWith f = .next { s with parser := (f s.config s.parser).parser, out := { evt := some (f s.config s.parser).event },
                                  trace := s.trace ++ (f s.config s.parser).raised.map .raised } := by
  unfold State.feedWith
  rw [State.inBridge_run hb]
  simp only [State.raiseAll_eq]

/-! ## EVT32 -/

/-- A row of format EVT32 keeps the serializer state and answers the bytes. -/
theorem State.serializeWith_run (hb : s.bridgeMode = true) (e : Event) :
    s.serializeWith e = .next { s with ser := s.ser.after s.config e, out := { ser := some (s.ser.bytes s.config e) } } := by
  simp [State.serializeWith, State.inBridge, hb, serialize]

/-! ## PHASE3 and RST1 -/

theorem exec_stepPump1_run (hb : s.bridgeMode = true) :
    exec .stepPump1 s = .next (s.freshLoop.pump1Action) := by
  unfold exec execStepPump1
  exact State.inLoop_run hb _

theorem exec_stepCfg_run (hb : s.bridgeMode = true) :
    exec .stepCfg s = .next (s.freshLoop.cfgAction) := by
  unfold exec execStepCfg
  exact State.inLoop_run hb _

theorem exec_stepDrainA_run (hb : s.bridgeMode = true) :
    exec .stepDrainA s = .next (s.freshLoop.drainAAction s.config) := by
  unfold exec execStepDrainA
  exact State.inLoop_run hb _

theorem exec_stepDrainB_run (hb : s.bridgeMode = true) :
    exec .stepDrainB s = .next (s.freshLoop.drainBAction s.config) := by
  unfold exec execStepDrainB
  exact State.inLoop_run hb _

theorem exec_stepPump2_run (hb : s.bridgeMode = true) :
    exec .stepPump2 s = .next (s.freshLoop.pump2Action) := by
  unfold exec execStepPump2
  exact State.inLoop_run hb _

theorem exec_reset_run (s : State) : exec .reset s = .next s.resetOp := rfl

/-! ## The phase actions -/

/-- Everything direction A can do once a byte is peeked and fed (R147): nothing to deliver; an event accepted and
committed; an event refused and nothing committed. -/
theorem State.offer_cases (c : Config) (s : State) (r : FeedResult) :
    (r.event = none ∧ s.offer c r = s.commit c r.parser) ∨
    (∃ e, r.event = some e ∧
      ((s.askSend e).1 = true ∧
          s.offer c r = { ((s.askSend e).2.gap c).commit c r.parser with timerA := c.activityReload } ∨
        (s.askSend e).1 = false ∧
          s.offer c r = { (s.askSend e).2.raise (.transmitNotReady e) with phase := .drainB })) := by
  unfold State.offer
  cases r.event with
  | none => exact .inl ⟨rfl, rfl⟩
  | some e =>
    refine .inr ⟨e, rfl, ?_⟩
    cases ha : (s.askSend e).1 with
    | true => exact .inl ⟨rfl, by simp [ha]⟩
    | false => exact .inr ⟨rfl, by simp [ha]⟩

/-- Everything `STEP.DRAIN_A` can do (R146): nothing to drain; or the oldest byte is peeked, fed and offered, with the
handler's points after `ISEMPTY` and after `PEEK`. -/
theorem State.drainAAction_cases (c : Config) (s : State) :
    (s.fifo.count = 0 ∧ s.drainAAction c = { s with phase := .drainB }) ∨
    (s.fifo.count ≠ 0 ∧ ∃ u : State, u = s.gap c ∧ s.drainAAction c =
      ((u.raiseAll (feed c s.parser u.fifo.front).raised).gap c).offer c (feed c s.parser u.fifo.front)) := by
  by_cases hc : s.fifo.count = 0
  · exact .inl ⟨hc, by simp [State.drainAAction, Fifo.isEmpty, hc]⟩
  · exact .inr ⟨hc, _, rfl, by simp [State.drainAAction, Fifo.isEmpty, hc]⟩

/-- Everything `STEP.DRAIN_B` can do (R148, R149): not ready; ready with no event; ready with one, delivered. -/
theorem State.drainBAction_cases (c : Config) (s : State) :
    ∃ q : Bool × State, q = s.askTxReady ∧
      ((q.1 = false ∧ s.drainBAction c = { q.2 with phase := .pump2 }) ∨
        (q.1 = true ∧ ∃ r : Option Event × State, r = (q.2.gap c).askReceive ∧
          ((r.1 = none ∧ s.drainBAction c = { r.2 with phase := .pump2 }) ∨
            ∃ e, r.1 = some e ∧ s.drainBAction c = r.2.deliver c e))) := by
  refine ⟨_, rfl, ?_⟩
  cases ha : s.askTxReady.1 with
  | false => exact .inl ⟨rfl, by simp [State.drainBAction, ha]⟩
  | true =>
    refine .inr ⟨rfl, _, rfl, ?_⟩
    cases hr : (s.askTxReady.2.gap c).askReceive.1 with
    | none => exact .inl ⟨rfl, by simp [State.drainBAction, ha, hr]⟩
    | some e => exact .inr ⟨e, rfl, by simp [State.drainBAction, ha, hr]⟩

end Sys2Proof.Machine
end

