-- ==== Sys2Proof/Laws/Feed.lean ====
section
/-! SUPPORT. The parser and the serializer: what each shared operation can do. -/

namespace Sys2Proof.Machine

/-! ## The length ROM -/

/-- The ROM of every configuration is the table of R66. -/
theorem Config.lenRom_eq (c : Config) (cin : Nibble) : c.lenRom cin = lenTable[cin.toNat]'cin.isLt := by
  simp only [Config.lenRom, c.lenFixed]

/-! ## Byte classes -/

@[simp] theorem byteClass_realTime (rt : BitVec 3) : byteClass (0b11111#5 ++ rt) = .rt := by
  revert rt; decide

@[simp] theorem byteClass_sox : byteClass 0xF0#8 = .sox := by decide

@[simp] theorem byteClass_eox : byteClass 0xF7#8 = .eox := by decide

@[simp] theorem byteClass_data (d : BitVec 7) : byteClass (0#1 ++ d) = .data := by
  revert d; decide

/-- A byte with a channel-message high nibble is of class STATUS (R63). -/
theorem byteClass_status {h : Nibble} (channel : Nibble) (hlo : 8#4 ≤ h) (hhi : h < 15#4) :
    byteClass (statusByte h channel) = .status := by
  revert h channel; decide

@[simp] theorem statusNibble_statusByte (h channel : Nibble) : statusNibble (statusByte h channel) = h := by
  revert h channel; decide

/-- Every byte matches a row of format BYTE8 (R62). -/
theorem decodeByte_total (b : Byte) : (decodeByte b).isSome = true := by
  revert b; decide

/-! ## `feed` -/

theorem feed_rt (c : Config) (p : Parser) {b : Byte} (h : byteClass b = .rt) : feed c p b = feedRealTime p b := by
  simp [feed, h]

theorem feed_sox (c : Config) (p : Parser) : feed c p 0xF0#8 = feedSysexStart c p := by
  simp [feed]

theorem feed_eox (c : Config) (p : Parser) : feed c p 0xF7#8 = feedSysexEnd c p := by
  simp [feed]

theorem feed_status (c : Config) (p : Parser) {b : Byte} (h : byteClass b = .status) :
    feed c p b = feedStatus c p b := by
  simp [feed, h]

theorem feed_data (c : Config) (p : Parser) {b : Byte} (h : byteClass b = .data) :
    feed c p b = feedDataByte c p b := by
  simp [feed, h]

/-- After the guard three bytes are not buffered (R103). -/
theorem Parser.guarded_idx (p : Parser) : p.guarded.idx ≠ 3#2 := by
  unfold Parser.guarded
  split
  · exact (by decide : 0#2 ≠ 3#2)
  · assumption

/-- The guard changes `idx` only. -/
theorem Parser.guarded_eq (p : Parser) : p.guarded = { p with idx := p.guarded.idx } := by
  unfold Parser.guarded
  split <;> rfl

/-- Without three bytes buffered the guard does nothing. -/
theorem Parser.guarded_of_ne {p : Parser} (h : p.idx ≠ 3#2) : p.guarded = p ∧ p.guardRaises = [] := by
  simp [Parser.guarded, Parser.guardRaises, h]

/-- Everything the completion checks can do (R110 to R112). -/
theorem Parser.complete_cases (c : Config) (p : Parser) (b : Byte) :
    (p.sysex = true ∧ p.idx = 3#2 ∧ p.complete c b = ({ p with idx := 0#2 }, some (p.frame 4#4 3#2))) ∨
    (b = 0xF7#8 ∧ ¬ (p.sysex = true ∧ p.idx = 3#2) ∧
      p.complete c b = ({ p with idx := 0#2 }, some (p.frame (eoxFrameType p.idx) p.idx))) ∨
    (b ≠ 0xF7#8 ∧ ¬ (p.sysex = true ∧ p.idx = 3#2) ∧ p.idx = p.explen ∧
      p.complete c b = ({ p with idx := c.carryIndex.setWidth 2 }, some (p.frame p.openCin p.idx))) ∨
    (b ≠ 0xF7#8 ∧ ¬ (p.sysex = true ∧ p.idx = 3#2) ∧ p.idx ≠ p.explen ∧ p.complete c b = (p, none)) := by
  unfold Parser.complete
  by_cases h1 : p.sysex = true ∧ p.idx = 3
  · simp [h1]
  · by_cases h2 : b = 0xF7
    · simp_all
    · by_cases h3 : p.idx = p.explen <;> simp_all

/-- A meaning of format BYTE8 in the MIDI-bridge mode: the parser state is kept, the event is the result, and the
conditions are reported. -/
theorem State.feedWith_next {s t : State} {f : Config → Parser → FeedResult} :
    s.feedWith f = .next t ↔ s.bridgeMode = true ∧
      t = { s with parser := (f s.config s.parser).parser, out := { evt := some (f s.config s.parser).event },
                   trace := s.trace ++ (f s.config s.parser).raised.map .raised } := by
  unfold State.feedWith
  rw [State.inBridge_next]
  simp [State.raiseAll_eq]

/-! ## `serialize` -/

/-- A meaning of format EVT32 in the MIDI-bridge mode. -/
theorem State.serializeWith_next {s t : State} {e : Event} :
    s.serializeWith e = .next t ↔ s.bridgeMode = true ∧
      t = { s with ser := s.ser.after s.config e, out := { ser := some (s.ser.bytes s.config e) } } := by
  unfold State.serializeWith
  rw [State.inBridge_next]
  rfl

/-! ## Streams -/

@[simp] theorem feedAll_nil (c : Config) (p : Parser) : feedAll c p [] = (p, []) := rfl

theorem feedAll_cons (c : Config) (p : Parser) (b : Byte) (bs : List Byte) :
    feedAll c p (b :: bs) = ((feedAll c (feed c p b).parser bs).1,
      (feed c p b).event.toList ++ (feedAll c (feed c p b).parser bs).2) := rfl

/-- Feeding two streams one after the other. -/
theorem feedAll_append (c : Config) (p : Parser) (xs ys : List Byte) :
    feedAll c p (xs ++ ys) = ((feedAll c (feedAll c p xs).1 ys).1,
      (feedAll c p xs).2 ++ (feedAll c (feedAll c p xs).1 ys).2) := by
  induction xs generalizing p with
  | nil => rfl
  | cons b bs ih => simp [feedAll_cons, ih]

@[simp] theorem serializeAll_nil (c : Config) (s : Serializer) : serializeAll c s [] = (s, []) := rfl

theorem serializeAll_cons (c : Config) (s : Serializer) (e : Event) (es : List Event) :
    serializeAll c s (e :: es) =
      ((serializeAll c (s.after c e) es).1, s.bytes c e ++ (serializeAll c (s.after c e) es).2) := rfl

/-- Serializing two lists one after the other. -/
theorem serializeAll_append (c : Config) (s : Serializer) (xs ys : List Event) :
    serializeAll c s (xs ++ ys) = ((serializeAll c (serializeAll c s xs).1 ys).1,
      (serializeAll c s xs).2 ++ (serializeAll c (serializeAll c s xs).1 ys).2) := by
  induction xs generalizing s with
  | nil => rfl
  | cons e es ih => simp [serializeAll_cons, ih]

/-! ## Traces -/

@[simp] theorem acceptedBytes_append (xs ys : List TraceItem) :
    acceptedBytes (xs ++ ys) = acceptedBytes xs ++ acceptedBytes ys := by simp [acceptedBytes]

@[simp] theorem acceptedEvents_append (xs ys : List TraceItem) :
    acceptedEvents (xs ++ ys) = acceptedEvents xs ++ acceptedEvents ys := by simp [acceptedEvents]

@[simp] theorem receivedEvents_append (xs ys : List TraceItem) :
    receivedEvents (xs ++ ys) = receivedEvents xs ++ receivedEvents ys := by simp [receivedEvents]

@[simp] theorem sentBytes_append (xs ys : List TraceItem) :
    sentBytes (xs ++ ys) = sentBytes xs ++ sentBytes ys := by simp [sentBytes]

@[simp] theorem acceptedBytes_raised (cs : List Condition) : acceptedBytes (cs.map .raised) = [] := by
  simp [acceptedBytes, List.filterMap_map]

@[simp] theorem acceptedEvents_raised (cs : List Condition) : acceptedEvents (cs.map .raised) = [] := by
  simp [acceptedEvents, List.filterMap_map]

@[simp] theorem receivedEvents_raised (cs : List Condition) : receivedEvents (cs.map .raised) = [] := by
  simp [receivedEvents, List.filterMap_map]

@[simp] theorem sentBytes_raised (cs : List Condition) : sentBytes (cs.map .raised) = [] := by
  simp [sentBytes, List.filterMap_map]

@[simp] theorem sentBytes_sendByte (bs : List Byte) : sentBytes (bs.map .sendByte) = bs := by
  simp [sentBytes, List.filterMap_map]

@[simp] theorem acceptedBytes_sendByte (bs : List Byte) : acceptedBytes (bs.map .sendByte) = [] := by
  simp [acceptedBytes, List.filterMap_map]

@[simp] theorem acceptedEvents_sendByte (bs : List Byte) : acceptedEvents (bs.map .sendByte) = [] := by
  simp [acceptedEvents, List.filterMap_map]

@[simp] theorem receivedEvents_sendByte (bs : List Byte) : receivedEvents (bs.map .sendByte) = [] := by
  simp [receivedEvents, List.filterMap_map]

end Sys2Proof.Machine
end

