-- ==== Sys2Proof/Laws/PerInstr.lean ====
section
/-! SUPPORT. Per instruction: its encoding carries the fixed bits of its row of spec/opcode_table.json. -/

namespace Sys2Proof.Laws.RowPattern

/-- A row of the opcode table: the port of its format, its mask and its match (for a pattern of letters, the mask has
a 1 where the pattern has a digit). -/
structure Row where
  port : Port
  mask : Word
  pattern : Word

/-- The row of each instruction, as the table prints it. -/
def row : Instr → Row
  | .insert _ _ => ⟨.request, 0x600#32, 0x200#32⟩
  | .remove _ _ => ⟨.request, 0x500#32, 0x100#32⟩
  | .peek _ _ _ _ => ⟨.rdData, 0x0#32, 0x0#32⟩
  | .count _ _ _ _ => ⟨.count, 0x0#32, 0x0#32⟩
  | .isEmpty _ _ _ _ => ⟨.empty, 0x0#32, 0x0#32⟩
  | .isFull _ _ _ _ => ⟨.full, 0x0#32, 0x0#32⟩
  | .clear _ _ _ => ⟨.request, 0x400#32, 0x400#32⟩
  | .feedRt _ => ⟨.feedByte, 0xF8#32, 0xF8#32⟩
  | .feedSox => ⟨.feedByte, 0xFF#32, 0xF0#32⟩
  | .feedEox => ⟨.feedByte, 0xFF#32, 0xF7#32⟩
  | .feedSt8 _ => ⟨.feedByte, 0xF0#32, 0x80#32⟩
  | .feedSt9 _ => ⟨.feedByte, 0xF0#32, 0x90#32⟩
  | .feedStA _ => ⟨.feedByte, 0xF0#32, 0xA0#32⟩
  | .feedStB _ => ⟨.feedByte, 0xF0#32, 0xB0#32⟩
  | .feedStC _ => ⟨.feedByte, 0xF0#32, 0xC0#32⟩
  | .feedStD _ => ⟨.feedByte, 0xF0#32, 0xD0#32⟩
  | .feedStE _ => ⟨.feedByte, 0xF0#32, 0xE0#32⟩
  | .feedSc1 => ⟨.feedByte, 0xFF#32, 0xF1#32⟩
  | .feedSc2 => ⟨.feedByte, 0xFF#32, 0xF2#32⟩
  | .feedSc3 => ⟨.feedByte, 0xFF#32, 0xF3#32⟩
  | .feedSc4 => ⟨.feedByte, 0xFF#32, 0xF4#32⟩
  | .feedSc5 => ⟨.feedByte, 0xFF#32, 0xF5#32⟩
  | .feedSc6 => ⟨.feedByte, 0xFF#32, 0xF6#32⟩
  | .feedData _ => ⟨.feedByte, 0x80#32, 0x0#32⟩
  | .ser0 _ _ _ _ => ⟨.serEvt, 0xF#32, 0x0#32⟩
  | .ser1 _ _ _ _ => ⟨.serEvt, 0xF#32, 0x1#32⟩
  | .ser2 _ _ _ _ => ⟨.serEvt, 0xF#32, 0x2#32⟩
  | .ser3 _ _ _ _ => ⟨.serEvt, 0xF#32, 0x3#32⟩
  | .ser4 _ _ _ _ => ⟨.serEvt, 0xF#32, 0x4#32⟩
  | .ser5 _ _ _ _ => ⟨.serEvt, 0xF#32, 0x5#32⟩
  | .ser6 _ _ _ _ => ⟨.serEvt, 0xF#32, 0x6#32⟩
  | .ser7 _ _ _ _ => ⟨.serEvt, 0xF#32, 0x7#32⟩
  | .ser8 _ _ _ _ => ⟨.serEvt, 0xF#32, 0x8#32⟩
  | .ser9 _ _ _ _ => ⟨.serEvt, 0xF#32, 0x9#32⟩
  | .ser10 _ _ _ _ => ⟨.serEvt, 0xF#32, 0xA#32⟩
  | .ser11 _ _ _ _ => ⟨.serEvt, 0xF#32, 0xB#32⟩
  | .ser12 _ _ _ _ => ⟨.serEvt, 0xF#32, 0xC#32⟩
  | .ser13 _ _ _ _ => ⟨.serEvt, 0xF#32, 0xD#32⟩
  | .ser14 _ _ _ _ => ⟨.serEvt, 0xF#32, 0xE#32⟩
  | .ser15 _ _ _ _ => ⟨.serEvt, 0xF#32, 0xF#32⟩
  | .stepPump1 => ⟨.phase, 0x7#32, 0x0#32⟩
  | .stepCfg => ⟨.phase, 0x7#32, 0x1#32⟩
  | .stepDrainA => ⟨.phase, 0x7#32, 0x2#32⟩
  | .stepDrainB => ⟨.phase, 0x7#32, 0x3#32⟩
  | .stepPump2 => ⟨.phase, 0x7#32, 0x4#32⟩
  | .reset => ⟨.rst, 0x1#32, 0x1#32⟩

/-- The instruction's word has its row's fixed bits, at its row's port. -/
def Statement (i : Instr) : Prop :=
  (encode i).1 = (row i).port ∧ (encode i).2 &&& (row i).mask = (row i).pattern

/-- The low nibble of an event word is the Frame-Type (R64, R65). -/
theorem eventWord_tag (e : Event) : eventWord e &&& 0xF#32 = e.cin.setWidth 32 := by
  obtain ⟨cable, cin, d1, d2, d3⟩ := e
  apply BitVec.eq_of_getLsbD_eq
  intro k hk
  rw [BitVec.getLsbD_and, BitVec.getLsbD_setWidth]
  by_cases h : k < 4
  · have hm : (0xF#32).getLsbD k = true := by revert k; decide
    rw [hm, Bool.and_true, eventWord, BitVec.getLsbD_append]
    simp only [h, hk, decide_true, Bool.true_and, if_true]
  · have hm : (0xF#32).getLsbD k = false := by revert k; decide
    have hc : cin.getLsbD k = false := BitVec.getLsbD_of_ge cin k (by omega)
    simp [hm, hc]

theorem insert (r : Bool) (d : Byte) : Statement (.insert r d) :=
  ⟨rfl, by revert r d; decide⟩

theorem remove (w : Bool) (d : Byte) : Statement (.remove w d) :=
  ⟨rfl, by revert w d; decide⟩

theorem peek (c w r : Bool) (d : Byte) : Statement (.peek c w r d) :=
  ⟨rfl, BitVec.and_zero⟩

theorem count (c w r : Bool) (d : Byte) : Statement (.count c w r d) :=
  ⟨rfl, BitVec.and_zero⟩

theorem isEmpty (c w r : Bool) (d : Byte) : Statement (.isEmpty c w r d) :=
  ⟨rfl, BitVec.and_zero⟩

theorem isFull (c w r : Bool) (d : Byte) : Statement (.isFull c w r d) :=
  ⟨rfl, BitVec.and_zero⟩

theorem clear (w r : Bool) (d : Byte) : Statement (.clear w r d) :=
  ⟨rfl, by cases w <;> cases r <;> revert d <;> decide⟩

theorem feedRt (rt : BitVec 3) : Statement (.feedRt rt) :=
  ⟨rfl, by revert rt; decide⟩

theorem feedSox : Statement (.feedSox) :=
  ⟨rfl, by decide⟩

theorem feedEox : Statement (.feedEox) :=
  ⟨rfl, by decide⟩

theorem feedSt8 (channel : Nibble) : Statement (.feedSt8 channel) :=
  ⟨rfl, by revert channel; decide⟩

theorem feedSt9 (channel : Nibble) : Statement (.feedSt9 channel) :=
  ⟨rfl, by revert channel; decide⟩

theorem feedStA (channel : Nibble) : Statement (.feedStA channel) :=
  ⟨rfl, by revert channel; decide⟩

theorem feedStB (channel : Nibble) : Statement (.feedStB channel) :=
  ⟨rfl, by revert channel; decide⟩

theorem feedStC (channel : Nibble) : Statement (.feedStC channel) :=
  ⟨rfl, by revert channel; decide⟩

theorem feedStD (channel : Nibble) : Statement (.feedStD channel) :=
  ⟨rfl, by revert channel; decide⟩

theorem feedStE (channel : Nibble) : Statement (.feedStE channel) :=
  ⟨rfl, by revert channel; decide⟩

theorem feedSc1 : Statement (.feedSc1) :=
  ⟨rfl, by decide⟩

theorem feedSc2 : Statement (.feedSc2) :=
  ⟨rfl, by decide⟩

theorem feedSc3 : Statement (.feedSc3) :=
  ⟨rfl, by decide⟩

theorem feedSc4 : Statement (.feedSc4) :=
  ⟨rfl, by decide⟩

theorem feedSc5 : Statement (.feedSc5) :=
  ⟨rfl, by decide⟩

theorem feedSc6 : Statement (.feedSc6) :=
  ⟨rfl, by decide⟩

theorem feedData (data : BitVec 7) : Statement (.feedData data) :=
  ⟨rfl, by revert data; decide⟩

theorem ser0 (cable : Nibble) (d1 d2 d3 : Byte) : Statement (.ser0 cable d1 d2 d3) :=
  ⟨rfl, (eventWord_tag _).trans rfl⟩

theorem ser1 (cable : Nibble) (d1 d2 d3 : Byte) : Statement (.ser1 cable d1 d2 d3) :=
  ⟨rfl, (eventWord_tag _).trans rfl⟩

theorem ser2 (cable : Nibble) (d1 d2 d3 : Byte) : Statement (.ser2 cable d1 d2 d3) :=
  ⟨rfl, (eventWord_tag _).trans rfl⟩

theorem ser3 (cable : Nibble) (d1 d2 d3 : Byte) : Statement (.ser3 cable d1 d2 d3) :=
  ⟨rfl, (eventWord_tag _).trans rfl⟩

theorem ser4 (cable : Nibble) (d1 d2 d3 : Byte) : Statement (.ser4 cable d1 d2 d3) :=
  ⟨rfl, (eventWord_tag _).trans rfl⟩

theorem ser5 (cable : Nibble) (d1 d2 d3 : Byte) : Statement (.ser5 cable d1 d2 d3) :=
  ⟨rfl, (eventWord_tag _).trans rfl⟩

theorem ser6 (cable : Nibble) (d1 d2 d3 : Byte) : Statement (.ser6 cable d1 d2 d3) :=
  ⟨rfl, (eventWord_tag _).trans rfl⟩

theorem ser7 (cable : Nibble) (d1 d2 d3 : Byte) : Statement (.ser7 cable d1 d2 d3) :=
  ⟨rfl, (eventWord_tag _).trans rfl⟩

theorem ser8 (cable : Nibble) (d1 d2 d3 : Byte) : Statement (.ser8 cable d1 d2 d3) :=
  ⟨rfl, (eventWord_tag _).trans rfl⟩

theorem ser9 (cable : Nibble) (d1 d2 d3 : Byte) : Statement (.ser9 cable d1 d2 d3) :=
  ⟨rfl, (eventWord_tag _).trans rfl⟩

theorem ser10 (cable : Nibble) (d1 d2 d3 : Byte) : Statement (.ser10 cable d1 d2 d3) :=
  ⟨rfl, (eventWord_tag _).trans rfl⟩

theorem ser11 (cable : Nibble) (d1 d2 d3 : Byte) : Statement (.ser11 cable d1 d2 d3) :=
  ⟨rfl, (eventWord_tag _).trans rfl⟩

theorem ser12 (cable : Nibble) (d1 d2 d3 : Byte) : Statement (.ser12 cable d1 d2 d3) :=
  ⟨rfl, (eventWord_tag _).trans rfl⟩

theorem ser13 (cable : Nibble) (d1 d2 d3 : Byte) : Statement (.ser13 cable d1 d2 d3) :=
  ⟨rfl, (eventWord_tag _).trans rfl⟩

theorem ser14 (cable : Nibble) (d1 d2 d3 : Byte) : Statement (.ser14 cable d1 d2 d3) :=
  ⟨rfl, (eventWord_tag _).trans rfl⟩

theorem ser15 (cable : Nibble) (d1 d2 d3 : Byte) : Statement (.ser15 cable d1 d2 d3) :=
  ⟨rfl, (eventWord_tag _).trans rfl⟩

theorem stepPump1 : Statement (.stepPump1) :=
  ⟨rfl, by decide⟩

theorem stepCfg : Statement (.stepCfg) :=
  ⟨rfl, by decide⟩

theorem stepDrainA : Statement (.stepDrainA) :=
  ⟨rfl, by decide⟩

theorem stepDrainB : Statement (.stepDrainB) :=
  ⟨rfl, by decide⟩

theorem stepPump2 : Statement (.stepPump2) :=
  ⟨rfl, by decide⟩

theorem reset : Statement (.reset) :=
  ⟨rfl, by decide⟩

end Sys2Proof.Laws.RowPattern
end

