-- ==== Sys2Proof/Laws/Ring.lean ====
section
/-! SUPPORT. The ring buffer: what the accepted insert, the defined remove and `CLEAR` do to the contents and to the
invariant, for any capacity. -/

namespace Sys2Proof.Machine

variable {c : Config} {f : Fifo}

/-! ## Cells -/

/-- After a push the written cell reads as the byte. -/
@[simp] theorem Fifo.cell_push_head (c : Config) (f : Fifo) (b : Byte) : (f.push c b).cell f.head = b := by
  simp [Fifo.cell, Fifo.push]

/-- A push leaves every other cell alone. -/
theorem Fifo.cell_push_other (c : Config) (f : Fifo) (b : Byte) {a : Nat} (h : a ≠ f.head) :
    (f.push c b).cell a = f.cell a := by
  simp [Fifo.cell, Fifo.push, Mem.read_write_other _ _ h]

/-- A pop alters no cell (R88). -/
@[simp] theorem Fifo.cell_pop (c : Config) (f : Fifo) (a : Nat) : (f.pop c).cell a = f.cell a := rfl

/-! ## The window -/

/-- A live cell is not the cell the next insert writes while there is room (R95 item 5). -/
theorem Fifo.live_ne_head (hf : f.Inv c) (hroom : f.count ≠ c.n) {k : Nat} (hk : k < f.count) :
    (f.tail + k) % c.n ≠ f.head := by
  obtain ⟨hle, -, ht, hh⟩ := hf
  rw [hh]
  intro h
  have hlt : f.count < c.n := lt_of_le_of_ne hle hroom
  have := Nat.ModEq.add_left_cancel' f.tail h
  rw [Nat.ModEq, Nat.mod_eq_of_lt (hk.trans hlt), Nat.mod_eq_of_lt hlt] at this
  omega

/-- A push appends its byte to the contents (R87, R17). -/
theorem Fifo.contents_push (hf : f.Inv c) (hroom : f.count ≠ c.n) (b : Byte) :
    (f.push c b).contents c = f.contents c ++ [b] := by
  have hhead : (f.tail + f.count) % c.n = f.head := hf.2.2.2.symm
  have hold : ∀ k ∈ List.range f.count,
      (f.push c b).cell ((f.tail + k) % c.n) = f.cell ((f.tail + k) % c.n) := fun k hk =>
    Fifo.cell_push_other c f b (Fifo.live_ne_head hf hroom (List.mem_range.mp hk))
  change (List.range (f.count + 1)).map (fun k => (f.push c b).cell ((f.tail + k) % c.n)) = _
  rw [List.range_succ, List.map_append, List.map_congr_left hold, List.map_singleton, hhead, Fifo.cell_push_head]
  rfl

/-- The contents of a non-empty FIFO are its front and what a pop leaves (R88, R17). -/
theorem Fifo.contents_pop (hf : f.Inv c) (hne : f.count ≠ 0) :
    f.contents c = f.front :: (f.pop c).contents c := by
  obtain ⟨m, hm⟩ := Nat.exists_eq_succ_of_ne_zero hne
  have ht : f.tail % c.n = f.tail := Nat.mod_eq_of_lt hf.2.2.1
  unfold Fifo.contents
  rw [hm, List.range_succ_eq_map, List.map_cons, List.map_map]
  simp only [Fifo.pop, hm, Nat.succ_eq_add_one, Nat.add_sub_cancel, Nat.add_zero, ht, Fifo.front, List.cons.injEq,
    true_and, Config.next]
  refine List.map_congr_left fun k _ => ?_
  have : (f.tail + Nat.succ k) % c.n = ((f.tail + 1) % c.n + k) % c.n := by
    rw [Nat.mod_add_mod]
    congr 1
    omega
  simp only [Function.comp, this]
  rfl

/-! ## The invariant -/

theorem Fifo.inv_reset (c : Config) : Fifo.Inv c Fifo.reset := by
  have := c.nPos
  refine ⟨Nat.zero_le _, this, this, ?_⟩
  simp [Fifo.reset]

theorem Fifo.inv_push (hf : f.Inv c) (hroom : f.count ≠ c.n) (b : Byte) : (f.push c b).Inv c := by
  obtain ⟨hle, hh, ht, he⟩ := hf
  refine ⟨by simp only [Fifo.push]; omega, Nat.mod_lt _ c.nPos, ht, ?_⟩
  simp only [Fifo.push, Config.next]
  rw [he, Nat.mod_add_mod, Nat.add_assoc]

theorem Fifo.inv_pop (hf : f.Inv c) (hne : f.count ≠ 0) : (f.pop c).Inv c := by
  obtain ⟨hle, hh, ht, he⟩ := hf
  refine ⟨by simp only [Fifo.pop]; omega, hh, Nat.mod_lt _ c.nPos, ?_⟩
  simp only [Fifo.pop, Config.next]
  rw [Nat.mod_add_mod, he]
  congr 1
  omega

theorem Fifo.inv_clear (c : Config) (f : Fifo) : f.clear.Inv c := by
  have := c.nPos
  refine ⟨Nat.zero_le _, this, this, ?_⟩
  simp [Fifo.clear]

/-- A push keeps the live window written. -/
theorem Fifo.written_push (hf : f.Inv c) (hroom : f.count ≠ c.n) (hw : f.Written c) (b : Byte) :
    (f.push c b).Written c := by
  intro k hk
  change k < f.count + 1 at hk
  change (Mem.read (Mem.write f.mem f.head b) ((f.tail + k) % c.n)).isSome = true
  rcases Nat.lt_succ_iff_lt_or_eq.mp hk with hlt | rfl
  · rw [Mem.read_write_other _ _ (Fifo.live_ne_head hf hroom hlt)]
    exact hw k hlt
  · rw [← hf.2.2.2, Mem.read_write_same]
    rfl

/-- A pop keeps the live window written. -/
theorem Fifo.written_pop (hw : f.Written c) : (f.pop c).Written c := by
  intro k hk
  change k < f.count - 1 at hk
  change (Mem.read f.mem (((f.tail + 1) % c.n + k) % c.n)).isSome = true
  rw [Nat.mod_add_mod, Nat.add_assoc, Nat.add_comm 1 k]
  exact hw (k + 1) (by omega)

/-! ## The operations on the state -/

/-- Everything `INSERT` can do: dropped, or pushed. -/
theorem State.insertOp_cases (c : Config) (s : State) (b : Byte) :
    (s.fifo.count = c.n ∧ s.insertOp c b =
      { s with out := { s.out with wrOk := some false },
               trace := s.trace ++ [.insert b false, .raised (.overflow b)] }) ∨
    (s.fifo.count ≠ c.n ∧ s.insertOp c b =
      { s with out := { s.out with wrOk := some true }, fifo := s.fifo.push c b,
               trace := s.trace ++ [.insert b true] }) := by
  by_cases h : s.fifo.count = c.n
  · exact .inl ⟨h, by simp [State.insertOp, State.store, Fifo.isFull, h, State.log, State.raise]⟩
  · exact .inr ⟨h, by simp [State.insertOp, State.store, Fifo.isFull, h, State.log]⟩

/-- Everything `REMOVE` can do: an underflow, or a pop. -/
theorem State.removeOp_cases (c : Config) (s : State) :
    (s.fifo.count = 0 ∧ s.removeOp c = s.underflowRead) ∨
    (s.fifo.count ≠ 0 ∧ s.removeOp c =
      { s with out := { s.out with rdData := some s.fifo.front }, fifo := s.fifo.pop c }) := by
  by_cases h : s.fifo.count = 0
  · exact .inl ⟨h, by simp [State.removeOp, Fifo.isEmpty, h]⟩
  · exact .inr ⟨h, by simp [State.removeOp, Fifo.isEmpty, h]⟩

/-- Everything `PEEK` can do: an underflow, or a read. -/
theorem State.peekOp_cases (s : State) :
    (s.fifo.count = 0 ∧ s.peekOp = s.underflowRead) ∨
    (s.fifo.count ≠ 0 ∧ s.peekOp = { s with out := { s.out with rdData := some s.fifo.front } }) := by
  by_cases h : s.fifo.count = 0
  · exact .inl ⟨h, by simp [State.peekOp, Fifo.isEmpty, h]⟩
  · exact .inr ⟨h, by simp [State.peekOp, Fifo.isEmpty, h]⟩

/-- The order of a simultaneous pair (R53). -/
theorem State.insertRemoveOp_cases (c : Config) (s : State) (b : Byte) :
    (s.fifo.count = 0 ∧ s.insertRemoveOp c b = (s.removeOp c).insertOp c b) ∨
    (s.fifo.count ≠ 0 ∧ s.insertRemoveOp c b = (s.insertOp c b).removeOp c) := by
  by_cases h : s.fifo.count = 0
  · exact .inl ⟨h, by simp [State.insertRemoveOp, Fifo.isEmpty, h]⟩
  · exact .inr ⟨h, by simp [State.insertRemoveOp, Fifo.isEmpty, h]⟩

/-! ## Arrivals between two atomic steps -/

/-- Everything a store can do: dropped, or pushed. -/
theorem State.store_cases (c : Config) (s : State) (b : Byte) :
    (s.fifo.count = c.n ∧ s.store c b = { s with trace := s.trace ++ [.insert b false, .raised (.overflow b)] }) ∨
    (s.fifo.count ≠ c.n ∧ s.store c b =
      { s with fifo := s.fifo.push c b, trace := s.trace ++ [.insert b true] }) := by
  by_cases h : s.fifo.count = c.n
  · exact .inl ⟨h, by simp [State.store, Fifo.isFull, h, State.log, State.raise]⟩
  · exact .inr ⟨h, by simp [State.store, Fifo.isFull, h, State.log]⟩

/-- A property that taking the arrivals from the inputs keeps and that every store keeps is kept by a gap. -/
theorem State.gap_induction {P : State → Prop} (c : Config) (s : State)
    (hin : ∀ gs d, P { s with gaps := gs, draws := d }) (hstore : ∀ u b, P u → P (u.store c b)) : P (s.gap c) := by
  have hfold : ∀ (bs : List Byte) (u : State), P u → P (bs.foldl (State.store c) u) := by
    intro bs
    induction bs with
    | nil => exact fun _ h => h
    | cons b bs ih => exact fun u h => ih _ (hstore u b h)
  unfold State.gap State.gapBytes
  cases s.gaps with
  | nil => exact hfold _ _ (hin s.gaps (s.draws + 1))
  | cons bs rest => exact hfold _ _ (hin rest s.draws)

/-- A gap keeps the FIFO invariant. -/
theorem State.gap_inv {s : State} (hf : s.fifo.Inv c) : (s.gap c).fifo.Inv c := by
  refine State.gap_induction (P := fun u => u.fifo.Inv c) c s (fun _ _ => hf) fun u b hu => ?_
  rcases u.store_cases c b with ⟨-, h⟩ | ⟨hne, h⟩ <;> rw [h]
  · exact hu
  · exact Fifo.inv_push hu hne b

/-- A gap keeps the storage canonical. -/
theorem State.gap_wf {s : State} (hf : s.fifo.Inv c) (hw : Mem.wf c.n s.fifo.mem = true) :
    Mem.wf c.n (s.gap c).fifo.mem = true := by
  refine (State.gap_induction (P := fun u => u.fifo.Inv c ∧ Mem.wf c.n u.fifo.mem = true) c s
    (fun _ _ => ⟨hf, hw⟩) fun u b hu => ?_).2
  rcases u.store_cases c b with ⟨-, h⟩ | ⟨hne, h⟩ <;> rw [h]
  · exact hu
  · exact ⟨Fifo.inv_push hu.1 hne b, Mem.write_wf b hu.1.2.1 hu.2⟩

/-- A gap keeps the live window written. -/
theorem State.gap_written {s : State} (hf : s.fifo.Inv c) (hw : s.fifo.Written c) : (s.gap c).fifo.Written c := by
  refine (State.gap_induction (P := fun u => u.fifo.Inv c ∧ u.fifo.Written c) c s
    (fun _ _ => ⟨hf, hw⟩) fun u b hu => ?_).2
  rcases u.store_cases c b with ⟨-, h⟩ | ⟨hne, h⟩ <;> rw [h]
  · exact hu
  · exact ⟨Fifo.inv_push hu.1 hne b, Fifo.written_push hu.1 hne hu.2 b⟩

/-- A gap leaves items of the producer's `INSERT`s in the trace and no others. -/
theorem State.gap_trace (c : Config) (s : State) :
    ∃ items : List TraceItem, (s.gap c).trace = s.trace ++ items ∧ ∀ x ∈ items, x.isArrival = true := by
  refine State.gap_induction (P := fun u => ∃ items : List TraceItem, u.trace = s.trace ++ items ∧
    ∀ x ∈ items, x.isArrival = true) c s (fun _ _ => ⟨[], by simp, by simp⟩) ?_
  rintro u b ⟨items, hi, ha⟩
  rcases u.store_cases c b with ⟨-, h⟩ | ⟨-, h⟩ <;> rw [h]
  · refine ⟨items ++ [.insert b false, .raised (.overflow b)], by simp [hi], fun x hx => ?_⟩
    rcases List.mem_append.mp hx with hx | hx
    · exact ha x hx
    · rcases List.mem_pair.mp hx with rfl | rfl <;> rfl
  · refine ⟨items ++ [.insert b true], by simp [hi], fun x hx => ?_⟩
    rcases List.mem_append.mp hx with hx | hx
    · exact ha x hx
    · rw [List.mem_singleton.mp hx]; rfl

/-- A reading of the trace that skips the producer's items sees nothing of a gap. -/
theorem filterMap_arrivals {α : Type} {f : TraceItem → Option α} (hf : ∀ x, x.isArrival = true → f x = none)
    {items : List TraceItem} (h : ∀ x ∈ items, x.isArrival = true) : items.filterMap f = [] :=
  List.filterMap_eq_nil_iff.mpr fun x hx => hf x (h x hx)

@[simp] theorem loopTrace_append (xs ys : List TraceItem) : loopTrace (xs ++ ys) = loopTrace xs ++ loopTrace ys := by
  simp [loopTrace]

@[simp] theorem State.loopTrace_gap (c : Config) (s : State) : loopTrace (s.gap c).trace = loopTrace s.trace := by
  obtain ⟨items, h, ha⟩ := s.gap_trace c
  rw [h, loopTrace_append]
  simpa [loopTrace] using ha

@[simp] theorem State.acceptedEvents_gap (c : Config) (s : State) :
    acceptedEvents (s.gap c).trace = acceptedEvents s.trace := by
  obtain ⟨items, h, ha⟩ := s.gap_trace c
  rw [h, acceptedEvents, List.filterMap_append, filterMap_arrivals _ ha, List.append_nil]
  · rfl
  · rintro (_ | _ | _ | _ | _ | _ | _ | _) hx <;> first | rfl | cases hx

@[simp] theorem State.receivedEvents_gap (c : Config) (s : State) :
    receivedEvents (s.gap c).trace = receivedEvents s.trace := by
  obtain ⟨items, h, ha⟩ := s.gap_trace c
  rw [h, receivedEvents, List.filterMap_append, filterMap_arrivals _ ha, List.append_nil]
  · rfl
  · rintro (_ | _ | _ | _ | _ | _ | _ | _) hx <;> first | rfl | cases hx

@[simp] theorem State.sentBytes_gap (c : Config) (s : State) : sentBytes (s.gap c).trace = sentBytes s.trace := by
  obtain ⟨items, h, ha⟩ := s.gap_trace c
  rw [h, sentBytes, List.filterMap_append, filterMap_arrivals _ ha, List.append_nil]
  · rfl
  · rintro (_ | _ | _ | _ | _ | _ | _ | _) hx <;> first | rfl | cases hx

/-- With the arrivals listed, a gap takes the first list and offers its bytes in order. -/
theorem State.gap_listed (c : Config) {s : State} {g : List Byte} {rest : List (List Byte)} (h : s.gaps = g :: rest) :
    (s.gap c).gaps = rest ∧ offeredBytes (s.gap c).trace = offeredBytes s.trace ++ g := by
  have hfold : ∀ (bs : List Byte) (u : State), (bs.foldl (State.store c) u).gaps = u.gaps ∧
      offeredBytes (bs.foldl (State.store c) u).trace = offeredBytes u.trace ++ bs := by
    intro bs
    induction bs with
    | nil => simp
    | cons b bs ih =>
      intro u
      obtain ⟨h1, h2⟩ := ih (u.store c b)
      refine ⟨by simpa using h1, ?_⟩
      rw [List.foldl_cons, h2]
      rcases u.store_cases c b with ⟨-, h⟩ | ⟨-, h⟩ <;> simp [h, offeredBytes]
  simp only [State.gap, State.gapBytes, h]
  exact hfold g { s with gaps := rest }

/-! ## What the FIFO received -/

/-- Nothing removed and nothing received. -/
theorem Receives.refl {s : State} (hf : s.fifo.Inv s.config) : Receives 0 s s := by
  refine ⟨[], by simp, by simp, ?_, ?_, by simp, fun _ _ => rfl⟩
  · exact (Nat.mod_eq_of_lt hf.2.2.1).symm
  · exact (Nat.mod_eq_of_lt hf.2.1).symm

/-- One more store. -/
theorem Receives.store {k : Nat} {s u : State} (hu : u.fifo.Inv s.config) (h : Receives k s u) (b : Byte) :
    Receives k s (u.store s.config b) := by
  obtain ⟨more, h1, h2, h3, h4, h5, h6⟩ := h
  rcases u.store_cases s.config b with ⟨-, e⟩ | ⟨hne, e⟩ <;> rw [e]
  · exact ⟨more, by simp [acceptedBytes] at h1 ⊢; exact h1, h2, h3, h4, h5, h6⟩
  · refine ⟨more ++ [b], ?_, ?_, h3, ?_, ?_, fun a ha => ?_⟩
    · simp only [acceptedBytes, List.filterMap_append] at h1 ⊢
      rw [h1]
      simp
    · rw [Fifo.contents_push hu hne, h2, List.append_assoc]
    · simp only [Fifo.push, Config.next, h4, Nat.mod_add_mod, List.length_append, List.length_singleton, Nat.add_assoc]
    · simp only [Fifo.push, List.length_append, List.length_singleton]
      omega
    · have hhead : a ≠ u.fifo.head := by
        rw [h4]
        exact ha more.length (by simp)
      simp only [Fifo.push]
      rw [Mem.read_write_other _ _ hhead]
      exact h6 a fun j hj => ha j (by simp only [List.length_append, List.length_singleton]; omega)

/-- A gap receives what arrives there. -/
theorem Receives.gap {k : Nat} {s u : State} (hu : u.fifo.Inv s.config) (h : Receives k s u) :
    Receives k s (u.gap s.config) := by
  refine (State.gap_induction (P := fun v => v.fifo.Inv s.config ∧ Receives k s v) s.config u
    (fun _ _ => ⟨hu, h⟩) fun v b hv => ⟨?_, hv.2.store hv.1 b⟩).2
  rcases v.store_cases s.config b with ⟨-, e⟩ | ⟨hne, e⟩ <;> rw [e]
  · exact hv.1
  · exact Fifo.inv_push hv.1 hne b

/-- Removing the oldest byte. -/
theorem Receives.pop {s u v : State} (hne : s.fifo.count ≠ 0) (hu : u.fifo.Inv s.config) (h : Receives 0 s u)
    (hv : v.fifo = u.fifo.pop s.config) (ht : acceptedBytes v.trace = acceptedBytes u.trace) : Receives 1 s v := by
  obtain ⟨more, h1, h2, h3, h4, h5, h6⟩ := h
  have hne' : u.fifo.count ≠ 0 := by omega
  have hlen : (s.fifo.contents s.config).length = s.fifo.count := by simp [Fifo.contents]
  refine ⟨more, ht.trans h1, ?_, ?_, by rw [hv]; exact h4, ?_, by rw [hv]; exact h6⟩
  · rw [Fifo.contents_pop hu hne', List.drop_zero] at h2
    rw [hv]
    cases hs : s.fifo.contents s.config with
    | nil => simp [hs] at hlen; omega
    | cons x xs => rw [hs] at h2; exact (List.cons.inj h2).2
  · simp only [hv, Fifo.pop, Config.next, h3, Nat.add_zero, Nat.mod_add_mod]
  · simp only [hv, Fifo.pop]
    omega

end Sys2Proof.Machine
end

