-- ==== Sys2Proof/Tests/Slice0.lean ====
section
/-! SUPPORT. The model's own tests: the smoke test of WellFormed, decoding of words written out from the tables of
30_encoding, vectors of 95_test_vectors one step at a time, and a witness for the hypotheses of every statement. -/

namespace Sys2Proof.Tests

open Sys2Proof.Machine

/-! ## Helpers -/

/-- The next state an outcome holds; a stop counts as reset. -/
def after (o : Host.Outcome State Fault Refusal) : State :=
  match o with
  | .next t => t
  | _ => State.reset

/-- Whether an outcome is a next state. -/
def runs (o : Host.Outcome State Fault Refusal) : Bool :=
  match o with
  | .next _ => true
  | _ => false

theorem exists_next_of_runs {o : Host.Outcome State Fault Refusal} (h : runs o = true) : ∃ t, o = .next t := by
  cases o with
  | next t => exact ⟨t, rfl⟩
  | fault r => cases h
  | refused r => cases h

/-- A small FIFO holding bytes from cell 0 on. -/
def holding (bs : List Byte) : Fifo :=
  { mem := (List.range bs.length).zip bs, head := bs.length, tail := 0, count := bs.length }

/-- Reset with a parser state `idx, sysex, explen, open_cin, ev_d` as 95_test_vectors writes it. -/
def withParser (idx : BitVec 2) (sysex : Bool) (explen : BitVec 2) (openCin : Nibble) (e0 e1 e2 : Byte) : State :=
  { State.reset with parser := ⟨e0, e1, e2, idx, sysex, explen, openCin⟩ }

/-- Reset with a last status. -/
def withLast (b : Byte) : State := { State.reset with ser := ⟨true, b⟩ }

/-! ## WellFormed smoke test -/

/-- The check on `REMOVE` refuses the pair under its second name. -/
theorem test_wellFormed_refuses_pair : ¬ (Instr.remove true 0).WellFormed := by decide

theorem test_wellFormed_accepts_remove : (Instr.remove false 0xFF).WellFormed := by decide

/-! ## Decoding: words written out from 30_encoding -/

/-- R76: `0 1 r dddddddd`. -/
theorem test_decode_insert : decode .request 0b01010010000#32 = .ok (.insert false 0x90) := by decide

theorem test_decode_insert_pair : decode .request 0b01101010101#32 = .ok (.insert true 0x55) := by decide

/-- R76: `0 w 1 dddddddd`. -/
theorem test_decode_remove : decode .request 0b00111111111#32 = .ok (.remove false 0xFF) := by decide

/-- R76: `1 w r dddddddd`, `clr` tested first. -/
theorem test_decode_clear : decode .request 0b11000000001#32 = .ok (.clear true false 0x01) := by decide

theorem test_decode_idle : decode .request 0b00011111111#32 = .error .noRequest := by decide

/-- R76: the query rows match every vector. -/
theorem test_decode_peek : decode .rdData 0b10100000111#32 = .ok (.peek true false true 0x07) := by decide

theorem test_decode_count : decode .count 0#32 = .ok (.count false false false 0) := by decide

theorem test_decode_isEmpty : decode .empty 0b01000000000#32 = .ok (.isEmpty false true false 0) := by decide

theorem test_decode_isFull : decode .full 0b00100000000#32 = .ok (.isFull false false true 0) := by decide

/-- R62: `0xF8..0xFF`. -/
theorem test_decode_rt : decode .feedByte 0xFF#32 = .ok (.feedRt 7) := by decide

theorem test_decode_sox : decode .feedByte 0xF0#32 = .ok .feedSox := by decide

theorem test_decode_eox : decode .feedByte 0xF7#32 = .ok .feedEox := by decide

theorem test_decode_st8 : decode .feedByte 0x80#32 = .ok (.feedSt8 0) := by decide

theorem test_decode_st9 : decode .feedByte 0x91#32 = .ok (.feedSt9 1) := by decide

theorem test_decode_stA : decode .feedByte 0xA2#32 = .ok (.feedStA 2) := by decide

theorem test_decode_stB : decode .feedByte 0xB3#32 = .ok (.feedStB 3) := by decide

theorem test_decode_stC : decode .feedByte 0xC4#32 = .ok (.feedStC 4) := by decide

theorem test_decode_stD : decode .feedByte 0xD5#32 = .ok (.feedStD 5) := by decide

theorem test_decode_stE : decode .feedByte 0xE6#32 = .ok (.feedStE 6) := by decide

theorem test_decode_sc1 : decode .feedByte 0xF1#32 = .ok .feedSc1 := by decide

theorem test_decode_sc2 : decode .feedByte 0xF2#32 = .ok .feedSc2 := by decide

theorem test_decode_sc3 : decode .feedByte 0xF3#32 = .ok .feedSc3 := by decide

theorem test_decode_sc4 : decode .feedByte 0xF4#32 = .ok .feedSc4 := by decide

theorem test_decode_sc5 : decode .feedByte 0xF5#32 = .ok .feedSc5 := by decide

theorem test_decode_sc6 : decode .feedByte 0xF6#32 = .ok .feedSc6 := by decide

theorem test_decode_data : decode .feedByte 0x7F#32 = .ok (.feedData 0x7F) := by decide

theorem test_decode_ser0 : decode .serEvt 0x7F4090A0#32 = .ok (.ser0 0xA 0x90 0x40 0x7F) := by decide

theorem test_decode_ser1 : decode .serEvt 0x7F4090A1#32 = .ok (.ser1 0xA 0x90 0x40 0x7F) := by decide

theorem test_decode_ser2 : decode .serEvt 0x7F4090A2#32 = .ok (.ser2 0xA 0x90 0x40 0x7F) := by decide

theorem test_decode_ser3 : decode .serEvt 0x7F4090A3#32 = .ok (.ser3 0xA 0x90 0x40 0x7F) := by decide

theorem test_decode_ser4 : decode .serEvt 0x7F4090A4#32 = .ok (.ser4 0xA 0x90 0x40 0x7F) := by decide

theorem test_decode_ser5 : decode .serEvt 0x7F4090A5#32 = .ok (.ser5 0xA 0x90 0x40 0x7F) := by decide

theorem test_decode_ser6 : decode .serEvt 0x7F4090A6#32 = .ok (.ser6 0xA 0x90 0x40 0x7F) := by decide

theorem test_decode_ser7 : decode .serEvt 0x7F4090A7#32 = .ok (.ser7 0xA 0x90 0x40 0x7F) := by decide

theorem test_decode_ser8 : decode .serEvt 0x7F4090A8#32 = .ok (.ser8 0xA 0x90 0x40 0x7F) := by decide

theorem test_decode_ser9 : decode .serEvt 0x7F4090A9#32 = .ok (.ser9 0xA 0x90 0x40 0x7F) := by decide

theorem test_decode_ser10 : decode .serEvt 0x7F4090AA#32 = .ok (.ser10 0xA 0x90 0x40 0x7F) := by decide

theorem test_decode_ser11 : decode .serEvt 0x7F4090AB#32 = .ok (.ser11 0xA 0x90 0x40 0x7F) := by decide

theorem test_decode_ser12 : decode .serEvt 0x7F4090AC#32 = .ok (.ser12 0xA 0x90 0x40 0x7F) := by decide

theorem test_decode_ser13 : decode .serEvt 0x7F4090AD#32 = .ok (.ser13 0xA 0x90 0x40 0x7F) := by decide

theorem test_decode_ser14 : decode .serEvt 0x7F4090AE#32 = .ok (.ser14 0xA 0x90 0x40 0x7F) := by decide

theorem test_decode_ser15 : decode .serEvt 0x7F4090AF#32 = .ok (.ser15 0xA 0x90 0x40 0x7F) := by decide

theorem test_decode_stepPump1 : decode .phase 0#32 = .ok .stepPump1 := by decide

theorem test_decode_stepCfg : decode .phase 1#32 = .ok .stepCfg := by decide

theorem test_decode_stepDrainA : decode .phase 2#32 = .ok .stepDrainA := by decide

theorem test_decode_stepDrainB : decode .phase 3#32 = .ok .stepDrainB := by decide

theorem test_decode_stepPump2 : decode .phase 4#32 = .ok .stepPump2 := by decide

/-- R25, U10: the codes 5, 6, 7 are never taken. -/
theorem test_decode_phase5 : decode .phase 5#32 = .error .phaseNeverTaken := by decide

theorem test_decode_reset : decode .rst 1#32 = .ok .reset := by decide

theorem test_decode_tooWide : decode .feedByte 0x100#32 = .error .tooWide := by decide

/-- R64: `(9; 90 40 7F)` is the word `0x7F409009`. -/
theorem test_event_word : eventWord ⟨0, 9, 0x90, 0x40, 0x7F⟩ = 0x7F409009#32 := by decide

/-! ## Rows placed for the first step after reset -/

theorem test_place_insert : runs (step (State.reset.withFetchWord 16 656)) = true := by decide

theorem test_place_feedEox : runs (step (State.reset.withFetchWord 8 247)) = true := by decide

theorem test_place_feedData : runs (step (State.reset.withFetchWord 8 64)) = true := by decide

theorem test_place_ser9 : runs (step (State.reset.withFetchWord 32 2134937609)) = true := by decide

theorem test_place_pump1 : runs (step (State.reset.withFetchWord 8 0)) = true := by decide

theorem test_place_drainB : runs (step (State.reset.withFetchWord 8 3)) = true := by decide

theorem test_place_pump2 : runs (step (State.reset.withFetchWord 8 4)) = true := by decide

theorem test_place_reset : runs (step (State.reset.withFetchWord 1 1)) = true := by decide

/-! ## 95_test_vectors 2.1: async_fifo_spsc -/

/-- F2: `INS 90` gives `1/0/1`. -/
theorem test_insert_F2 : (after (exec (.insert false 0x90) State.reset)).fifo = ⟨[(0, 0x90)], 1, 0, 1⟩ := by decide

/-- F5: the 129th insert is rejected and changes nothing. -/
theorem test_insert_full_F5 : let s := { State.reset with fifo := ⟨[(0, 0x00)], 0, 0, 128⟩ }
    let t := after (exec (.insert false 0x55) s)
    t.fifo = s.fifo ∧ t.out.wrOk = some false := by decide

/-- F3: `REM -> 90`, then `1/1/0`. -/
theorem test_remove_F3 : let t := after (exec (.remove false 0) { State.reset with fifo := holding [0x90] })
    t.out.rdData = some 0x90 ∧ t.fifo.tail = 1 ∧ t.fifo.count = 0 := by decide

/-- F8: `Underflow`, state unchanged. -/
theorem test_remove_empty_F8 : let t := after (exec (.remove false 0) State.reset)
    t.fifo = State.reset.fifo ∧ t.trace = [.raised .underflow] := by decide

/-- F2: `PEEK -> 90` has no side effect. -/
theorem test_peek_F2 : let t := after (exec (.peek false false false 0) { State.reset with fifo := holding [0x90] })
    t.out.rdData = some 0x90 ∧ t.fifo = holding [0x90] := by decide

theorem test_count_F2 : (after (exec (.count false false false 0) { State.reset with fifo := holding [0x90] })).out.count = some 1 := by decide

theorem test_isEmpty_F1 : (after (exec (.isEmpty false false false 0) State.reset)).out.empty = some true := by decide

theorem test_isFull_F5 : (after (exec (.isFull false false false 0) { State.reset with fifo := ⟨[], 0, 0, 128⟩ })).out.full = some true := by decide

/-- F13: `CLR` from `1/0/1` gives `0/0/0`. -/
theorem test_clear_F13 : let t := after (exec (.clear false false 0) { State.reset with fifo := holding [0x90] })
    t.fifo.head = 0 ∧ t.fifo.tail = 0 ∧ t.fifo.count = 0 := by decide

/-- F10: both take effect, `2/1/1`. -/
theorem test_pair_F10 : let t := after (exec (.insert true 0x40) { State.reset with fifo := holding [0x90] })
    t.fifo.head = 2 ∧ t.fifo.tail = 1 ∧ t.fifo.count = 1 ∧ t.out.rdData = some 0x90 := by decide

/-- F11: the insert is rejected on the state before, `0/1/127`. -/
theorem test_pair_full_F11 : let t := after (exec (.insert true 0x55) { State.reset with fifo := ⟨[(0, 7)], 0, 0, 128⟩ })
    t.fifo.head = 0 ∧ t.fifo.tail = 1 ∧ t.fifo.count = 127 ∧ t.out.wrOk = some false := by decide

/-- F12: the insert is accepted, `1/0/1`. -/
theorem test_pair_empty_F12 : let t := after (exec (.remove true 0x55) State.reset)
    t.fifo.head = 1 ∧ t.fifo.tail = 0 ∧ t.fifo.count = 1 ∧ t.out.wrOk = some true := by decide

/-- F15: with `N = 1` the indices stay 0. -/
theorem test_capacity_one_F15 : (Fifo.reset.push { Config.hw with n := 1, nPos := by decide } 0x11).head = 0 ∧
    (Fifo.reset.push { Config.hw with n := 1, nPos := by decide } 0x11).isFull { Config.hw with n := 1, nPos := by decide } = true := by decide

/-! ## 95_test_vectors 2.2: midi_byte_parser, one step each -/

/-- P30: the guard does not apply to real-time bytes. -/
theorem test_feedRt_P30 : let t := after (exec (.feedRt 0) (withParser 3 false 1 15 0xF2 0x10 0x20))
    t.out.evt = some (some ⟨0, 15, 0xF8, 0, 0⟩) ∧ t.parser = (withParser 3 false 1 15 0xF2 0x10 0x20).parser := by decide

/-- P11: `F0` after a completed message goes to position 1. -/
theorem test_feedSox_P11 : let t := after (exec .feedSox (withParser 1 false 3 9 0x90 0x40 0x7F))
    t.out.evt = some none ∧ t.parser = (withParser 2 true 3 9 0x90 0xF0 0x7F).parser := by decide

/-- P14: step 7c fires on `F0` with a stale expected length. -/
theorem test_feedSox_P14 : let t := after (exec .feedSox (withParser 1 false 2 12 0xC0 0x05 0))
    t.out.evt = some (some ⟨0, 12, 0xC0, 0xF0, 0⟩) ∧ t.parser = (withParser 1 true 2 12 0xC0 0xF0 0).parser := by decide

/-- P12: `F7` inside a channel message closes it as Frame-Type 7. -/
theorem test_feedEox_P12 : let t := after (exec .feedEox (withParser 2 false 3 9 0x90 0x40 0))
    t.out.evt = some (some ⟨0, 7, 0x90, 0x40, 0xF7⟩) ∧ t.parser = (withParser 0 false 3 9 0x90 0x40 0xF7).parser := by decide

/-- P10: a lone `F7` is emitted. -/
theorem test_feedEox_P10 : let t := after (exec .feedEox (State.reset))
    t.out.evt = some (some ⟨0, 5, 0xF7, 0, 0⟩) ∧ t.parser = (withParser 0 false 0 0 0xF7 0 0).parser := by decide

/-- R106, R63: nibble 8; whatever was buffered is abandoned, `sysex` stays. -/
theorem test_feedSt8 : let t := after (exec (.feedSt8 0) (withParser 2 true 1 15 0xF2 0x10 0x20))
    t.out.evt = some none ∧ t.parser = (withParser 1 true 3 0x8 0x80 0x10 0x20).parser := by decide

/-- R106, R63: nibble 9; whatever was buffered is abandoned, `sysex` stays. -/
theorem test_feedSt9 : let t := after (exec (.feedSt9 1) (withParser 2 true 1 15 0xF2 0x10 0x20))
    t.out.evt = some none ∧ t.parser = (withParser 1 true 3 0x9 0x91 0x10 0x20).parser := by decide

/-- R106, R63: nibble A; whatever was buffered is abandoned, `sysex` stays. -/
theorem test_feedStA : let t := after (exec (.feedStA 2) (withParser 2 true 1 15 0xF2 0x10 0x20))
    t.out.evt = some none ∧ t.parser = (withParser 1 true 3 0xA 0xA2 0x10 0x20).parser := by decide

/-- R106, R63: nibble B; whatever was buffered is abandoned, `sysex` stays. -/
theorem test_feedStB : let t := after (exec (.feedStB 3) (withParser 2 true 1 15 0xF2 0x10 0x20))
    t.out.evt = some none ∧ t.parser = (withParser 1 true 3 0xB 0xB3 0x10 0x20).parser := by decide

/-- R106, R63: nibble C; whatever was buffered is abandoned, `sysex` stays. -/
theorem test_feedStC : let t := after (exec (.feedStC 4) (withParser 2 true 1 15 0xF2 0x10 0x20))
    t.out.evt = some none ∧ t.parser = (withParser 1 true 2 0xC 0xC4 0x10 0x20).parser := by decide

/-- R106, R63: nibble D; whatever was buffered is abandoned, `sysex` stays. -/
theorem test_feedStD : let t := after (exec (.feedStD 5) (withParser 2 true 1 15 0xF2 0x10 0x20))
    t.out.evt = some none ∧ t.parser = (withParser 1 true 2 0xD 0xD5 0x10 0x20).parser := by decide

/-- R106, R63: nibble E; whatever was buffered is abandoned, `sysex` stays. -/
theorem test_feedStE : let t := after (exec (.feedStE 6) (withParser 2 true 1 15 0xF2 0x10 0x20))
    t.out.evt = some none ∧ t.parser = (withParser 1 true 3 0xE 0xE6 0x10 0x20).parser := by decide

/-- P19 and R106: emitted at once, `idx` left at 1. -/
theorem test_feedSc1 : let t := after (exec .feedSc1 (State.reset))
    t.out.evt = some (some ⟨0, 15, 0xF1, 0, 0⟩) ∧ t.parser = (withParser 1 false 1 15 0xF1 0 0).parser := by decide

/-- P19 and R106: emitted at once, `idx` left at 1. -/
theorem test_feedSc2 : let t := after (exec .feedSc2 (State.reset))
    t.out.evt = some (some ⟨0, 15, 0xF2, 0, 0⟩) ∧ t.parser = (withParser 1 false 1 15 0xF2 0 0).parser := by decide

/-- P19 and R106: emitted at once, `idx` left at 1. -/
theorem test_feedSc3 : let t := after (exec .feedSc3 (State.reset))
    t.out.evt = some (some ⟨0, 15, 0xF3, 0, 0⟩) ∧ t.parser = (withParser 1 false 1 15 0xF3 0 0).parser := by decide

/-- P19 and R106: emitted at once, `idx` left at 1. -/
theorem test_feedSc4 : let t := after (exec .feedSc4 (State.reset))
    t.out.evt = some (some ⟨0, 15, 0xF4, 0, 0⟩) ∧ t.parser = (withParser 1 false 1 15 0xF4 0 0).parser := by decide

/-- P19 and R106: emitted at once, `idx` left at 1. -/
theorem test_feedSc5 : let t := after (exec .feedSc5 (State.reset))
    t.out.evt = some (some ⟨0, 15, 0xF5, 0, 0⟩) ∧ t.parser = (withParser 1 false 1 15 0xF5 0 0).parser := by decide

/-- P19 and R106: emitted at once, `idx` left at 1. -/
theorem test_feedSc6 : let t := after (exec .feedSc6 (State.reset))
    t.out.evt = some (some ⟨0, 15, 0xF6, 0, 0⟩) ∧ t.parser = (withParser 1 false 1 15 0xF6 0 0).parser := by decide

/-- P2: the last byte of a running-status message. -/
theorem test_feedData_P2 : let t := after (exec (.feedData 0x00) (withParser 2 false 3 9 0x90 0x41 0x7F))
    t.out.evt = some (some ⟨0, 9, 0x90, 0x41, 0⟩) ∧ t.parser = (withParser 1 false 3 9 0x90 0x41 0).parser := by decide

/-- P13: the last byte raises `ParserOverrun`, then `ProtocolViolation(30)`. -/
theorem test_feedData_P13 : let t := after (exec (.feedData 0x30) (withParser 3 false 1 15 0xF2 0x10 0x20))
    t.parser = (withParser 0 false 1 15 0xF2 0x10 0x20).parser ∧
      t.trace = [.raised .parserOverrun, .raised (.protocolViolation 0x30)] := by decide

/-- P16b: the other reading of a status byte inside System Exclusive. -/
theorem test_status_in_sysex_P16b : (feedAll { Config.hw with statusClearsSysex := true } Parser.reset [0xF0, 0x01, 0x90, 0x40, 0x7F]).2 =
    [⟨0, 9, 0x90, 0x40, 0x7F⟩] := by decide

/-- P7, X4: three events (C2). -/
theorem test_sysex_seven_bytes_P7 : (feedAll .hw Parser.reset [0xF0, 1, 2, 3, 4, 5, 0xF7]).2 =
    [⟨0, 4, 0xF0, 1, 2⟩, ⟨0, 4, 3, 4, 5⟩, ⟨0, 5, 0xF7, 0, 0⟩] := by decide

/-- P22: with `CARRY_INDEX = 0` the byte `F0` itself is emitted. -/
theorem test_carry_zero_P22 : (feedAll { Config.hw with carryIndex := 0 } Parser.reset [0xF6, 0xF0]).2 =
    [⟨0, 15, 0xF6, 0, 0⟩, ⟨0, 15, 0xF0, 0, 0⟩] := by decide

/-! ## 95_test_vectors 2.3: midi_frame_serializer -/

/-- S7: one byte, state unchanged. -/
theorem test_ser0_S7 : let t := after (exec (.ser0 0 0xAA 0xBB 0xCC) (State.reset))
    t.out.ser = some [0xAA] ∧ t.ser = Serializer.reset := by decide

/-- S7b: emitted even when equal to the last status. -/
theorem test_ser1_S7b : let t := after (exec (.ser1 0 0x90 0xBB 0xCC) (withLast 0x90))
    t.out.ser = some [0x90] ∧ t.ser = ⟨true, 0x90⟩ := by decide

/-- S9: Frame-Type 2 is compressed. -/
theorem test_ser2_S9 : let t := after (exec (.ser2 0 0xF1 0x06 0) (withLast 0xF1))
    t.out.ser = some [0x06] ∧ t.ser = ⟨true, 0xF1⟩ := by decide

/-- S9. -/
theorem test_ser3_S9 : let t := after (exec (.ser3 0 0xF2 0x10 0x20) (withLast 0xF1))
    t.out.ser = some [0xF2, 0x10, 0x20] ∧ t.ser = ⟨true, 0xF2⟩ := by decide

/-- S5: never compressed. -/
theorem test_ser4_S5 : let t := after (exec (.ser4 0 0x03 0x04 0x05) (withLast 0x03))
    t.out.ser = some [0x03, 0x04, 0x05] ∧ t.ser = ⟨true, 0x03⟩ := by decide

/-- S17: fields beyond the byte count are ignored. -/
theorem test_ser5_S17 : let t := after (exec (.ser5 0 0xF7 0xFF 0xFF) (State.reset))
    t.out.ser = some [0xF7] ∧ t.ser = ⟨true, 0xF7⟩ := by decide

/-- S6: the last status takes a data byte. -/
theorem test_ser6_S6 : let t := after (exec (.ser6 0 0x03 0xF7 0) (withLast 0xF0))
    t.out.ser = some [0x03, 0xF7] ∧ t.ser = ⟨true, 0x03⟩ := by decide

/-- S13. -/
theorem test_ser7_S13 : let t := after (exec (.ser7 0 0x40 0x41 0xF7) (State.reset))
    t.out.ser = some [0x40, 0x41, 0xF7] ∧ t.ser = ⟨true, 0x40⟩ := by decide

/-- S11. -/
theorem test_ser8_S11 : let t := after (exec (.ser8 0 0x80 0x41 0) (withLast 0x80))
    t.out.ser = some [0x41, 0] ∧ t.ser = ⟨true, 0x80⟩ := by decide

/-- S8: the `cable` nibble is ignored. -/
theorem test_ser9_S8 : let t := after (exec (.ser9 3 0x90 0x40 0x7F) (State.reset))
    t.out.ser = some [0x90, 0x40, 0x7F] ∧ t.ser = ⟨true, 0x90⟩ := by decide

/-- S13: an ill-formed event loses its first byte. -/
theorem test_ser9_S13 : let t := after (exec (.ser9 0 0x40 0x41 0x42) (withLast 0x40))
    t.out.ser = some [0x41, 0x42] ∧ t.ser = ⟨true, 0x40⟩ := by decide

/-- S18. -/
theorem test_ser10_S18 : let t := after (exec (.ser10 0 0xA0 0x01 0x02) (withLast 0xB0))
    t.out.ser = some [0xA0, 0x01, 0x02] ∧ t.ser = ⟨true, 0xA0⟩ := by decide

/-- S18. -/
theorem test_ser11_S18 : let t := after (exec (.ser11 0 0xB0 0x07 0x64) (State.reset))
    t.out.ser = some [0xB0, 0x07, 0x64] ∧ t.ser = ⟨true, 0xB0⟩ := by decide

/-- S3. -/
theorem test_ser12_S3 : let t := after (exec (.ser12 0 0xC0 0x06 0) (withLast 0xC0))
    t.out.ser = some [0x06] ∧ t.ser = ⟨true, 0xC0⟩ := by decide

/-- S14: `d1 >> 4` is not compared, `d3` is ignored. -/
theorem test_ser13_S14 : let t := after (exec (.ser13 0 0x90 0x22 0x33) (withLast 0x90))
    t.out.ser = some [0x22] ∧ t.ser = ⟨true, 0x90⟩ := by decide

/-- S10. -/
theorem test_ser14_S10 : let t := after (exec (.ser14 0 0xE0 0x00 0x40) (State.reset))
    t.out.ser = some [0xE0, 0x00, 0x40] ∧ t.ser = ⟨true, 0xE0⟩ := by decide

/-- S16: never suppressed. -/
theorem test_ser15_S16 : let t := after (exec (.ser15 0 0xF8 0 0) (withLast 0xF8))
    t.out.ser = some [0xF8] ∧ t.ser = ⟨true, 0xF8⟩ := by decide

/-! ## 95_test_vectors 2.4: midi_transceiver_top, one phase action each -/

/-- B5: tick once, stop at 0. -/
theorem test_pump1_B5 : let t := after (exec .stepPump1 { State.reset with timerA := 2, timerB := 0 })
    t.timerA = 1 ∧ t.timerB = 0 ∧ t.phase = .cfg ∧ t.trace = [.pump] := by decide

/-- B2: unconfigured, no drain. -/
theorem test_cfg_B2 : let t := after (exec .stepCfg { State.reset with host := { cfg := [false] } })
    t.phase = .pump2 ∧ t.trace = [.configured false] := by decide

/-- B3: a refused event keeps its byte. -/
theorem test_drainA_B3 :
    let s := { State.reset with
      fifo := ⟨[(0, 0x40), (1, 0xF8), (2, 0x41)], 3, 1, 2⟩, host := { acc := [false] }, gaps := [[], []] }
    let t := after (exec .stepDrainA s)
    t.fifo = s.fifo ∧ t.parser = Parser.reset ∧ t.phase = .drainB ∧ t.timerA = 0 ∧
      t.trace = [.send ⟨0, 15, 0xF8, 0, 0⟩ false, .raised (.transmitNotReady ⟨0, 15, 0xF8, 0, 0⟩)] := by decide

/-- Program 1, the third byte of a Note-On, with R52: the FIFO is full, so the byte that arrives between the accepted
send and the `REMOVE` is rejected. -/
theorem test_drainA_commit :
    let s := { withParser 2 false 3 9 0x90 0x40 0 with
      fifo := ⟨[(2, 0x7F)], 2, 2, 128⟩, host := { acc := [true] }, gaps := [[], [], [0x55]] }
    let t := after (exec .stepDrainA s)
    t.fifo.tail = 3 ∧ t.fifo.count = 127 ∧ t.parser = (withParser 1 false 3 9 0x90 0x40 0x7F).parser ∧
      t.trace = [.send ⟨0, 9, 0x90, 0x40, 0x7F⟩ true, .insert 0x55 false, .raised (.overflow 0x55)] := by decide

/-- B1: readiness is asked before the event is taken. -/
theorem test_drainB_B1 : let s := { State.reset with host := { txr := [false], rx := [some ⟨0, 9, 0x90, 0x40, 0x7F⟩] } }
    let t := after (exec .stepDrainB s)
    t.phase = .pump2 ∧ t.host.rx.length = 1 ∧ t.trace = [.txReady false] := by decide

/-- Program 2, the second Note-On under running status, with R52: bytes arrive between the host calls. -/
theorem test_drainB_program2 :
    let s := { withLast 0x90 with
      host := { txr := [true], rx := [some ⟨0, 9, 0x90, 0x41, 0⟩] }, gaps := [[0x11], [], [0x22]] }
    (after (exec .stepDrainB s)).trace = [.txReady true, .insert 0x11 true, .receive (some ⟨0, 9, 0x90, 0x41, 0⟩),
      .sendByte 0x41, .insert 0x22 true, .sendByte 0] := by decide

/-- B2. -/
theorem test_pump2_B2 : let t := after (exec .stepPump2 { State.reset with phase := .pump2 })
    t.phase = .pump1 ∧ t.trace = [.pump] := by decide

/-- R191, R192. -/
theorem test_reset_latches_mode : let t := after (exec .reset { withLast 0x90 with fifo := holding [0x90], modeIn := false, timerA := 5 })
    t.bridgeMode = false ∧ t.fifo.count = 0 ∧ t.ser.lastValid = false ∧ t.timerA = 0 := by decide

/-- R176: the handler performs `INSERT`. -/
theorem test_step_irq : let t := after (step { State.reset with turns := [.irq 0x90] })
    t.fifo = ⟨[(0, 0x90)], 1, 0, 1⟩ ∧ t.entered = true ∧ t.turns = [] := by decide

/-- R143: the loop takes the action of its phase. -/
theorem test_step_loop : let t := after (step { State.reset with turns := [.loop] })
    t.phase = .cfg ∧ t.trace = [.pump] := by decide

/-- R69, R76: a vector that requests nothing, whatever its data, changes nothing. -/
theorem test_step_idle :
    step { State.reset with turns := [.request .request 0xFF], fifo := holding [0x90] } =
      .next { State.reset with fifo := holding [0x90] } := rfl

/-- R69, R77: the reset input at 0 resets nothing. -/
theorem test_step_no_reset :
    step { State.reset with turns := [.request .rst 0], phase := .drainA } =
      .next { State.reset with phase := .drainA } := rfl

/-- R92, R200: once a phase action has run, however it came to run, `CLEAR` is refused. -/
theorem test_clear_after_phase_action :
    exec (.clear false false 0) (after (exec .stepPump1 State.reset)) = .refused .clearAfterEntry := rfl

/-! ## Witnesses: a state and operands that meet the hypotheses of each statement -/

/-- A FIFO with one free cell, its window across the end of the storage. -/
def nearlyFull : State := { State.reset with fifo := ⟨[], 126, 127, 127⟩ }

/-- A full FIFO. -/
def full : State := { State.reset with fifo := ⟨[], 127, 127, 128⟩ }

/-- A FIFO with one byte in its last cell. -/
def oneByte : State := { State.reset with fifo := ⟨[(127, 0x7F)], 0, 127, 1⟩ }

/-- A Note-On whose last byte waits in the FIFO, with the host's answer to the send. -/
def noteOnPending (accepted : Bool) : State :=
  { withParser 2 false 3 9 0x90 0x40 0 with
      fifo := ⟨[(127, 0x7F)], 0, 127, 1⟩, host := { acc := [accepted] }, gaps := [[], [0x01], [0x02]] }

theorem witness_DecodeOfEncode : (Instr.remove false 0xFF).WellFormed ∧ (Instr.ser15 15 255 255 255).WellFormed := by
  decide

theorem witness_EncodeOfDecode : decode .request 0b01111111111#32 = .ok (.insert true 0xFF) ∧
    decode .serEvt 0xFFFFFFFF#32 = .ok (.ser15 15 255 255 255) := by decide

theorem witness_LengthRomAsTabled : byteClass 0x80 = .status ∧ byteClass 0xEF = .status ∧ byteClass 0xF6 = .status := by
  decide

theorem witness_StepRunsFetchedInstruction :
    { State.reset with turns := [.irq 0xFF] }.turns = .irq 0xFF :: [] ∧
    { State.reset with turns := [.loop] }.turns = .loop :: [] ∧
    { State.reset with turns := [.request .rst 1] }.turns = .request .rst 1 :: [] ∧
    decode .rst (Port.lines .rst 1#32) = .ok .reset ∧ decode .rst (Port.lines .rst 2#32) = .error .resetNotAsserted ∧
    decode .request (Port.lines .request 0xFF#32) = .error .noRequest ∧ State.reset.turns = [] := by
  decide

theorem witness_PlacedWordRunsNext : decodeTableWord 8 4 = some .stepPump2 ∧
    decodeTableWord 8 5 = some (.feedData 5) ∧ decodeTableWord 32 0xFFFFFFFF = some (.ser15 15 255 255 255) := by decide

theorem witness_ModeLatchedByResetOnly :
    ∃ t, exec .stepPump1 State.reset = .next t ∧ Instr.stepPump1 ≠ .reset := ⟨_, rfl, by decide⟩

theorem witness_ExcludedModeRefuses :
    { State.reset with bridgeMode := false }.bridgeMode = false ∧ Instr.insert false 0 ≠ .reset := by decide

theorem witness_InsertStoresByte :
    nearlyFull.bridgeMode = true ∧ nearlyFull.fifo.Inv nearlyFull.config ∧ nearlyFull.fifo.count ≠ nearlyFull.config.n := by decide

theorem witness_InsertOnFullDrops : full.bridgeMode = true ∧ full.fifo.count = full.config.n := by decide

theorem witness_RemoveTakesOldest :
    oneByte.bridgeMode = true ∧ oneByte.fifo.Inv oneByte.config ∧ oneByte.fifo.count ≠ 0 := by decide

theorem witness_EmptyReadUnderflows : State.reset.bridgeMode = true ∧ State.reset.fifo.count = 0 ∧
    Instr.peek true true true 0 ∈ [Instr.remove false 0, Instr.peek true true true 0] := by decide

theorem witness_PeekReadsOldest :
    full.bridgeMode = true ∧ full.fifo.Inv full.config ∧ full.fifo.count ≠ 0 := by decide

theorem witness_QueriesAnswer : full.bridgeMode = true := rfl

theorem witness_ClearEmptiesBeforeEntry : full.bridgeMode = true ∧ full.entered = false := by decide

theorem witness_ClearRefusedAfterEntry :
    full.enter.bridgeMode = true ∧ full.enter.entered = true := by decide

/-- One witness for each clause: full, empty, between. -/
theorem witness_SimultaneousPair :
    (full.bridgeMode = true ∧ full.fifo.Inv full.config ∧ full.fifo.count = full.config.n) ∧
    (State.reset.bridgeMode = true ∧ State.reset.fifo.Inv State.reset.config ∧ State.reset.fifo.count = 0) ∧
    (oneByte.bridgeMode = true ∧ oneByte.fifo.Inv oneByte.config ∧ oneByte.fifo.count ≠ oneByte.config.n ∧ oneByte.fifo.count ≠ 0) ∧
    (nearlyFull.fifo.Inv nearlyFull.config ∧ nearlyFull.fifo.count ≠ nearlyFull.config.n ∧ nearlyFull.fifo.count ≠ 0) := by decide

theorem witness_FirstInFirstOut : full.bridgeMode = true ∧ full.fifo.Inv full.config ∧
    ∀ i ∈ [Instr.insert false 1, .insert true 2, .remove false 0, .peek false false false 0], isFifoOp i = true := by
  decide

theorem witness_FifoInvariantKept : full.fifo.Inv full.config ∧
    ∃ t, step { full with turns := [.irq 0x55] } = .next t :=
  ⟨by decide, exists_next_of_runs (by decide)⟩

theorem witness_TimersFitKept : { State.reset with timerA := 65535 }.TimersFit ∧
    ∃ t, step { State.reset with timerA := 65535, turns := [.loop] } = .next t :=
  ⟨by decide, exists_next_of_runs (by decide)⟩

theorem witness_StorageStaysCanonical : oneByte.fifo.Inv oneByte.config ∧ Mem.wf oneByte.config.n oneByte.fifo.mem = true ∧
    ∃ t, step { oneByte with turns := [.irq 0x55] } = .next t := ⟨by decide, by decide, exists_next_of_runs (by decide)⟩

theorem witness_ReadsFindWrittenCells : oneByte.fifo.Inv oneByte.config ∧ oneByte.fifo.Written oneByte.config ∧ oneByte.fifo.count ≠ 0 ∧
    ∃ t, step { oneByte with turns := [.irq 0x55] } = .next t := ⟨by decide, by decide, by decide, exists_next_of_runs (by decide)⟩

theorem witness_FeedRowsRunFeed : State.reset.bridgeMode = true ∧
    decode .feedByte ((0xF6#8).setWidth 32) = .ok .feedSc6 ∧ decode .feedByte ((0x00#8).setWidth 32) = .ok (.feedData 0) := by
  decide

theorem witness_RealTimeLeavesParser : (withParser 3 true 1 15 1 2 3).bridgeMode = true := rfl

/-- One witness for each clause of `SysexStartStores`. -/
theorem witness_SysexStartStores :
    (withParser 2 false 3 9 0x90 0x40 0).parser.position = 2 ∧
    ((withParser 1 false 2 12 0xC0 0 0).parser.position ≠ 2 ∧
      (withParser 1 false 2 12 0xC0 0 0).parser.position + 1 = (withParser 1 false 2 12 0xC0 0 0).parser.explen) ∧
    ((withParser 3 false 3 9 0 0 0).parser.position ≠ 2 ∧
      (withParser 3 false 3 9 0 0 0).parser.position + 1 ≠ (withParser 3 false 3 9 0 0 0).parser.explen) ∧
    (withParser 3 false 3 9 0 0 0).bridgeMode = true := by decide

/-- One witness for each clause of `SysexEndAlwaysEmits`. -/
theorem witness_SysexEndAlwaysEmits :
    (withParser 3 false 3 9 0 0 0).parser.position = 0 ∧ (withParser 1 false 3 9 0 0 0).parser.position = 1 ∧
    (withParser 2 false 3 9 0 0 0).parser.position = 2 ∧ (withParser 2 false 3 9 0 0 0).bridgeMode = true := by decide

theorem witness_ChannelStatusOpens : (withParser 3 true 1 15 1 2 3).bridgeMode = true := rfl

theorem witness_SystemCommonEmitsAtOnce : (withParser 3 true 1 15 1 2 3).bridgeMode = true := rfl

theorem witness_StrayDataDiscarded : (withParser 3 false 1 15 1 2 3).bridgeMode = true ∧
    (withParser 3 false 1 15 1 2 3).parser.position = 0 ∧ (withParser 3 false 1 15 1 2 3).parser.sysex = false := by
  decide

/-- One witness for each branch of `OpenDataStored`. -/
theorem witness_OpenDataStored :
    ((withParser 2 true 3 9 1 2 3).bridgeMode = true ∧ (withParser 2 true 3 9 1 2 3).parser.position ≠ 0 ∧
      (withParser 2 true 3 9 1 2 3).parser.position = 2) ∧
    ((withParser 2 false 3 9 1 2 3).parser.position ≠ 0 ∧
      (withParser 2 false 3 9 1 2 3).parser.position + 1 = (withParser 2 false 3 9 1 2 3).parser.explen) ∧
    ((withParser 3 true 3 9 1 2 3).parser.sysex = true ∧ (withParser 3 true 3 9 1 2 3).parser.position = 0) := by decide

theorem witness_OverrunRestartsFromIdle : (withParser 3 true 1 15 1 2 3).parser.idx = 3 ∧ 0xF7#8 < 0xF8#8 := by decide

theorem witness_ParserInvariantKept : (withParser 3 false 1 15 1 2 3).parser.Inv .hw ∧
    byteClass 0x80 = .status ∧ 8#4 ≤ (withParser 3 false 1 15 1 2 3).parser.openCin ∧
    ∃ t, step { withParser 3 false 1 15 1 2 3 with turns := [.request .feedByte 0xF7] } = .next t :=
  ⟨by decide, by decide, by decide, exists_next_of_runs (by decide)⟩

theorem witness_EmittedEventForm : (withParser 1 false 2 12 0xC0 0 0).parser.Inv .hw ∧
    (feed .hw (withParser 1 false 2 12 0xC0 0 0).parser 0x7F).event = some ⟨0, 12, 0xC0, 0x7F, 0⟩ ∧
    (feed .hw Parser.reset 0xF8).event = some ⟨0, 15, 0xF8, 0, 0⟩ := by decide

theorem witness_RunningStatusOnInput : Parser.reset.sysex = false ∧ 8#4 ≤ 14#4 ∧ 14#4 < 15#4 ∧ Config.hw.lenRom 14 = 3 ∧
    Config.hw.lenRom 13 = 2 ∧ (∀ d ∈ [(0x7F#8, 0x00#8), (0x01, 0x02)], d.1 < 0x80#8 ∧ d.2 < 0x80#8) ∧
    (∀ d ∈ [0x7F#8, 0x00], d < 0x80#8) := by
  refine ⟨by decide, by decide, by decide, by decide, by decide, ?_, by decide⟩
  intro d hd
  fin_cases hd <;> decide

theorem witness_SysexFramedWhole : Parser.reset.idx = 0 ∧ Parser.reset.explen = 0 ∧
    (withParser 0 true 3 9 1 2 3).parser.explen = 3 ∧ (∀ d ∈ [0x7F#8, 0x00, 0x01], d < 0x80#8) := by decide

theorem witness_StatusInsideSysex : (withParser 3 true 3 9 1 2 3).parser.sysex = true ∧ 8#4 ≤ 8#4 ∧ 8#4 < 15#4 ∧
    Config.hw.lenRom 8#4 = 3#2 ∧ 0x7F#8 < 0x80#8 := by decide

theorem witness_NeverCompressedTypes : (withLast 0xF8).bridgeMode = true := rfl

theorem witness_CompressibleTypes : (withLast 0x90).bridgeMode = true := rfl

theorem witness_OutputLengths : (0#4 ∈ [0#4, 1, 5, 15]) ∧ (7#4 ∈ [4#4, 7]) ∧ (13#4 ∈ [2#4, 12, 13]) ∧
    (14#4 ∈ [3#4, 8, 9, 10, 11, 14]) ∧ (withLast 0x90).ser.last = some 0x90 ∧ State.reset.ser.last = none := by decide

theorem witness_SerializeThenParse : Config.hw.carryIndex = 1 ∧
    ∀ e ∈ [Event.mk 0 9 0x9F 0x40 0x7F, .mk 0 9 0x9F 0x41 0, .mk 0 12 0xC0 0x7F 0], ChannelMessage .hw e := by decide

theorem witness_LastStatusNeverForgotten :
    ∃ t, exec (.ser0 0 0 0 0) (withLast 0x90) = .next t ∧ Instr.ser0 0 0 0 0 ≠ .reset ∧
      (withLast 0x90).ser.lastValid = true := ⟨_, rfl, by decide, by decide⟩

theorem witness_ParserWrittenByFeedOnly :
    ∃ t, exec .stepDrainA oneByte = .next t ∧ Instr.stepDrainA ≠ .reset := ⟨_, rfl, by decide⟩

theorem witness_Pump1TicksTimers : { State.reset with timerA := 0xFFFF }.bridgeMode = true := rfl

theorem witness_CfgAsksConfigured : { State.reset with host := { cfg := [true] } }.bridgeMode = true ∧
    { State.reset with host := { cfg := [true] } }.host.cfg = true :: [] := by decide

theorem witness_DrainAEndsWhenEmpty : State.reset.bridgeMode = true ∧ State.reset.fifo.count = 0 := by decide

theorem witness_DrainAConsumesSilently : oneByte.bridgeMode = true ∧ oneByte.fifo.Inv oneByte.config ∧
    oneByte.fifo.contents oneByte.config = 0x7F :: [] ∧ (feed oneByte.config oneByte.parser 0x7F).event = none ∧
    { oneByte with gaps := [[0x01], []] }.gaps = [0x01] :: [] :: [] := by decide

/-- Both answers of the host. -/
theorem witness_DrainACommitsOnAcceptance : ∀ a ∈ [true, false], (noteOnPending a).bridgeMode = true ∧
    (noteOnPending a).fifo.Inv (noteOnPending a).config ∧ (noteOnPending a).fifo.contents (noteOnPending a).config = 0x7F :: [] ∧
    (feed (noteOnPending a).config (noteOnPending a).parser 0x7F).event = some ⟨0, 9, 0x90, 0x40, 0x7F⟩ ∧
    (noteOnPending a).host.acc = a :: [] ∧ (noteOnPending a).gaps = [] :: [0x01] :: [0x02] :: [] := by decide

theorem witness_FullUntilRemoved : full.bridgeMode = true ∧ full.fifo.Inv full.config ∧
    full.fifo.count = full.config.n := by decide

/-- The three clauses: not ready, ready with nothing, ready with an event. -/
theorem witness_DrainBSendsWholeEvents : State.reset.fifo.Inv State.reset.config ∧
    ([[0x01], [], [0x02#8]] : List (List Byte)).length =
      1 + (serialize .hw ⟨true, 0x90⟩ ⟨0, 9, 0x90, 1, 2⟩).2.length ∧
    { State.reset with host := { txr := [false], rx := [none] } }.bridgeMode = true ∧
    { State.reset with host := { txr := [true], rx := [none] } }.host.txr = true :: [] ∧
    { State.reset with host := { txr := [true], rx := [some ⟨0, 0, 1, 2, 3⟩] } }.host.rx =
      some ⟨0, 0, 1, 2, 3⟩ :: [] := by decide

theorem witness_Pump2EndsLoopStep : State.reset.bridgeMode = true := rfl

theorem witness_LoopNeverUnderflows : ∃ t, exec (phaseAction .drainA) State.reset = .next t := ⟨_, rfl⟩

/-- What a refused send left, later, with another byte behind. -/
def retried : State := { after (exec .stepDrainA (noteOnPending false)) with
  fifo := ⟨[(0, 0x01), (1, 0x03), (127, 0x7F)], 2, 127, 3⟩, phase := .drainA }

theorem witness_RefusedEventOfferedAgain :
    (noteOnPending false).bridgeMode = true ∧ (noteOnPending false).fifo.Inv (noteOnPending false).config ∧
    (noteOnPending false).fifo.contents (noteOnPending false).config = 0x7F :: [] ∧
    (feed (noteOnPending false).config (noteOnPending false).parser 0x7F).event = some ⟨0, 9, 0x90, 0x40, 0x7F⟩ ∧
    (∃ t, exec .stepDrainA (noteOnPending false) = .next t ∧ t.phase = .drainB ∧ retried.parser = t.parser ∧
      retried.fifo.contents (noteOnPending false).config = t.fifo.contents (noteOnPending false).config ++ [0x03]) ∧
    retried.bridgeMode = true ∧ retried.config = (noteOnPending false).config ∧ retried.fifo.Inv retried.config :=
  ⟨rfl, by decide, by decide, by decide, ⟨_, rfl, by decide, by decide, by decide⟩, rfl, rfl, by decide⟩

theorem witness_DirectionADeliversInOrder :
    { State.reset with turns := [.irq 0x90] }.bridgeTurn = true ∧ { State.reset with turns := [.irq 0x90] }.fifo.Inv State.reset.config ∧
    { State.reset with turns := [.irq 0x90] }.DirectionA ∧
    ∃ t, step { State.reset with turns := [.irq 0x90] } = .next t :=
  ⟨by decide, by decide, ⟨[], rfl, rfl⟩, exists_next_of_runs (by decide)⟩

theorem witness_DirectionBDeliversInOrder :
    { State.reset with turns := [.loop] }.bridgeTurn = true ∧ { State.reset with turns := [.loop] }.DirectionB ∧
    ∃ t, step { State.reset with turns := [.loop] } = .next t :=
  ⟨by decide, ⟨rfl, rfl⟩, exists_next_of_runs (by decide)⟩

end Sys2Proof.Tests
end

section
/-! PROOF. What an instruction and a step can do to the registers, said once (`exec_cases`, `step_cases`), and the
invariants of 10_state derived from it. -/

namespace Sys2Proof.Machine

/-! ## The moves of the FIFO -/

/-- One operation of the FIFO that takes effect: an accepted `INSERT`, a defined `REMOVE`, or `CLEAR`
(R87, R88, R92). -/
inductive Fifo.Move (c : Config) : Fifo → Fifo → Prop where
  | push (f : Fifo) (b : Byte) (room : f.count ≠ c.n) : Fifo.Move c f (f.push c b)
  | pop (f : Fifo) (held : f.count ≠ 0) : Fifo.Move c f (f.pop c)
  | clear (f : Fifo) : Fifo.Move c f f.clear

/-- Any number of operations of the FIFO, one after the other. -/
abbrev Fifo.Moves (c : Config) : Fifo → Fifo → Prop := Relation.ReflTransGen (Fifo.Move c)

variable {c : Config} {f g : Fifo} {s t u : State}

theorem Fifo.Move.inv (h : Fifo.Move c f g) (hf : f.Inv c) : g.Inv c := by
  cases h with
  | push b room => exact Fifo.inv_push hf room b
  | pop held => exact Fifo.inv_pop hf held
  | clear => exact Fifo.inv_clear c f

/-- An empty window holds no cell. -/
theorem Fifo.written_of_count_zero (c : Config) (h : f.count = 0) : f.Written c :=
  fun k hk => absurd (h ▸ hk) (Nat.not_lt_zero k)

theorem Fifo.Move.written (h : Fifo.Move c f g) (hf : f.Inv c) (hw : f.Written c) : g.Written c := by
  cases h with
  | push b room => exact Fifo.written_push hf room hw b
  | pop held => exact Fifo.written_pop hw
  | clear => exact Fifo.written_of_count_zero c rfl

theorem Fifo.Moves.inv (h : Fifo.Moves c f g) (hf : f.Inv c) : g.Inv c := by
  induction h with
  | refl => exact hf
  | tail _ hmove ih => exact hmove.inv ih

theorem Fifo.Moves.written (h : Fifo.Moves c f g) (hf : f.Inv c) (hw : f.Written c) : g.Written c := by
  induction h with
  | refl => exact hw
  | tail hmoves hmove ih => exact hmove.written (Fifo.Moves.inv hmoves hf) ih

/-- With the window written, the front of a non-empty FIFO is a written byte (R14). -/
theorem Fifo.read_tail_of_written (hf : f.Inv c) (hw : f.Written c) (hne : f.count ≠ 0) :
    Mem.read f.mem f.tail = some f.front := by
  obtain ⟨-, -, htail, -⟩ := hf
  have hsome : (Mem.read f.mem f.tail).isSome = true := by
    simpa [Nat.mod_eq_of_lt htail] using hw 0 (Nat.pos_of_ne_zero hne)
  obtain ⟨b, hb⟩ := Option.isSome_iff_exists.mp hsome
  simp [Fifo.front, Fifo.cell, hb]

/-! ## Updates that reach no register but the FIFO's -/

/-- From `s` to `t` the FIFO moves by its own operations, and the parser, the serializer, the timers, the mode and the
parameters stay; the phase, the inputs still to come and the model's record may be any. -/
structure State.MovesFifo (s t : State) : Prop where
  config : t.config = s.config
  modeIn : t.modeIn = s.modeIn
  bridgeMode : t.bridgeMode = s.bridgeMode
  parser : t.parser = s.parser
  ser : t.ser = s.ser
  timerA : t.timerA = s.timerA
  timerB : t.timerB = s.timerB
  fifo : Fifo.Moves s.config s.fifo t.fifo

namespace State.MovesFifo

/-- A move of the FIFO with any change of the fields that `MovesFifo` does not speak of. -/
theorem of_moves {ph ts h gs e d o tr} (hf : Fifo.Moves s.config s.fifo f) :
    s.MovesFifo { s with fifo := f, phase := ph, turns := ts, host := h, gaps := gs, entered := e, draws := d,
                         out := o, trace := tr } :=
  ⟨rfl, rfl, rfl, rfl, rfl, rfl, rfl, hf⟩

theorem trans (h : s.MovesFifo t) (h' : t.MovesFifo u) : s.MovesFifo u where
  config := h'.config.trans h.config
  modeIn := h'.modeIn.trans h.modeIn
  bridgeMode := h'.bridgeMode.trans h.bridgeMode
  parser := h'.parser.trans h.parser
  ser := h'.ser.trans h.ser
  timerA := h'.timerA.trans h.timerA
  timerB := h'.timerB.trans h.timerB
  fifo := h.fifo.trans (h.config ▸ h'.fifo)

theorem raiseAll (s : State) (cs : List Condition) : s.MovesFifo (s.raiseAll cs) :=
  s.raiseAll_eq cs ▸ of_moves .refl

theorem store (hc : s.config = c) (b : Byte) : s.MovesFifo (s.store c b) := by
  subst hc
  rcases s.store_cases s.config b with ⟨-, h⟩ | ⟨room, h⟩ <;> rw [h]
  · exact of_moves .refl
  · exact of_moves (.single (.push s.fifo b room))

theorem gap (hc : s.config = c) : s.MovesFifo (s.gap c) :=
  State.gap_induction (P := s.MovesFifo) c s (fun _ _ => of_moves .refl) fun _ b hu =>
    hu.trans (store (hu.config.trans hc) b)

theorem insertOp (hc : s.config = c) (b : Byte) : s.MovesFifo (s.insertOp c b) := by
  subst hc
  rcases s.insertOp_cases s.config b with ⟨-, h⟩ | ⟨room, h⟩ <;> rw [h]
  · exact of_moves .refl
  · exact of_moves (.single (.push s.fifo b room))

theorem removeOp (hc : s.config = c) : s.MovesFifo (s.removeOp c) := by
  subst hc
  rcases s.removeOp_cases s.config with ⟨-, h⟩ | ⟨held, h⟩ <;> rw [h]
  · exact of_moves .refl
  · exact of_moves (.single (.pop s.fifo held))

theorem peekOp (s : State) : s.MovesFifo s.peekOp := by
  rcases s.peekOp_cases with ⟨-, h⟩ | ⟨-, h⟩ <;> rw [h] <;> exact of_moves .refl

theorem insertRemoveOp (hc : s.config = c) (b : Byte) : s.MovesFifo (s.insertRemoveOp c b) := by
  have hremove := removeOp hc
  have hinsert := insertOp hc b
  rcases s.insertRemoveOp_cases c b with ⟨-, h⟩ | ⟨-, h⟩ <;> rw [h]
  · exact hremove.trans (insertOp (hremove.config.trans hc) b)
  · exact hinsert.trans (removeOp (hinsert.config.trans hc))

theorem askConfigured (s : State) : s.MovesFifo s.askConfigured.2 := by
  obtain ⟨_, _, h⟩ := s.askConfigured_eq
  exact h ▸ of_moves .refl

theorem askSend (s : State) (e : Event) : s.MovesFifo (s.askSend e).2 := by
  obtain ⟨_, _, h⟩ := s.askSend_eq e
  exact h ▸ of_moves .refl

theorem askTxReady (s : State) : s.MovesFifo s.askTxReady.2 := by
  obtain ⟨_, _, h⟩ := s.askTxReady_eq
  exact h ▸ of_moves .refl

theorem askReceive (s : State) : s.MovesFifo s.askReceive.2 := by
  obtain ⟨_, _, h⟩ := s.askReceive_eq
  exact h ▸ of_moves .refl

theorem sendBytes (hc : s.config = c) (vs : List Byte) : s.MovesFifo (s.sendBytes c vs) := by
  induction vs generalizing s with
  | nil => exact of_moves .refl
  | cons v vs ih =>
    have hsent : s.MovesFifo ((s.gap c).log (.sendByte v)) := (gap hc).trans (of_moves .refl)
    exact hsent.trans (ih (hsent.config.trans hc))

theorem fetch (s : State) : s.MovesFifo s.fetch.2 := by
  obtain ⟨_, _, _, h⟩ := s.fetch_eq
  exact h ▸ of_moves .refl

end State.MovesFifo

/-! ## What a phase action can do -/

/-- Everything one instruction other than `RESET` can do to the registers: the mode stays, the parser takes at most one
`feed` and the serializer at most one `serialize`, a timer falls, stays or is reloaded, the FIFO moves by its own
operations. -/
structure State.Effect (s t : State) : Prop where
  config : t.config = s.config
  modeIn : t.modeIn = s.modeIn
  bridgeMode : t.bridgeMode = s.bridgeMode
  parser : t.parser = s.parser ∨ ∃ b, t.parser = (feed s.config s.parser b).parser
  ser : t.ser = s.ser ∨ ∃ e, t.ser = (serialize s.config s.ser e).1
  timerA : t.timerA ≤ s.timerA ∨ t.timerA = s.config.activityReload
  timerB : t.timerB ≤ s.timerB ∨ t.timerB = s.config.activityReload
  fifo : Fifo.Moves s.config s.fifo t.fifo

theorem State.MovesFifo.effect (h : s.MovesFifo t) : s.Effect t :=
  ⟨h.config, h.modeIn, h.bridgeMode, .inl h.parser, .inl h.ser, .inl h.timerA.le, .inl h.timerB.le, h.fifo⟩

theorem State.MovesFifo.then_effect (h : s.MovesFifo t) (h' : t.Effect u) : s.Effect u where
  config := h'.config.trans h.config
  modeIn := h'.modeIn.trans h.modeIn
  bridgeMode := h'.bridgeMode.trans h.bridgeMode
  parser := h.parser ▸ h.config ▸ h'.parser
  ser := h.ser ▸ h.config ▸ h'.ser
  timerA := h.timerA ▸ h.config ▸ h'.timerA
  timerB := h.timerB ▸ h.config ▸ h'.timerB
  fifo := h.fifo.trans (h.config ▸ h'.fifo)

/-- No arrival empties the FIFO. -/
theorem State.gap_count_ne_zero (c : Config) (hne : s.fifo.count ≠ 0) : (s.gap c).fifo.count ≠ 0 := by
  refine State.gap_induction (P := fun u => u.fifo.count ≠ 0) c s (fun _ _ => hne) fun u b hu => ?_
  rcases u.store_cases c b with ⟨-, h⟩ | ⟨-, h⟩ <;> rw [h]
  · exact hu
  · exact Nat.succ_ne_zero u.fifo.count

/-- The commit of direction A, with or without the reload of its timer (R147). -/
theorem State.commit_effect (hc : s.config = c) (b : Byte) (held : s.fifo.count ≠ 0) {a : Nat}
    (ha : a = s.timerA ∨ a = c.activityReload) :
    s.Effect { s.commit c (feed c s.parser b).parser with timerA := a } := by
  subst hc
  exact ⟨rfl, rfl, rfl, .inr ⟨b, rfl⟩, .inl rfl, ha.imp_left le_of_eq, .inl le_rfl, .single (.pop s.fifo held)⟩

theorem State.offer_effect (hc : s.config = c) (b : Byte) (held : s.fifo.count ≠ 0) :
    s.Effect (s.offer c (feed c s.parser b)) := by
  rcases s.offer_cases c (feed c s.parser b) with ⟨-, h⟩ | ⟨e, -, ⟨-, h⟩ | ⟨-, h⟩⟩ <;> rw [h]
  · exact State.commit_effect hc b held (.inl rfl)
  · have hask := State.MovesFifo.askSend s e
    have hgap := hask.trans (.gap (hask.config.trans hc))
    have hheld : ((s.askSend e).2.gap c).fifo.count ≠ 0 := by
      obtain ⟨_, _, heq⟩ := s.askSend_eq e
      exact State.gap_count_ne_zero c (heq ▸ held)
    rw [← hgap.parser]
    exact hgap.then_effect (State.commit_effect (hgap.config.trans hc) b hheld (.inr rfl))
  · exact ((State.MovesFifo.askSend s e).trans (.of_moves .refl)).effect

theorem State.drainAAction_effect (hc : s.config = c) : s.Effect (s.drainAAction c) := by
  rcases s.drainAAction_cases c with ⟨-, h⟩ | ⟨held, u, hu, h⟩ <;> rw [h]
  · exact (State.MovesFifo.of_moves .refl).effect
  · have hpeek : s.MovesFifo u := hu ▸ .gap hc
    have hfed := hpeek.trans (.raiseAll u (feed c s.parser u.fifo.front).raised)
    have hgap := hfed.trans (.gap (hfed.config.trans hc))
    have hheld := State.gap_count_ne_zero c (s := u.raiseAll (feed c s.parser u.fifo.front).raised)
      (by simpa [hu] using State.gap_count_ne_zero c held)
    have hoffer := State.offer_effect (hgap.config.trans hc) u.fifo.front hheld
    rw [hgap.parser] at hoffer
    exact hgap.then_effect hoffer

theorem State.deliver_effect (hc : s.config = c) (e : Event) : s.Effect (s.deliver c e) := by
  subst hc
  have hsent : State.MovesFifo { s with ser := s.ser.after s.config e } _ := .sendBytes rfl (s.ser.bytes s.config e)
  exact ⟨hsent.config, hsent.modeIn, hsent.bridgeMode, .inl hsent.parser, .inr ⟨e, hsent.ser⟩,
    .inl hsent.timerA.le, .inr rfl, hsent.fifo⟩

theorem State.drainBAction_effect (hc : s.config = c) : s.Effect (s.drainBAction c) := by
  obtain ⟨q, rfl, hq⟩ := s.drainBAction_cases c
  have hasked := State.MovesFifo.askTxReady s
  have hgap := hasked.trans (.gap (hasked.config.trans hc))
  have hreceived := hgap.trans (.askReceive _)
  rcases hq with ⟨-, h⟩ | ⟨-, r, rfl, ⟨-, h⟩ | ⟨e, -, h⟩⟩ <;> rw [h]
  · exact (hasked.trans (.of_moves .refl)).effect
  · exact (hreceived.trans (.of_moves .refl)).effect
  · exact hreceived.then_effect (State.deliver_effect (hreceived.config.trans hc) e)

/-! ## What an instruction can do, said once -/

/-- The answer `o` in `s` is that of an operation under the mode guard that does no more than `State.Effect` allows. -/
def State.RunsGuarded (s : State) (o : Host.Outcome State Fault Refusal) : Prop :=
  ∃ op : State → State, (∀ u : State, u.Effect (op u)) ∧ o = s.inBridge op

/-- A row of format BYTE8 whose function is `feed` at a byte. -/
theorem State.feedWith_runsGuarded (s : State) {row : Config → Parser → FeedResult} (b : Byte)
    (hrow : ∀ c p, feed c p b = row c p) : s.RunsGuarded (s.feedWith row) := by
  refine ⟨_, fun u => ?_, rfl⟩
  simp only [State.raiseAll_eq, ← hrow]
  exact ⟨rfl, rfl, rfl, .inr ⟨b, rfl⟩, .inl rfl, .inl le_rfl, .inl le_rfl, .refl⟩

theorem State.serializeWith_runsGuarded (s : State) (e : Event) : s.RunsGuarded (s.serializeWith e) := by
  refine ⟨_, fun u => ?_, rfl⟩
  exact ⟨rfl, rfl, rfl, .inl rfl, .inr ⟨e, rfl⟩, .inl le_rfl, .inl le_rfl, .refl⟩

/-- A phase action: entering the run loop reaches no register. -/
theorem State.inLoop_runsGuarded (s : State) {action : State → State} (h : ∀ u : State, u.Effect (action u)) :
    s.RunsGuarded (s.inLoop action) :=
  ⟨fun u => action u.enter, fun u => State.MovesFifo.then_effect (.of_moves .refl) (h u.enter), rfl⟩

theorem State.pump1Action_effect (s : State) : s.Effect s.pump1Action :=
  ⟨rfl, rfl, rfl, .inl rfl, .inl rfl, .inl (Nat.sub_le s.timerA 1), .inl (Nat.sub_le s.timerB 1), .refl⟩

theorem State.cfgAction_effect (s : State) : s.Effect s.cfgAction :=
  ((State.MovesFifo.askConfigured s).trans (.of_moves .refl)).effect

theorem State.pump2Action_effect (s : State) : s.Effect s.pump2Action :=
  (State.MovesFifo.of_moves .refl).effect

theorem execStepDrainA_runsGuarded (s : State) : s.RunsGuarded (execStepDrainA s) :=
  s.inLoop_runsGuarded fun _ => State.drainAAction_effect rfl

theorem execStepDrainB_runsGuarded (s : State) : s.RunsGuarded (execStepDrainB s) :=
  s.inLoop_runsGuarded fun _ => State.drainBAction_effect rfl

theorem execClear_cases (s : State) :
    (s.bridgeMode = true ∧ execClear s = .refused .clearAfterEntry) ∨ s.RunsGuarded (execClear s) := by
  unfold execClear
  split
  · next h => exact .inl ⟨(Bool.and_eq_true_iff.mp h).1, rfl⟩
  · exact .inr ⟨_, fun u => (State.MovesFifo.of_moves (.single (.clear u.fifo))).effect, rfl⟩

/-- The one inversion lemma of `exec`: every instruction but `RESET` is an operation under the mode guard, bounded by
`State.Effect`, except for a `CLEAR` that is no longer legal (R24, R92). -/
theorem exec_cases {i : Instr} (hi : i ≠ .reset) (s : State) :
    (s.bridgeMode = true ∧ exec i s = .refused .clearAfterEntry) ∨ s.RunsGuarded (exec i s) := by
  cases i with
  | reset => exact absurd rfl hi
  | insert r d =>
    cases r with
    | false => exact .inr ⟨_, fun _ => (State.MovesFifo.insertOp rfl d).effect, rfl⟩
    | true => exact .inr ⟨_, fun _ => (State.MovesFifo.insertRemoveOp rfl d).effect, rfl⟩
  | remove w d =>
    cases w with
    | false => exact .inr ⟨_, fun _ => (State.MovesFifo.removeOp rfl).effect, rfl⟩
    | true => exact .inr ⟨_, fun _ => (State.MovesFifo.insertRemoveOp rfl d).effect, rfl⟩
  | peek => exact .inr ⟨_, fun u => (State.MovesFifo.peekOp u).effect, rfl⟩
  | count | isEmpty | isFull => exact .inr ⟨_, fun _ => (State.MovesFifo.of_moves .refl).effect, rfl⟩
  | clear => exact execClear_cases s
  | feedRt rt => exact .inr (s.feedWith_runsGuarded _ fun c p => feed_rt c p (byteClass_realTime rt))
  | feedSox => exact .inr (s.feedWith_runsGuarded _ feed_sox)
  | feedEox => exact .inr (s.feedWith_runsGuarded _ feed_eox)
  | feedSt8 ch | feedSt9 ch | feedStA ch | feedStB ch | feedStC ch | feedStD ch | feedStE ch =>
    exact .inr (s.feedWith_runsGuarded _ fun c p => feed_status c p (byteClass_status ch (by decide) (by decide)))
  | feedSc1 | feedSc2 | feedSc3 | feedSc4 | feedSc5 | feedSc6 =>
    exact .inr (s.feedWith_runsGuarded _ fun c p => feed_status c p (by decide))
  | feedData data => exact .inr (s.feedWith_runsGuarded _ fun c p => feed_data c p (byteClass_data data))
  | stepPump1 => exact .inr (s.inLoop_runsGuarded State.pump1Action_effect)
  | stepCfg => exact .inr (s.inLoop_runsGuarded State.cfgAction_effect)
  | stepDrainA => exact .inr (execStepDrainA_runsGuarded s)
  | stepDrainB => exact .inr (execStepDrainB_runsGuarded s)
  | stepPump2 => exact .inr (s.inLoop_runsGuarded State.pump2Action_effect)
  | _ => exact .inr (s.serializeWith_runsGuarded _)

/-- An instruction other than `RESET` that answers a next state has no more than its effect. -/
theorem exec_effect {i : Instr} (hi : i ≠ .reset) (h : exec i s = .next t) : s.Effect t := by
  rcases exec_cases hi s with ⟨-, hrefused⟩ | ⟨op, hop, hrun⟩
  · rw [hrefused] at h
    cases h
  · obtain ⟨-, rfl⟩ := State.inBridge_next.mp (hrun.symm.trans h)
    exact State.MovesFifo.then_effect (.of_moves .refl) (hop s.fresh)

/-- The one inversion lemma over whole steps: an effect on the registers, or `RESET` of a state that differs in inputs
and the model's record only. -/
theorem step_cases (h : step s = .next t) : s.Effect t ∨ t = s.fetch.2.resetOp := by
  have hfetch := State.MovesFifo.fetch s
  rcases step_next.mp h with ⟨i, -, hexec⟩ | ⟨-, -, rfl⟩
  · by_cases hi : i = .reset
    · subst hi
      exact .inr (Host.Outcome.next.inj hexec).symm
    · exact .inl (hfetch.then_effect (exec_effect hi hexec))
  · exact .inl (hfetch.trans (.of_moves .refl)).effect

/-! ## The parser invariant (R23) -/

/-- What step 4 has left, or reset: the part of the invariant that the length and the opening nibble carry. -/
abbrev Parser.Opened (c : Config) (p : Parser) : Prop :=
  p.explen = 0#2 ∧ p.openCin = 0#4 ∨ 8#4 ≤ p.openCin ∧ p.explen = c.lenRom p.openCin

variable {p : Parser} {b : Byte}

theorem statusNibble_ge (h : byteClass b = .status) : 8#4 ≤ statusNibble b := by
  revert b; decide

/-- A store writes a data field and `idx` only. -/
theorem Parser.store_keeps (p : Parser) (b : Byte) :
    (p.store b).explen = p.explen ∧ (p.store b).openCin = p.openCin ∧ (p.store b).sysex = p.sysex := by
  unfold Parser.store Parser.put
  split_ifs <;> exact ⟨rfl, rfl, rfl⟩

/-- A completion writes `idx` only. -/
theorem Parser.complete_keeps (c : Config) (p : Parser) (b : Byte) :
    (p.complete c b).1 = { p with idx := (p.complete c b).1.idx } := by
  rcases p.complete_cases c b with ⟨-, -, h⟩ | ⟨-, -, h⟩ | ⟨-, -, -, h⟩ | ⟨-, -, -, h⟩ <;> rw [h]

/-- `CARRY_INDEX` is one bit wide. -/
theorem carryIndex_ne_three (k : BitVec 1) : k.setWidth 2 ≠ 3#2 := by
  revert k; decide

/-- Three bytes stay buffered only outside System Exclusive: 7a has emptied the buffer otherwise. -/
theorem Parser.complete_idx_three (h : (p.complete c b).1.idx = 3#2) : p.sysex = false := by
  rcases p.complete_cases c b with ⟨-, -, heq⟩ | ⟨-, -, heq⟩ | ⟨-, -, -, heq⟩ | ⟨-, hnot, -, heq⟩ <;> rw [heq] at h
  · cases h
  · cases h
  · exact absurd h (carryIndex_ne_three c.carryIndex)
  · exact Bool.eq_false_of_not_eq_true fun hs => hnot ⟨hs, h⟩

/-- Steps 6 and 7 write the data fields and `idx` only. -/
theorem Parser.storeAndComplete_keeps (c : Config) (p : Parser) (b : Byte) (cs : List Condition) :
    (p.storeAndComplete c b cs).parser.explen = p.explen ∧ (p.storeAndComplete c b cs).parser.openCin = p.openCin ∧
      (p.storeAndComplete c b cs).parser.sysex = p.sysex := by
  change ((p.store b).complete c b).1.explen = _ ∧ ((p.store b).complete c b).1.openCin = _ ∧
    ((p.store b).complete c b).1.sysex = _
  rw [Parser.complete_keeps]
  exact p.store_keeps b

/-- Steps 6 and 7 leave a parser that meets the invariant, whatever `idx` was before. -/
theorem Parser.storeAndComplete_inv (hp : p.Opened c) (b : Byte) (cs : List Condition) :
    (p.storeAndComplete c b cs).parser.Inv c := by
  obtain ⟨hexplen, hopen, hsysex⟩ := p.storeAndComplete_keeps c b cs
  refine ⟨by rwa [hexplen, hopen], fun hidx => ?_⟩
  obtain ⟨-, -, hstored⟩ := p.store_keeps b
  have hthree : (p.store b).sysex = false := Parser.complete_idx_three hidx
  rw [hsysex, ← hstored, hthree]

theorem Parser.reset_inv (c : Config) : Parser.reset.Inv c := ⟨.inl ⟨rfl, rfl⟩, fun _ => rfl⟩

/-- What `feed` makes of the parser (R101): without a status byte nothing, the guard's reset of `idx`, or a store with
`sysex` written; with one a store under the new length and opening nibble of step 4. -/
theorem feed_parser_cases (c : Config) (p : Parser) (b : Byte) :
    (byteClass b ≠ .status ∧ ((feed c p b).parser = p ∨ (feed c p b).parser = p.guarded ∨
      ∃ sx v cs, (feed c p b).parser = ({ p.guarded with sysex := sx }.storeAndComplete c v cs).parser)) ∨
    (byteClass b = .status ∧ ∃ q : Parser, q.openCin = statusNibble b ∧ q.explen = c.lenRom (statusNibble b) ∧
      ∃ cs, (feed c p b).parser = (q.storeAndComplete c b cs).parser) := by
  unfold feed
  cases byteClass b with
  | rt => exact .inl ⟨nofun, .inl rfl⟩
  | sox => exact .inl ⟨nofun, .inr (.inr ⟨true, 0xF0#8, p.guardRaises, rfl⟩)⟩
  | eox => exact .inl ⟨nofun, .inr (.inr ⟨false, 0xF7#8, p.guardRaises, rfl⟩)⟩
  | status => exact .inr ⟨rfl, _, rfl, rfl, p.guardRaises, rfl⟩
  | data =>
    refine .inl ⟨nofun, .inr ?_⟩
    change (feedDataByte c p b).parser = _ ∨ ∃ sx v cs, (feedDataByte c p b).parser = _
    unfold feedDataByte
    split
    · exact .inl rfl
    · exact .inr ⟨p.guarded.sysex, b, p.guardRaises, rfl⟩

theorem feed_inv (hp : p.Inv c) (b : Byte) : (feed c p b).parser.Inv c := by
  have hguarded : p.guarded.Opened c := by
    rw [p.guarded_eq]
    exact hp.1
  rcases feed_parser_cases c p b with ⟨-, h | h | ⟨sx, v, cs, h⟩⟩ | ⟨hb, q, hopen, hexplen, cs, h⟩ <;> rw [h]
  · exact hp
  · exact ⟨hguarded, fun hidx => absurd hidx p.guarded_idx⟩
  · exact Parser.storeAndComplete_inv (p := { p.guarded with sysex := sx }) hguarded v cs
  · exact Parser.storeAndComplete_inv (.inr ⟨hopen ▸ statusNibble_ge hb, hopen ▸ hexplen⟩) b cs

/-- Only a status byte writes the opening nibble (step 4). -/
theorem feed_openCin (c : Config) (p : Parser) (b : Byte) :
    (feed c p b).parser.openCin = if byteClass b = .status then statusNibble b else p.openCin := by
  have hguarded : p.guarded.openCin = p.openCin := by rw [p.guarded_eq]
  rcases feed_parser_cases c p b with ⟨hb, h | h | ⟨sx, v, cs, h⟩⟩ | ⟨hb, q, hopen, -, cs, h⟩ <;> rw [h]
  · rw [if_neg hb]
  · rw [if_neg hb, hguarded]
  · obtain ⟨-, hkept, -⟩ := Parser.storeAndComplete_keeps c { p.guarded with sysex := sx } v cs
    rw [if_neg hb, hkept, hguarded]
  · obtain ⟨-, hkept, -⟩ := q.storeAndComplete_keeps c b cs
    rw [if_pos hb, hkept, hopen]

/-! ## The timers (R26) -/

/-- A timer that only falls, or is reloaded, fits its width. -/
theorem timer_fits (c : Config) {x y : Nat} (hx : x < 2 ^ c.tw) (h : y ≤ x ∨ y = c.activityReload) :
    y < 2 ^ c.tw := by
  rcases h with hle | rfl
  · exact hle.trans_lt hx
  · exact c.reloadFits

/-! ## The last status (R22) -/

theorem Serializer.after_lastValid (c : Config) {q : Serializer} (e : Event) (h : q.lastValid = true) :
    (q.after c e).lastValid = true := by
  unfold Serializer.after
  split
  · rfl
  · exact h

/-- From "none" the status byte is emitted whatever byte stands beside the sentinel (R129). -/
theorem Serializer.bytes_of_none (c : Config) (x y : Byte) (e : Event) :
    Serializer.bytes c ⟨false, x⟩ e = Serializer.bytes c ⟨false, y⟩ e := by
  simp [Serializer.bytes, Serializer.emitsD1]

theorem Serializer.last_after_none (c : Config) (x y : Byte) (e : Event) :
    (Serializer.after c ⟨false, x⟩ e).last = (Serializer.after c ⟨false, y⟩ e).last := by
  unfold Serializer.after
  split <;> rfl

/-! ## What a step keeps -/

theorem step_config (h : step s = .next t) : t.config = s.config := by
  rcases step_cases h with heff | rfl
  · exact heff.config
  · exact (State.MovesFifo.fetch s).config

/-- A step moves the FIFO by its own operations only; `RESET` is a `CLEAR` here (R191). -/
theorem step_movesFifo (h : step s = .next t) : Fifo.Moves s.config s.fifo t.fifo := by
  rcases step_cases h with heff | rfl
  · exact heff.fifo
  · exact (State.MovesFifo.fetch s).fifo.tail (.clear _)

theorem step_parser_inv (hp : s.parser.Inv s.config) (h : step s = .next t) : t.parser.Inv t.config := by
  rw [step_config h]
  rcases step_cases h with heff | rfl
  · rcases heff.parser with hkept | ⟨b, hfed⟩
    · exact hkept ▸ hp
    · exact hfed ▸ feed_inv hp b
  · exact Parser.reset_inv s.config

theorem step_timersFit (ht : s.TimersFit) (h : step s = .next t) : t.TimersFit := by
  obtain ⟨hA, hB⟩ := ht
  unfold State.TimersFit
  rw [step_config h]
  rcases step_cases h with heff | rfl
  · exact ⟨timer_fits s.config hA heff.timerA, timer_fits s.config hB heff.timerB⟩
  · exact ⟨Nat.two_pow_pos _, Nat.two_pow_pos _⟩

theorem reset_timersFit : State.reset.TimersFit := ⟨Nat.two_pow_pos _, Nat.two_pow_pos _⟩

end Sys2Proof.Machine
end

section
/-! PROOF. The statements about the registers, their invariants and reset, each from the lemmas above. -/

namespace Sys2Proof.Machine

/-- Settles O22: a step is a series of accepted inserts, defined removes and clears, and each keeps the invariant. -/
theorem fifoInvariantKept : Obligations.FifoInvariantKept := by
  unfold Obligations.FifoInvariantKept
  refine ⟨Fifo.inv_reset _, fun s t hf h => ?_⟩
  rw [step_config h]
  exact (step_movesFifo h).inv hf

/-- Settles O25: a push writes the one cell that joins the live window, a pop and a clear only shrink it. -/
theorem readsFindWrittenCells : Obligations.ReadsFindWrittenCells := by
  unfold Obligations.ReadsFindWrittenCells
  refine ⟨fun s t hf hw h => ?_, fun s hf hw hne => ⟨Fifo.read_tail_of_written hf hw hne, ?_⟩⟩
  · rw [step_config h]
    exact (step_movesFifo h).written hf hw
  · rw [Fifo.contents_pop hf hne]
    rfl

/-- Settles O37: a step feeds the parser at most one byte, and `feed` keeps the invariant class by class. -/
theorem parserInvariantKept : Obligations.ParserInvariantKept := by
  unfold Obligations.ParserInvariantKept
  refine ⟨Parser.reset_inv, fun c p b hp => feed_inv hp b, fun c p b hopen => ?_, fun s t => step_parser_inv⟩
  rw [feed_openCin]
  split
  · next hb => exact statusNibble_ge hb
  · next hb => exact hopen.resolve_left hb

/-- Settles O10: the effect of an instruction leaves the mode and the inputs, and `RESET` latches the mode only. -/
theorem modeLatchedByResetOnly : Obligations.ModeLatchedByResetOnly := by
  unfold Obligations.ModeLatchedByResetOnly
  intro i s t h
  by_cases hi : i = .reset
  · subst hi
    cases h
    exact ⟨rfl, rfl, fun hne => absurd rfl hne⟩
  · have heff := exec_effect hi h
    exact ⟨heff.config, heff.modeIn, fun _ => heff.bridgeMode⟩

/-- Settles O23: a step lets a timer fall, keeps it or reloads it, and the reload value fits. -/
theorem timersFitKept : Obligations.TimersFitKept :=
  ⟨reset_timersFit, fun _ _ => step_timersFit⟩

/-- Settles O39, from the effect of an instruction. -/
theorem parserWrittenByFeedOnly : Obligations.ParserWrittenByFeedOnly := by
  unfold Obligations.ParserWrittenByFeedOnly
  exact fun i s t h hi => (exec_effect hi h).parser

/-- Settles O48: the effect of an instruction is at most one `serialize`, which never clears the valid bit. -/
theorem lastStatusNeverForgotten : Obligations.LastStatusNeverForgotten := by
  unfold Obligations.LastStatusNeverForgotten
  refine ⟨fun i s t h hi => ?_, fun c x y e => ⟨Serializer.bytes_of_none c x y e, Serializer.last_after_none c x y e⟩⟩
  have hser := (exec_effect hi h).ser
  refine ⟨hser, fun hvalid => ?_⟩
  rcases hser with hkept | ⟨e, hserialized⟩
  · rw [hkept, hvalid]
  · rw [hserialized]
    exact Serializer.after_lastValid s.config e hvalid

/-- Settles O8, field by field. -/
theorem resetStateValues : Obligations.ResetStateValues :=
  ⟨rfl, rfl, rfl, rfl, rfl, rfl, rfl, rfl, rfl, rfl, rfl, rfl, rfl, rfl, rfl, rfl, rfl, rfl, rfl, rfl⟩

/-- Settles O11: the mode guard refuses, and the refusal of a late `CLEAR` stands in the bridge mode only. -/
theorem excludedModeRefuses : Obligations.ExcludedModeRefuses := by
  unfold Obligations.ExcludedModeRefuses
  intro i s hmode hi
  rcases exec_cases hi s with ⟨hbridge, -⟩ | ⟨op, -, hrun⟩
  · exact absurd (hbridge.symm.trans hmode) (by decide)
  · rw [hrun, State.inBridge_excluded hmode]

/-- Settles O26: the FIFO is empty, the parser and the timers are at zero, and nothing has been traced. -/
theorem resetMeetsInvariants : Obligations.ResetMeetsInvariants := by
  have hwritten : State.reset.fifo.Written State.reset.config := Fifo.written_of_count_zero _ rfl
  exact ⟨⟨rfl, Fifo.inv_reset _, hwritten, Parser.reset_inv _, reset_timersFit⟩, ⟨[], rfl, rfl⟩, rfl, rfl⟩

end Sys2Proof.Machine
end

section
/-! PROOF. The FIFO of 20_memory: what its moves make of the storage, what each of its operations stores and takes, and
what a full FIFO holds on to. -/

namespace Sys2Proof.Machine

variable {c : Config} {f g : Fifo} {s t u : State} {i : Instr} {b : Byte}

/-! ## The storage under the moves (R41) -/

theorem Fifo.Move.wf (h : Fifo.Move c f g) (hf : f.Inv c) (hw : Mem.wf c.n f.mem = true) :
    Mem.wf c.n g.mem = true := by
  cases h with
  | push b room =>
    obtain ⟨-, hhead, -⟩ := hf
    exact Mem.write_wf b hhead hw
  | pop | clear => exact hw

theorem Fifo.Moves.wf (h : Fifo.Moves c f g) (hf : f.Inv c) (hw : Mem.wf c.n f.mem = true) :
    Mem.wf c.n g.mem = true := by
  induction h with
  | refl => exact hw
  | tail hmoves hmove ih => exact hmove.wf (Fifo.Moves.inv hmoves hf) ih

/-! ## The contents -/

theorem Fifo.contents_of_count_zero (c : Config) (h : f.count = 0) : f.contents c = [] := by
  simp [Fifo.contents, h]

/-- With room, an accepted insert and then a remove: the byte comes in behind, the oldest byte goes out. -/
theorem Fifo.contents_push_pop (hf : f.Inv c) (hroom : f.count ≠ c.n) (b : Byte) :
    f.contents c ++ [b] = (f.push c b).front :: ((f.push c b).pop c).contents c := by
  rw [← Fifo.contents_push hf hroom]
  exact Fifo.contents_pop (Fifo.inv_push hf hroom b) (Nat.succ_ne_zero f.count)

/-! ## Each operation where its guard is known -/

theorem State.insertOp_full (h : s.fifo.count = c.n) (b : Byte) : s.insertOp c b =
    { s with out := { s.out with wrOk := some false },
             trace := s.trace ++ [.insert b false, .raised (.overflow b)] } :=
  (s.insertOp_cases c b).elim (fun hcase => hcase.2) fun hcase => absurd h hcase.1

theorem State.insertOp_room (h : s.fifo.count ≠ c.n) (b : Byte) : s.insertOp c b =
    { s with out := { s.out with wrOk := some true }, fifo := s.fifo.push c b,
             trace := s.trace ++ [.insert b true] } :=
  (s.insertOp_cases c b).elim (fun hcase => absurd hcase.1 h) fun hcase => hcase.2

theorem State.removeOp_empty (h : s.fifo.count = 0) : s.removeOp c = s.underflowRead :=
  (s.removeOp_cases c).elim (fun hcase => hcase.2) fun hcase => absurd h hcase.1

theorem State.removeOp_held (h : s.fifo.count ≠ 0) : s.removeOp c =
    { s with out := { s.out with rdData := some s.fifo.front }, fifo := s.fifo.pop c } :=
  (s.removeOp_cases c).elim (fun hcase => absurd hcase.1 h) fun hcase => hcase.2

theorem State.store_full (h : s.fifo.count = c.n) (b : Byte) : s.store c b =
    { s with trace := s.trace ++ [.insert b false, .raised (.overflow b)] } :=
  (s.store_cases c b).elim (fun hcase => hcase.2) fun hcase => absurd h hcase.1

/-! ## The simultaneous pair (R53) -/

/-- Everything a simultaneous pair can do: on a full FIFO, on an empty one, on any other. -/
theorem State.insertRemoveOp_outcomes (c : Config) (s : State) (b : Byte) :
    (s.fifo.count = c.n ∧ s.fifo.count ≠ 0 ∧ s.insertRemoveOp c b =
      { s with fifo := s.fifo.pop c, out := { s.out with wrOk := some false, rdData := some s.fifo.front },
               trace := s.trace ++ [.insert b false, .raised (.overflow b)] }) ∨
    (s.fifo.count ≠ c.n ∧ s.fifo.count = 0 ∧ s.insertRemoveOp c b =
      { s with fifo := s.fifo.push c b, draws := s.draws + 1,
               out := { s.out with wrOk := some true, rdData := some (Config.freeByte s.draws) },
               trace := s.trace ++ [.raised .underflow] ++ [.insert b true] }) ∨
    (s.fifo.count ≠ c.n ∧ s.fifo.count ≠ 0 ∧ s.insertRemoveOp c b =
      { s with fifo := (s.fifo.push c b).pop c,
               out := { s.out with wrOk := some true, rdData := some (s.fifo.push c b).front },
               trace := s.trace ++ [.insert b true] }) := by
  rcases s.insertRemoveOp_cases c b with ⟨hempty, h⟩ | ⟨hne, h⟩
  · have hroom : s.fifo.count ≠ c.n := hempty ▸ c.nPos.ne
    have hinsert := State.insertOp_room (s := s.underflowRead) hroom b
    exact .inr (.inl ⟨hroom, hempty, by rw [h, State.removeOp_empty hempty, hinsert]; rfl⟩)
  · by_cases hfull : s.fifo.count = c.n
    · exact .inl ⟨hfull, hne, by rw [h, State.insertOp_full hfull]; exact State.removeOp_held hne⟩
    · have hheld : (s.fifo.push c b).count ≠ 0 := Nat.succ_ne_zero s.fifo.count
      exact .inr (.inr ⟨hfull, hne, by rw [h, State.insertOp_room hfull]; exact State.removeOp_held hheld⟩)

/-- Both rows' names run the pair. -/
theorem exec_pair_run {d : Byte} (hi : i ∈ [Instr.insert true d, .remove true d]) (hb : s.bridgeMode = true) :
    exec i s = .next (s.fresh.insertRemoveOp s.config d) := by
  rcases List.mem_pair.mp hi with rfl | rfl
  · exact exec_insertPair_run d hb
  · exact exec_removePair_run d hb

/-! ## What an operation stores and takes (R49) -/

/-- The byte that counts as stored when the instruction has led to `t`. -/
def storedBy (i : Instr) (t : State) : List Byte := if t.out.wrOk = some true then (offeredByte i).toList else []

/-- The byte that counts as taken when the instruction has led from `s` to `t`. -/
def takenBy (i : Instr) (s t : State) : List Byte :=
  if requestsRemove i && !s.fifo.isEmpty then t.out.rdData.toList else []

theorem PortHistory.next_of_exec {h : PortHistory} (he : exec i h.state = .next t) :
    h.next i = ⟨h.stored ++ storedBy i t, h.taken ++ takenBy i h.state t, t⟩ := by
  unfold PortHistory.next
  rw [he]
  rfl

theorem storedBy_of_ok {d : Byte} (hi : offeredByte i = some d) (ht : t.out.wrOk = some true) :
    storedBy i t = [d] := by
  simp [storedBy, hi, ht]

theorem storedBy_of_not_ok (i : Instr) (ht : t.out.wrOk ≠ some true) : storedBy i t = [] := if_neg ht

theorem takenBy_of_held (hi : requestsRemove i = true) (hne : s.fifo.count ≠ 0) (ht : t.out.rdData = some b) :
    takenBy i s t = [b] := by
  simp [takenBy, Fifo.isEmpty, hi, hne, ht]

theorem takenBy_of_empty (i : Instr) (t : State) (h : s.fifo.count = 0) : takenBy i s t = [] := by
  simp [takenBy, Fifo.isEmpty, h]

theorem takenBy_of_no_remove (s t : State) (hi : requestsRemove i = false) : takenBy i s t = [] := by
  simp [takenBy, hi]

/-- From `s` to `t` the instruction keeps the bytes in one order: what was held and then stored is what was taken and is
then held. -/
abbrev KeepsOrder (i : Instr) (s t : State) : Prop :=
  s.fifo.contents s.config ++ storedBy i t = takenBy i s t ++ t.fifo.contents s.config

theorem KeepsOrder.of_bytes {stored taken : List Byte} (hstored : storedBy i t = stored) (htaken : takenBy i s t = taken)
    (h : s.fifo.contents s.config ++ stored = taken ++ t.fifo.contents s.config) : KeepsOrder i s t := by
  rwa [KeepsOrder, hstored, htaken]

/-- An instruction that neither stores nor asks for a byte keeps the order when it leaves the FIFO alone. -/
theorem KeepsOrder.of_unchanged (hi : requestsRemove i = false) (hok : t.out.wrOk ≠ some true)
    (ht : t.fifo = s.fifo) : KeepsOrder i s t :=
  .of_bytes (storedBy_of_not_ok i hok) (takenBy_of_no_remove s t hi) (ht ▸ List.append_nil _)

theorem insertOp_keepsOrder (hf : s.fifo.Inv s.config) (d : Byte) :
    KeepsOrder (.insert false d) s (s.fresh.insertOp s.config d) := by
  rcases s.fresh.insertOp_cases s.config d with ⟨-, h⟩ | ⟨hroom, h⟩ <;> rw [h]
  · exact .of_unchanged rfl nofun rfl
  · exact (Fifo.contents_push hf hroom d).symm

theorem removeOp_keepsOrder (hf : s.fifo.Inv s.config) (d : Byte) :
    KeepsOrder (.remove false d) s (s.fresh.removeOp s.config) := by
  have hstored : storedBy (.remove false d) (s.fresh.removeOp s.config) = [] := ite_self _
  rcases s.fresh.removeOp_cases s.config with ⟨hempty, h⟩ | ⟨hne, h⟩ <;> rw [h] at hstored ⊢
  · exact .of_bytes hstored (takenBy_of_empty _ _ hempty) (List.append_nil _)
  · exact .of_bytes hstored (takenBy_of_held rfl hne rfl) ((List.append_nil _).trans (Fifo.contents_pop hf hne))

theorem insertRemoveOp_keepsOrder {d : Byte} (hoffer : offeredByte i = some d) (hremove : requestsRemove i = true)
    (hf : s.fifo.Inv s.config) : KeepsOrder i s (s.fresh.insertRemoveOp s.config d) := by
  rcases s.fresh.insertRemoveOp_outcomes s.config d with ⟨-, hne, h⟩ | ⟨hroom, hempty, h⟩ | ⟨hroom, hne, h⟩ <;> rw [h]
  · exact .of_bytes (storedBy_of_not_ok i nofun) (takenBy_of_held hremove hne rfl)
      ((List.append_nil _).trans (Fifo.contents_pop hf hne))
  · exact .of_bytes (storedBy_of_ok hoffer rfl) (takenBy_of_empty i _ hempty) (Fifo.contents_push hf hroom d).symm
  · exact .of_bytes (storedBy_of_ok hoffer rfl) (takenBy_of_held hremove hne rfl) (Fifo.contents_push_pop hf hroom d)

/-- `PEEK` leaves the FIFO alone and stores nothing. -/
theorem peekOp_keepsOrder (c w r : Bool) (d : Byte) (s : State) : KeepsOrder (.peek c w r d) s s.fresh.peekOp := by
  rcases s.fresh.peekOp_cases with ⟨-, h⟩ | ⟨-, h⟩ <;> rw [h] <;> exact .of_unchanged rfl nofun rfl

/-- Every FIFO operation other than `CLEAR` runs in the MIDI-bridge mode and keeps the order of the bytes. -/
theorem exec_fifoOp_keepsOrder (hi : isFifoOp i = true) (hb : s.bridgeMode = true) (hf : s.fifo.Inv s.config) :
    ∃ t, exec i s = .next t ∧ KeepsOrder i s t := by
  cases i with
  | insert r d =>
    cases r with
    | false => exact ⟨_, exec_insert_run d hb, insertOp_keepsOrder hf d⟩
    | true => exact ⟨_, exec_insertPair_run d hb, insertRemoveOp_keepsOrder rfl rfl hf⟩
  | remove w d =>
    cases w with
    | false => exact ⟨_, exec_remove_run d hb, removeOp_keepsOrder hf d⟩
    | true => exact ⟨_, exec_removePair_run d hb, insertRemoveOp_keepsOrder rfl rfl hf⟩
  | peek c w r d => exact ⟨_, exec_peek_run c w r d hb, peekOp_keepsOrder c w r d s⟩
  | count c w r d => exact ⟨_, exec_count_run c w r d hb, .of_unchanged rfl nofun rfl⟩
  | isEmpty c w r d => exact ⟨_, exec_isEmpty_run c w r d hb, .of_unchanged rfl nofun rfl⟩
  | isFull c w r d => exact ⟨_, exec_isFull_run c w r d hb, .of_unchanged rfl nofun rfl⟩
  | _ => cases hi

/-! ## A series of operations (R49) -/

/-- What a series of operations keeps: the order of the bytes held at `start` and stored since, with the mode, the
parameters and the FIFO invariant that the next operation needs. -/
structure PortHistory.InOrder (c : Config) (start : List Byte) (h : PortHistory) : Prop where
  bridgeMode : h.state.bridgeMode = true
  config : h.state.config = c
  inv : h.state.fifo.Inv c
  order : start ++ h.stored = h.taken ++ h.state.fifo.contents c

theorem PortHistory.InOrder.next {start : List Byte} {h : PortHistory} (hi : isFifoOp i = true)
    (hh : h.InOrder c start) : (h.next i).InOrder c start := by
  obtain ⟨hb, rfl, hf, horder⟩ := hh
  obtain ⟨t, he, hkeeps⟩ := exec_fifoOp_keepsOrder hi hb hf
  have hreset : i ≠ .reset := by
    rintro rfl
    cases hi
  have heff := exec_effect hreset he
  rw [PortHistory.next_of_exec he]
  refine ⟨heff.bridgeMode.trans hb, heff.config, heff.fifo.inv hf, ?_⟩
  calc start ++ (h.stored ++ storedBy i t)
      = h.taken ++ (h.state.fifo.contents h.state.config ++ storedBy i t) := by
        rw [← List.append_assoc, horder, List.append_assoc]
    _ = (h.taken ++ takenBy i h.state t) ++ t.fifo.contents h.state.config := by
        rw [hkeeps, List.append_assoc]

theorem PortHistory.InOrder.foldl {start : List Byte} {h : PortHistory} (hh : h.InOrder c start) (is : List Instr)
    (his : ∀ i ∈ is, isFifoOp i = true) : (is.foldl PortHistory.next h).InOrder c start := by
  induction is generalizing h with
  | nil => exact hh
  | cons i is ih =>
    obtain ⟨hi, hrest⟩ := List.forall_mem_cons.mp his
    exact ih (hh.next hi) hrest

/-! ## A full FIFO in direction A (R52, R147) -/

/-- From `s` to `t` no byte has been accepted and the FIFO is as it was. -/
abbrev State.HoldsOn (s t : State) : Prop :=
  t.fifo = s.fifo ∧ acceptedBytes t.trace = acceptedBytes s.trace

theorem State.HoldsOn.trans (h : s.HoldsOn t) (h' : t.HoldsOn u) : s.HoldsOn u :=
  ⟨h'.1.trans h.1, h'.2.trans h.2⟩

/-- Every `INSERT` that arrives at a full FIFO is rejected. -/
theorem State.HoldsOn.gap (hfull : s.fifo.count = c.n) : s.HoldsOn (s.gap c) := by
  refine State.gap_induction (P := s.HoldsOn) c s (fun _ _ => ⟨rfl, rfl⟩) fun u b hu => hu.trans ?_
  rw [State.store_full (hu.1 ▸ hfull)]
  exact ⟨rfl, by simp [acceptedBytes]⟩

theorem State.HoldsOn.raiseAll (s : State) (cs : List Condition) : s.HoldsOn (s.raiseAll cs) :=
  ⟨by simp, by simp⟩

theorem State.HoldsOn.askSend (s : State) (e : Event) : s.HoldsOn (s.askSend e).2 := by
  obtain ⟨_, _, h⟩ := s.askSend_eq e
  rw [h]
  exact ⟨rfl, by simp [acceptedBytes]⟩

/-- How direction A leaves a full FIFO: no byte accepted, and the oldest byte removed when the action goes on, kept when
it does not. -/
structure State.LeavesFull (c : Config) (s t : State) : Prop where
  accepted : acceptedBytes t.trace = acceptedBytes s.trace
  fifo : t.phase = .drainA ∧ t.fifo = s.fifo.pop c ∨ t.phase = .drainB ∧ t.fifo = s.fifo

theorem State.HoldsOn.then_leavesFull (h : s.HoldsOn t) (h' : t.LeavesFull c u) : s.LeavesFull c u :=
  ⟨h'.accepted.trans h.2, h.1 ▸ h'.fifo⟩

theorem State.offer_leavesFull (hfull : s.fifo.count = c.n) (r : FeedResult) : s.LeavesFull c (s.offer c r) := by
  rcases s.offer_cases c r with ⟨-, h⟩ | ⟨e, -, ⟨-, h⟩ | ⟨-, h⟩⟩ <;> rw [h]
  · exact ⟨rfl, .inl ⟨rfl, rfl⟩⟩
  · have hask := State.HoldsOn.askSend s e
    have hgap := hask.trans (.gap (hask.1 ▸ hfull))
    exact hgap.then_leavesFull ⟨rfl, .inl ⟨rfl, rfl⟩⟩
  · exact (State.HoldsOn.askSend s e).then_leavesFull ⟨by simp [acceptedBytes], .inr ⟨rfl, rfl⟩⟩

theorem State.drainAAction_leavesFull (hfull : s.fifo.count = c.n) : s.LeavesFull c (s.drainAAction c) := by
  rcases s.drainAAction_cases c with ⟨hempty, -⟩ | ⟨-, u, hu, h⟩
  · exact absurd (hfull.symm.trans hempty) c.nPos.ne'
  · rw [h]
    have hpeek : s.HoldsOn u := hu ▸ .gap hfull
    have hfed := hpeek.trans (.raiseAll u (feed c s.parser u.fifo.front).raised)
    have hgap := hfed.trans (.gap (hfed.1 ▸ hfull))
    exact hgap.then_leavesFull (State.offer_leavesFull (hgap.1 ▸ hfull) _)

end Sys2Proof.Machine
end

section
/-! PROOF. The statements about the FIFO of 20_memory, each from the lemmas above. -/

namespace Sys2Proof.Machine

/-- Settles O24: of a step's moves only an accepted insert writes a cell, and `head` is an address below `N`. -/
theorem storageStaysCanonical : Obligations.StorageStaysCanonical := by
  unfold Obligations.StorageStaysCanonical
  intro s t hf hw h
  rw [step_config h]
  exact (step_movesFifo h).wf hf hw

/-- Settles O20, one case for each of its three clauses. -/
theorem simultaneousPair : Obligations.SimultaneousPair := by
  unfold Obligations.SimultaneousPair
  intro s d hb hf i hi
  have hrun := exec_pair_run hi hb
  have hwrite : ∀ a, a ≠ s.fifo.head → Mem.read (Mem.write s.fifo.mem s.fifo.head d) a = Mem.read s.fifo.mem a :=
    fun a => Mem.read_write_other s.fifo.mem d
  rcases s.fresh.insertRemoveOp_outcomes s.config d with ⟨hfull, hne, h⟩ | ⟨hroom, hempty, h⟩ | ⟨hroom, hne, h⟩ <;>
    rw [h] at hrun
  · refine ⟨_, _, hrun, rfl, rfl, rfl, ⟨rfl, rfl, rfl, rfl⟩, ⟨⟨rfl, rfl, rfl⟩, rfl, rfl, rfl⟩, fun _ _ => rfl, ?_,
      fun hempty => absurd hempty hne, fun hroom => absurd hfull hroom⟩
    exact fun _ => ⟨rfl, Fifo.contents_pop hf hne, rfl, fun _ => rfl⟩
  · refine ⟨_, _, hrun, rfl, rfl, rfl, ⟨rfl, rfl, rfl, rfl⟩, ⟨⟨rfl, rfl, rfl⟩, rfl, rfl, rfl⟩, hwrite,
      fun hfull => absurd hfull hroom, ?_, fun _ hne => absurd hempty hne⟩
    have hcontents : (s.fifo.push s.config d).contents s.config = [d] := by
      rw [Fifo.contents_push hf hroom, Fifo.contents_of_count_zero s.config hempty, List.nil_append]
    exact fun _ => ⟨rfl, hcontents, rfl, List.append_assoc ..⟩
  · refine ⟨_, _, hrun, rfl, rfl, rfl, ⟨rfl, rfl, rfl, rfl⟩, ⟨⟨rfl, rfl, rfl⟩, rfl, rfl, rfl⟩, hwrite,
      fun hfull => absurd hfull hroom, fun hempty => absurd hempty hne, ?_⟩
    exact fun _ _ => ⟨rfl, Fifo.contents_push_pop hf hroom d, rfl, rfl⟩

/-- Settles O21, by induction on the series: each operation keeps the order of the bytes. -/
theorem firstInFirstOut : Obligations.FirstInFirstOut := by
  unfold Obligations.FirstInFirstOut
  intro is s hb hf his
  have hstart : PortHistory.InOrder s.config (s.fifo.contents s.config) ⟨[], [], s⟩ :=
    ⟨hb, rfl, hf, List.append_nil _⟩
  exact (hstart.foldl is his).order

/-- Settles O54: the FIFO stays full through every gap, so no `INSERT` is accepted before the `REMOVE`. -/
theorem fullUntilRemoved : Obligations.FullUntilRemoved := by
  unfold Obligations.FullUntilRemoved
  intro s hb hf hfull
  have hne : s.fifo.count ≠ 0 := hfull ▸ s.config.nPos.ne'
  obtain ⟨haccepted, hfifo⟩ := State.drainAAction_leavesFull (s := s.freshLoop) hfull
  refine ⟨_, exec_stepDrainA_run hb, haccepted, ?_⟩
  rcases hfifo with ⟨hphase, h⟩ | ⟨hphase, h⟩ <;> rw [hphase, h]
  · refine ⟨fun _ => rfl, rfl, fun _ => ?_, nofun, .inl rfl⟩
    rw [Fifo.contents_pop hf hne]
    rfl
  · exact ⟨fun _ => rfl, rfl, nofun, fun _ => rfl, .inr rfl⟩

end Sys2Proof.Machine
end

section
/-! PROOF. The five formats of 30_encoding: what a port makes of its own lines, and that each block's decoder and the
encoder undo each other. -/

namespace Sys2Proof

open BitVec

variable {p : Port} {w : Word} {i : Instr}

/-! ## The fields of a pattern (R64, R76) -/

theorem ofBool_getLsbD {n : Nat} (v : BitVec n) (k : Nat) : ofBool (v.getLsbD k) = v.extractLsb' k 1 := by
  ext j hj
  obtain rfl : j = 0 := by omega
  simp

/-- A request vector is its three lines and its data. -/
theorem portVector_fields (v : BitVec 11) :
    portVector (v.getLsbD 10) (v.getLsbD 9) (v.getLsbD 8) (v.extractLsb' 0 8) = v := by
  unfold portVector
  rw [ofBool_getLsbD, ofBool_getLsbD, ofBool_getLsbD,
    extractLsb'_append_extractLsb'_eq_extractLsb' (start₂ := 10) (start₁ := 9) (len₁ := 1) rfl,
    extractLsb'_append_extractLsb'_eq_extractLsb' (start₂ := 9) (start₁ := 8) (len₁ := 1) rfl,
    extractLsb'_append_extractLsb'_eq_extractLsb' (start₂ := 8) (start₁ := 0) (len₁ := 8) rfl]
  exact extractLsb'_eq_self

theorem portVector_clr (c w r : Bool) (d : Byte) : (portVector c w r d).getLsbD 10 = c := by
  unfold portVector
  rw [getLsbD_append, getLsbD_append, getLsbD_append]
  simp

theorem portVector_wr (c w r : Bool) (d : Byte) : (portVector c w r d).getLsbD 9 = w := by
  unfold portVector
  rw [getLsbD_append, getLsbD_append, getLsbD_append]
  simp

theorem portVector_rd (c w r : Bool) (d : Byte) : (portVector c w r d).getLsbD 8 = r := by
  unfold portVector
  rw [getLsbD_append, getLsbD_append]
  simp

theorem portVector_data (c w r : Bool) (d : Byte) : (portVector c w r d).extractLsb' 0 8 = d :=
  extractLsb'_append_eq_right

/-- An event word is the word of its fields: the five fields leave no bit out. -/
theorem eventWord_wordEvent (w : Word) : eventWord (wordEvent w) = w := by
  unfold eventWord wordEvent
  dsimp only
  rw [extractLsb'_append_extractLsb'_eq_extractLsb' (start₂ := 24) (start₁ := 16) (len₁ := 8) rfl,
    extractLsb'_append_extractLsb'_eq_extractLsb' (start₂ := 16) (start₁ := 8) (len₁ := 8) rfl,
    extractLsb'_append_extractLsb'_eq_extractLsb' (start₂ := 8) (start₁ := 4) (len₁ := 4) rfl,
    extractLsb'_append_extractLsb'_eq_extractLsb' (start₂ := 4) (start₁ := 0) (len₁ := 4) rfl]
  exact extractLsb'_eq_self

/-- A field is read by dropping the fields below it. -/
theorem wordEvent_eventWord (e : Event) : wordEvent (eventWord e) = e := by
  obtain ⟨cable, cin, d1, d2, d3⟩ := e
  unfold wordEvent eventWord
  dsimp only
  rw [Event.mk.injEq]
  refine ⟨?hcable, ?hcin, ?hd1, ?hd2, ?hd3⟩
  case hcable =>
    rw [extractLsb'_append_eq_of_le (by decide)]
    exact extractLsb'_append_eq_right
  case hcin => exact extractLsb'_append_eq_right
  case hd1 =>
    rw [extractLsb'_append_eq_of_le (by decide), extractLsb'_append_eq_of_le (by decide)]
    exact extractLsb'_append_eq_right
  case hd2 =>
    rw [extractLsb'_append_eq_of_le (by decide), extractLsb'_append_eq_of_le (by decide),
      extractLsb'_append_eq_of_le (by decide)]
    exact extractLsb'_append_eq_right
  case hd3 =>
    rw [extractLsb'_append_eq_of_le (by decide), extractLsb'_append_eq_of_le (by decide),
      extractLsb'_append_eq_of_le (by decide)]
    exact extractLsb'_append_eq_left

/-! ## What a port makes of its lines (R61) -/

/-- The rows of format BYTE8 on the eight lines of `feed_byte`. -/
def decodeFeed (b : Byte) : Except Reject Instr := (decodeByte b).elim (.error .noByteRow) .ok

/-- The row of format RST1 on the reset line. -/
def decodeReset (v : BitVec 1) : Except Reject Instr :=
  if v = 1#1 then .ok .reset else .error .resetNotAsserted

/-- The decoder of a port, on the port's own lines. -/
def decodeLines : (p : Port) → BitVec p.width → Except Reject Instr
  | .request, v => decodeRequest v
  | .rdData, v => .ok (decodeQuery .peek v)
  | .count, v => .ok (decodeQuery .count v)
  | .empty, v => .ok (decodeQuery .isEmpty v)
  | .full, v => .ok (decodeQuery .isFull v)
  | .feedByte, v => decodeFeed v
  | .serEvt, v => .ok (decodeEvent v)
  | .phase, v => decodePhase v
  | .rst, v => decodeReset v

theorem Port.width_le (p : Port) : p.width ≤ 32 := by
  cases p <;> decide

theorem Port.toNat_setWidth (p : Port) (v : BitVec p.width) : (v.setWidth 32).toNat = v.toNat :=
  toNat_setWidth_of_le p.width_le

/-- A pattern on the lines of a port is never too wide, and `decode` is the port's decoder there. -/
theorem decode_setWidth (p : Port) (v : BitVec p.width) : decode p (v.setWidth 32) = decodeLines p v := by
  have hfits : ¬ 2 ^ p.width ≤ (v.setWidth 32).toNat := not_le.mpr (p.toNat_setWidth v ▸ v.isLt)
  have hlow : (v.setWidth 32).setWidth p.width = v :=
    (setWidth_setWidth_of_le v p.width_le).trans (setWidth_eq v)
  unfold decode
  rw [if_neg hfits]
  cases p with
  | request => exact congrArg decodeRequest hlow
  | rdData | count | empty | full => exact congrArg (fun v => Except.ok (decodeQuery _ v)) hlow
  | feedByte =>
    dsimp only
    rw [show (v.setWidth 32).setWidth 8 = v from hlow]
    change _ = decodeFeed v
    unfold decodeFeed
    cases decodeByte v <;> rfl
  | serEvt => exact congrArg (fun v => Except.ok (decodeEvent v)) (setWidth_eq v)
  | phase => exact congrArg decodePhase hlow
  | rst =>
    have hone : ∀ v : BitVec 1,
        (if v.setWidth 32 = 1#32 then .ok .reset else .error .resetNotAsserted) = decodeReset v := by decide
    exact hone v

/-- A pattern that decodes stands on the port's own lines. -/
theorem exists_lines_of_decode (h : decode p w = .ok i) : ∃ v : BitVec p.width, w = v.setWidth 32 := by
  have hfits : w.toNat < 2 ^ p.width := by
    unfold decode at h
    split at h
    · cases h
    · omega
  refine ⟨w.setWidth p.width, BitVec.eq_of_toNat_eq ?_⟩
  rw [p.toNat_setWidth, BitVec.toNat_setWidth, Nat.mod_eq_of_lt hfits]

/-! ## Decoding what the encoder writes -/

theorem decodeRequest_portVector (c w r : Bool) (d : Byte) : decodeRequest (portVector c w r d) =
    if c then .ok (.clear w r d) else if w then .ok (.insert r d) else if r then .ok (.remove false d)
    else .error .noRequest := by
  unfold decodeRequest
  rw [portVector_clr, portVector_wr, portVector_rd, portVector_data]

theorem decodeQuery_portVector (row : Bool → Bool → Bool → Byte → Instr) (c w r : Bool) (d : Byte) :
    decodeQuery row (portVector c w r d) = row c w r d := by
  unfold decodeQuery
  rw [portVector_clr, portVector_wr, portVector_rd, portVector_data]

theorem decode_of_decodeByte {b : Byte} (h : decodeByte b = some i) : decode .feedByte (b.setWidth 32) = .ok i := by
  refine (decode_setWidth .feedByte b).trans ?_
  change decodeFeed b = .ok i
  rw [decodeFeed, h]
  rfl

theorem decode_eventWord (e : Event) : decode .serEvt (eventWord e) = .ok (decodeEvent (eventWord e)) := by
  calc decode .serEvt (eventWord e)
      = decode .serEvt ((eventWord e).setWidth 32) := congrArg _ (setWidth_eq (eventWord e)).symm
    _ = decodeLines .serEvt (eventWord e) := decode_setWidth .serEvt (eventWord e)

/-! ## Encoding what the decoders answer -/

theorem encode_decodeRequest {v : BitVec 11} (h : decodeRequest v = .ok i) :
    encode i = (.request, v.setWidth 32) ∧ i.WellFormed := by
  have hv := portVector_fields v
  unfold decodeRequest at h
  split_ifs at h with hclr hwr hrd <;> cases h
  · rw [hclr] at hv
    exact ⟨Prod.ext rfl (congrArg (setWidth 32) hv), rfl⟩
  · rw [Bool.eq_false_of_not_eq_true hclr, hwr] at hv
    exact ⟨Prod.ext rfl (congrArg (setWidth 32) hv), rfl⟩
  · rw [Bool.eq_false_of_not_eq_true hclr, Bool.eq_false_of_not_eq_true hwr, hrd] at hv
    exact ⟨Prod.ext rfl (congrArg (setWidth 32) hv), rfl⟩

/-- The byte of a status pattern, from its high nibble and its low one (R63). -/
theorem append_low_nibble {b : Byte} {h : Nibble} (hb : b.extractLsb' 4 4 = h) : h ++ b.extractLsb' 0 4 = b :=
  hb ▸ extractLsb'_append_extractLsb'

/-- The seven rows with a channel nibble, then the six single bytes. The tests are taken one by one with `ite_eq_iff`:
`split_ifs` over thirteen nested tests does not finish. -/
theorem encode_decodeStatus {b : Byte} (h : decodeStatus b = some i) :
    encode i = (.feedByte, b.setWidth 32) ∧ i.WellFormed := by
  unfold decodeStatus at h
  dsimp only at h
  iterate 7
    rcases ite_eq_iff.mp h with ⟨hb, hi⟩ | ⟨-, h⟩
    · cases hi
      exact ⟨Prod.ext rfl (congrArg (setWidth 32) (append_low_nibble hb)), rfl⟩
  iterate 6
    rcases ite_eq_iff.mp h with ⟨hb, hi⟩ | ⟨-, h⟩
    · cases hi
      exact ⟨hb ▸ rfl, rfl⟩
  cases h

theorem encode_decodeByte {b : Byte} (h : decodeByte b = some i) :
    encode i = (.feedByte, b.setWidth 32) ∧ i.WellFormed := by
  unfold decodeByte at h
  split_ifs at h with hrt hsox heox hstatus
  · cases h
    have hb : 0b11111#5 ++ b.extractLsb' 0 3 = b := by revert b; decide
    exact ⟨Prod.ext rfl (congrArg (setWidth 32) hb), rfl⟩
  · cases h
    exact ⟨hsox ▸ rfl, rfl⟩
  · cases h
    exact ⟨heox ▸ rfl, rfl⟩
  · exact encode_decodeStatus h
  · cases h
    have hb : 0#1 ++ b.extractLsb' 0 7 = b := by revert b; decide
    exact ⟨Prod.ext rfl (congrArg (setWidth 32) hb), rfl⟩

theorem encode_decodeEvent (w : Word) : encode (decodeEvent w) = (.serEvt, w) ∧ (decodeEvent w).WellFormed := by
  have hw := eventWord_wordEvent w
  unfold decodeEvent
  generalize wordEvent w = e at hw
  obtain ⟨cable, ⟨⟨k, hk⟩⟩, d1, d2, d3⟩ := e
  subst hw
  interval_cases k <;> exact ⟨rfl, rfl⟩

theorem encode_decodePhase {v : BitVec 3} (h : decodePhase v = .ok i) :
    encode i = (.phase, v.setWidth 32) ∧ i.WellFormed := by
  unfold decodePhase at h
  split_ifs at h with h0 h1 h2 h3 h4 <;> cases h
  all_goals subst v; exact ⟨rfl, rfl⟩

theorem encode_decodeFeed {b : Byte} (h : decodeFeed b = .ok i) :
    encode i = (.feedByte, b.setWidth 32) ∧ i.WellFormed := by
  unfold decodeFeed at h
  cases hb : decodeByte b with
  | none =>
    rw [hb] at h
    cases h
  | some j =>
    rw [hb] at h
    cases h
    exact encode_decodeByte hb

theorem encode_decodeReset {v : BitVec 1} (h : decodeReset v = .ok i) :
    encode i = (.rst, v.setWidth 32) ∧ i.WellFormed := by
  unfold decodeReset at h
  split at h
  · next hv =>
    cases h
    exact ⟨hv ▸ rfl, rfl⟩
  · cases h

theorem encode_decodeLines {v : BitVec p.width} (h : decodeLines p v = .ok i) :
    encode i = (p, v.setWidth 32) ∧ i.WellFormed := by
  cases p with
  | request => exact encode_decodeRequest h
  | rdData | count | empty | full =>
    cases h
    exact ⟨Prod.ext rfl (congrArg (setWidth 32) (portVector_fields v)), rfl⟩
  | feedByte => exact encode_decodeFeed h
  | serEvt =>
    cases h
    obtain ⟨henc, hwf⟩ := encode_decodeEvent v
    exact ⟨henc.trans (congrArg _ (setWidth_eq v).symm), hwf⟩
  | phase => exact encode_decodePhase h
  | rst => exact encode_decodeReset h

end Sys2Proof
end

section
/-! PROOF. The events of the parser: each but a real-time byte's is a frame of the buffer, with as many fields as its
Frame-Type declares (30_encoding R71, 42_parser R109). -/

namespace Sys2Proof.Machine

variable {c : Config} {p : Parser} {b : Byte} {e : Event}

/-! ## Byte classes and the length ROM (R62, R66) -/

theorem byteClass_rt_iff (b : Byte) : byteClass b = .rt ↔ 0xF8#8 ≤ b := by
  unfold byteClass
  split_ifs with h <;> simp [h]

/-- The Frame-Type of a System Exclusive end with `idx` bytes buffered declares `idx` bytes. -/
theorem Config.lenRom_eoxFrameType (c : Config) {n : BitVec 2} (hn : n ≠ 0#2) : c.lenRom (eoxFrameType n) = n := by
  rw [Config.lenRom_eq]
  revert n
  decide

/-- From 4 on, every Frame-Type declares a byte or more. -/
theorem Config.lenRom_pos (c : Config) {cin : Nibble} (h : 4#4 ≤ cin) : 1#2 ≤ c.lenRom cin := by
  rw [Config.lenRom_eq]
  revert cin
  decide

theorem eoxFrameType_ge (n : BitVec 2) : 4#4 ≤ eoxFrameType n := by
  revert n
  decide

/-! ## A completed event is a frame of the buffer -/

/-- `e` has a Frame-Type of 4 or more and is the frame of the buffer of `p` that its Frame-Type declares. -/
abbrev Parser.Frames (c : Config) (p : Parser) (e : Event) : Prop :=
  4#4 ≤ e.cin ∧ e = p.frame e.cin (c.lenRom e.cin)

theorem Parser.frames_of_len {cin : Nibble} {n : BitVec 2} (hcin : 4#4 ≤ cin) (hlen : c.lenRom cin = n) :
    p.Frames c (p.frame cin n) :=
  ⟨hcin, hlen ▸ rfl⟩

/-- The completion checks, once a byte is buffered: 7a declares three bytes, 7b as many as are buffered, and 7c what
step 4 has read from the ROM. -/
theorem Parser.complete_frames (hp : p.Opened c) (hidx : p.idx ≠ 0#2) (he : (p.complete c b).2 = some e) :
    (p.complete c b).1.Frames c e := by
  rcases p.complete_cases c b with ⟨-, -, h⟩ | ⟨-, -, h⟩ | ⟨-, -, hlen, h⟩ | ⟨-, -, -, h⟩ <;>
    rw [h] at he ⊢ <;> cases he
  · exact Parser.frames_of_len (cin := 4#4) (n := 3#2) (by decide) (Config.lenRom_eq c 4#4)
  · exact Parser.frames_of_len (eoxFrameType_ge p.idx) (Config.lenRom_eoxFrameType c hidx)
  · rcases hp with ⟨hzero, -⟩ | ⟨hopen, hexplen⟩
    · exact absurd (hlen.trans hzero) hidx
    · exact Parser.frames_of_len (BitVec.le_trans (by decide : 4#4 ≤ 8#4) hopen) (hlen.trans hexplen).symm

theorem Parser.store_idx (p : Parser) (b : Byte) : (p.store b).idx = p.idx + 1#2 := by
  unfold Parser.store Parser.put
  split_ifs <;> rfl

/-- Below position 3 a store leaves a byte or more in the buffer. -/
theorem Parser.store_idx_ne_zero (h : p.idx ≠ 3#2) (b : Byte) : (p.store b).idx ≠ 0#2 := by
  rw [p.store_idx]
  generalize p.idx = n at h
  revert n
  decide

theorem Parser.storeAndComplete_frames {cs : List Condition} (hp : p.Opened c) (hidx : p.idx ≠ 3#2)
    (he : (p.storeAndComplete c b cs).event = some e) : (p.storeAndComplete c b cs).parser.Frames c e := by
  obtain ⟨hexplen, hopen, -⟩ := p.store_keeps b
  have hstored : (p.store b).Opened c := by rwa [Parser.Opened, hexplen, hopen]
  exact Parser.complete_frames hstored (Parser.store_idx_ne_zero hidx b) he

/-- Every event but that of a real-time byte is a frame of the buffer that the `feed` leaves. -/
theorem feed_frames (hp : p.Inv c) (hb : byteClass b ≠ .rt) (he : (feed c p b).event = some e) :
    (feed c p b).parser.Frames c e := by
  have hguarded : p.guarded.Opened c := by
    rw [p.guarded_eq]
    exact hp.1
  unfold feed at he ⊢
  cases hclass : byteClass b with
  | rt => exact absurd hclass hb
  | sox =>
    rw [hclass] at he
    exact Parser.storeAndComplete_frames (p := { p.guarded with sysex := true }) hguarded p.guarded_idx he
  | eox =>
    rw [hclass] at he
    exact Parser.storeAndComplete_frames (p := { p.guarded with sysex := false }) hguarded p.guarded_idx he
  | status =>
    rw [hclass] at he
    exact Parser.storeAndComplete_frames (.inr ⟨statusNibble_ge hclass, rfl⟩) (by decide : 0#2 ≠ 3#2) he
  | data =>
    rw [hclass] at he
    dsimp only at he ⊢
    unfold feedDataByte at he ⊢
    split at he
    · cases he
    · next h =>
      rw [if_neg h]
      exact Parser.storeAndComplete_frames hguarded p.guarded_idx he

/-- Step 4 sets the expected length through the ROM (R66, R106). -/
theorem feed_status_explen (c : Config) (p : Parser) (h : byteClass b = .status) :
    (feed c p b).parser.explen = c.lenRom (statusNibble b) := by
  rw [feed_status c p h]
  exact (Parser.storeAndComplete_keeps c _ b p.guardRaises).1

end Sys2Proof.Machine
end

section
/-! PROOF. The statements about 30_encoding, each from the lemmas above. -/

namespace Sys2Proof.Machine

/-- Settles O1, one case for each row: the row's pattern stands on its port's lines, where the block's decoder reads the
operands back. -/
theorem decodeOfEncode : Obligations.DecodeOfEncode := by
  unfold Obligations.DecodeOfEncode
  intro i hi
  cases i with
  | insert r d =>
    exact (decode_setWidth .request (portVector false true r d)).trans (decodeRequest_portVector false true r d)
  | remove w d =>
    obtain rfl : w = false := by simpa [Instr.WellFormed, Instr.wellFormed] using hi
    exact (decode_setWidth .request (portVector false false true d)).trans (decodeRequest_portVector false false true d)
  | clear w r d =>
    exact (decode_setWidth .request (portVector true w r d)).trans (decodeRequest_portVector true w r d)
  | peek c w r d =>
    exact (decode_setWidth .rdData (portVector c w r d)).trans (congrArg _ (decodeQuery_portVector .peek c w r d))
  | count c w r d =>
    exact (decode_setWidth .count (portVector c w r d)).trans (congrArg _ (decodeQuery_portVector .count c w r d))
  | isEmpty c w r d =>
    exact (decode_setWidth .empty (portVector c w r d)).trans (congrArg _ (decodeQuery_portVector .isEmpty c w r d))
  | isFull c w r d =>
    exact (decode_setWidth .full (portVector c w r d)).trans (congrArg _ (decodeQuery_portVector .isFull c w r d))
  | feedRt rt => exact decode_of_decodeByte (by revert rt; decide)
  | feedSt8 ch | feedSt9 ch | feedStA ch | feedStB ch | feedStC ch | feedStD ch | feedStE ch =>
    exact decode_of_decodeByte (by revert ch; decide)
  | feedData data => exact decode_of_decodeByte (by revert data; decide)
  | feedSox | feedEox | feedSc1 | feedSc2 | feedSc3 | feedSc4 | feedSc5 | feedSc6 => decide
  | ser0 | ser1 | ser2 | ser3 | ser4 | ser5 | ser6 | ser7 | ser8 | ser9 | ser10 | ser11 | ser12 | ser13 | ser14
  | ser15 =>
    refine (decode_eventWord _).trans ?_
    rw [decodeEvent, wordEvent_eventWord]
    rfl
  | stepPump1 | stepCfg | stepDrainA | stepDrainB | stepPump2 | reset => decide

/-- Settles O2: a pattern that decodes stands on its port's lines, and there each block's decoder keeps every bit. -/
theorem encodeOfDecode : Obligations.EncodeOfDecode := by
  unfold Obligations.EncodeOfDecode
  intro p w i h
  obtain ⟨v, rfl⟩ := exists_lines_of_decode h
  exact encode_decodeLines ((decode_setWidth p v).symm.trans h)

/-- Settles O40: outside class RT the event is a frame of the buffer, and a frame is zero beyond its byte count. -/
theorem emittedEventForm : Obligations.EmittedEventForm := by
  unfold Obligations.EmittedEventForm
  intro c p b e hp he
  by_cases hb : byteClass b = .rt
  · have hrt : 0xF8#8 ≤ b := (byteClass_rt_iff b).mp hb
    rw [feed_rt c p hb] at he ⊢
    cases he
    have hcin : 4#4 ≤ 15#4 := by decide
    exact ⟨rfl, hcin, Config.lenRom_pos c hcin, fun hlt => absurd hrt (BitVec.not_le.mpr hlt), fun _ => ⟨rfl, rfl⟩,
      fun _ => rfl, fun _ => rfl⟩
  · have hnot : ¬ 0xF8#8 ≤ b := fun h => hb ((byteClass_rt_iff b).mpr h)
    obtain ⟨hcin, hframe⟩ := feed_frames hp hb he
    generalize (feed c p b).parser = q at hframe
    have hd2 : e.d2 = if 2#2 ≤ c.lenRom e.cin then q.ev1 else 0#8 := congrArg Event.d2 hframe
    have hd3 : e.d3 = if 3#2 ≤ c.lenRom e.cin then q.ev2 else 0#8 := congrArg Event.d3 hframe
    refine ⟨congrArg Event.cable hframe, hcin, Config.lenRom_pos c hcin, fun _ => ?_, fun h => absurd h hnot, ?_, ?_⟩
    · exact ⟨congrArg Event.d1 hframe, fun h => hd2.trans (if_pos h), fun h => hd3.trans (if_pos h)⟩
    · exact fun h => hd2.trans (if_neg (BitVec.not_le.mpr h))
    · exact fun h => hd3.trans (if_neg (BitVec.not_le.mpr h))

/-- Settles O3: nine closed words. -/
theorem spelledWordsDecode : Obligations.SpelledWordsDecode := by
  unfold Obligations.SpelledWordsDecode
  decide

/-- Settles O4: the tests of R62, tried in its order, leave each class its range, and every byte has a row. -/
theorem byteClassesAsTabled : Obligations.ByteClassesAsTabled := by
  unfold Obligations.ByteClassesAsTabled
  intro b
  obtain ⟨i, hi⟩ := Option.isSome_iff_exists.mp (decodeByte_total b)
  refine ⟨byteClass_rt_iff b, ?_, ?_, ?_, ?_, by rw [decode_of_decodeByte hi]; rfl⟩
  all_goals
    unfold byteClass
    split_ifs <;> simp <;> bv_omega

/-- Settles O5: every configuration's ROM is the table, and step 4 reads it at the high nibble. -/
theorem lengthRomAsTabled : Obligations.LengthRomAsTabled := by
  unfold Obligations.LengthRomAsTabled
  refine ⟨?_, fun c p b hb => ?_⟩
  · intro x hx c
    rw [Config.lenRom_eq]
    revert x
    decide
  · have hnibble : (b >>> 4).setWidth 4 = statusNibble b := by
      revert b
      decide
    rw [hnibble]
    exact feed_status_explen c p hb

end Sys2Proof.Machine
end

section
/-! PROOF. The operations of 41_fifo, one at a time: what each answers where its guard is known, and that it leaves
every register outside the FIFO alone. -/

namespace Sys2Proof.Machine

variable {c : Config} {f : Fifo} {s : State}

/-! ## The contents and the flags (R17, R18) -/

@[simp] theorem Fifo.length_contents (c : Config) (f : Fifo) : (f.contents c).length = f.count := by
  simp [Fifo.contents]

theorem Fifo.contents_eq_nil_iff (c : Config) (f : Fifo) : f.contents c = [] ↔ f.count = 0 := by
  rw [← List.length_eq_zero_iff, Fifo.length_contents]

theorem Fifo.isEmpty_eq_contents (c : Config) (f : Fifo) : f.isEmpty = decide (f.contents c = []) :=
  decide_eq_decide.mpr (Fifo.contents_eq_nil_iff c f).symm

theorem Fifo.isFull_eq_contents (c : Config) (f : Fifo) : f.isFull c = decide ((f.contents c).length = c.n) := by
  rw [Fifo.length_contents]
  rfl

/-- The byte that `PEEK` and a defined `REMOVE` read is the first of the contents (R88, R89). -/
theorem Fifo.head?_contents (hf : f.Inv c) (hne : f.count ≠ 0) : (f.contents c).head? = some f.front := by
  rw [Fifo.contents_pop hf hne]
  rfl

/-! ## Each operation where its guard is known -/

theorem State.peekOp_held (h : s.fifo.count ≠ 0) :
    s.peekOp = { s with out := { s.out with rdData := some s.fifo.front } } :=
  s.peekOp_cases.elim (fun hcase => absurd hcase.1 h) fun hcase => hcase.2

/-- A `CLEAR` that comes once the run loop is entered is refused (R92, U4). -/
theorem exec_clear_entered (w r : Bool) (d : Byte) (hb : s.bridgeMode = true) (he : s.entered = true) :
    exec (.clear w r d) s = .refused .clearAfterEntry := by
  change execClear s = _
  unfold execClear
  rw [hb, he, Bool.and_self, if_pos rfl]

/-! ## What an operation leaves alone -/

/-- Every register but the FIFO's, and every input, is unchanged. -/
abbrev State.KeepsRest (s t : State) : Prop :=
  KeepsParser s t ∧ KeepsSerializer s t ∧ KeepsController s t ∧ KeepsInputs s t

/-- The FIFO and the model's record of results and trace may change freely. -/
theorem State.keepsRest_update (s : State) (g : Fifo) (o : Outputs) (tr : List TraceItem) :
    s.KeepsRest { s with fifo := g, out := o, trace := tr } :=
  ⟨rfl, rfl, ⟨rfl, rfl, rfl, rfl⟩, ⟨rfl, rfl, rfl⟩, rfl, rfl, rfl⟩

/-- New results alone change no register. -/
theorem State.keeps_out (s : State) (o : Outputs) :
    { s with out := o }.trace = s.trace ∧ KeepsFifo s { s with out := o } ∧ s.KeepsRest { s with out := o } :=
  ⟨rfl, ⟨rfl, rfl, rfl, fun _ => rfl⟩, s.keepsRest_update s.fifo o s.trace⟩

end Sys2Proof.Machine
end

section
/-! PROOF. The statements about 41_fifo, each from the lemmas above. -/

namespace Sys2Proof.Machine

/-- Settles O12: with room the `INSERT` is a push at `head`, which no live cell shares. -/
theorem insertStoresByte : Obligations.InsertStoresByte := by
  unfold Obligations.InsertStoresByte
  intro s b hb hf hroom
  have hrun := exec_insert_run b hb
  rw [State.insertOp_room (s := s.fresh) hroom b] at hrun
  refine ⟨_, hrun, Fifo.contents_push hf hroom b, Mem.read_write_same s.fifo.mem s.fifo.head b, ?_, rfl, rfl, rfl,
    rfl, rfl, s.keepsRest_update _ _ _⟩
  exact fun a ha => Mem.read_write_other s.fifo.mem b ha

/-- Settles O14: on a non-empty FIFO the `REMOVE` is a pop, and the contents are the front and what the pop leaves. -/
theorem removeTakesOldest : Obligations.RemoveTakesOldest := by
  unfold Obligations.RemoveTakesOldest
  intro s d hb hf hne
  have hrun := exec_remove_run d hb
  rw [State.removeOp_held (s := s.fresh) hne] at hrun
  have hcount : s.fifo.count - 1 + 1 = s.fifo.count := Nat.sub_one_add_one hne
  exact ⟨_, _, hrun, rfl, Fifo.contents_pop hf hne, rfl, hcount, rfl, fun _ => rfl, rfl, s.keepsRest_update _ _ _⟩

/-- Settles O16: on a non-empty FIFO the `PEEK` answers the front, the first of the contents, and writes no register. -/
theorem peekReadsOldest : Obligations.PeekReadsOldest := by
  unfold Obligations.PeekReadsOldest
  intro s c w r d hb hf hne
  have hrun := exec_peek_run c w r d hb
  rw [State.peekOp_held (s := s.fresh) hne] at hrun
  exact ⟨_, hrun, (Fifo.head?_contents hf hne).symm, rfl, s.keeps_out _⟩

/-- Settles O17: each query answers a register or a flag, which say of the contents what is asked. -/
theorem queriesAnswer : Obligations.QueriesAnswer := by
  unfold Obligations.QueriesAnswer
  intro s c w r d hb
  refine ⟨?count, ?isEmpty, ?isFull⟩
  case count =>
    exact ⟨_, exec_count_run c w r d hb, congrArg some (Fifo.length_contents s.config s.fifo).symm, s.keeps_out _⟩
  case isEmpty =>
    exact ⟨_, exec_isEmpty_run c w r d hb, congrArg some (Fifo.isEmpty_eq_contents s.config s.fifo), s.keeps_out _⟩
  case isFull =>
    exact ⟨_, exec_isFull_run c w r d hb, congrArg some (Fifo.isFull_eq_contents s.config s.fifo), s.keeps_out _⟩

/-- Settles O18: before the loop is entered `CLEAR` runs, and it writes the indices and the count only. -/
theorem clearEmptiesBeforeEntry : Obligations.ClearEmptiesBeforeEntry := by
  unfold Obligations.ClearEmptiesBeforeEntry
  intro s w r d hb he
  exact ⟨_, exec_clear_run w r d hb he, rfl, rfl, rfl, fun _ => rfl, rfl, s.keepsRest_update _ _ _⟩

/-- Settles O19: the guard of `CLEAR` reads the entry mark. -/
theorem clearRefusedAfterEntry : Obligations.ClearRefusedAfterEntry := by
  unfold Obligations.ClearRefusedAfterEntry
  exact fun s w r d hb he => exec_clear_entered w r d hb he

end Sys2Proof.Machine
end

section
/-! PROOF. The parser of 42_parser: the guard, the store and each outcome of the completion checks as an equation, and
with them `feed` as the one algorithm of R101. -/

namespace Sys2Proof.Machine

variable {c : Config} {p : Parser} {b : Byte} {cs : List Condition}

/-! ## The bytes of the rows (R62, R63) -/

theorem realTimeByte_eq (rt : BitVec 3) : 0b11111#5 ++ rt = 0xF8#8 + rt.setWidth 8 := by
  revert rt
  decide

theorem dataByte_eq (d : BitVec 7) : 0#1 ++ d = d.setWidth 8 := by
  revert d
  decide

theorem dataByte_lt (d : BitVec 7) : d.setWidth 8 < 0x80#8 := by
  revert d
  decide

theorem byteClass_eq_sox_iff (b : Byte) : byteClass b = .sox ↔ b = 0xF0#8 := by
  revert b
  decide

theorem byteClass_eq_eox_iff (b : Byte) : byteClass b = .eox ↔ b = 0xF7#8 := by
  revert b
  decide

theorem byteClass_eq_status_iff (b : Byte) :
    byteClass b = .status ↔ 0x80#8 ≤ b ∧ b ≠ 0xF0#8 ∧ b ≠ 0xF7#8 ∧ b < 0xF8#8 := by
  revert b
  decide

theorem byteClass_eq_data_iff (b : Byte) : byteClass b = .data ↔ b < 0x80#8 := by
  revert b
  decide

theorem ne_eox_of_lt (hb : b < 0x80#8) : b ≠ 0xF7#8 := by
  bv_omega

theorem shift_eq_statusNibble (b : Byte) : (b >>> 4).setWidth 4 = statusNibble b := by
  revert b
  decide

/-! ## The guard (R103) -/

/-- The guard leaves `idx` at the position the next byte goes to. -/
theorem Parser.guarded_eq_position (p : Parser) : p.guarded = { p with idx := p.position } := by
  unfold Parser.guarded Parser.position
  split <;> rfl

theorem Parser.position_of_ne {p : Parser} (hidx : p.idx ≠ 3#2) : p.position = p.idx := if_neg hidx

theorem Parser.position_of_idle {p : Parser} (hidx : p.idx = 0#2) : p.position = 0#2 := by
  rw [Parser.position, hidx]
  rfl

/-- The guard's report in the trace. -/
theorem Parser.map_guardRaises (p : Parser) :
    p.guardRaises.map TraceItem.raised = if p.idx = 3 then [.raised .parserOverrun] else [] :=
  apply_ite (List.map TraceItem.raised) _ _ _

/-! ## The store and the completion checks (R107, R110 to R112) -/

/-- A store, field by field. -/
theorem Parser.store_eq (p : Parser) (b : Byte) :
    p.store b = { p with ev0 := if p.idx = 0#2 then b else p.ev0, ev1 := if p.idx = 1#2 then b else p.ev1,
                         ev2 := if p.idx = 2#2 then b else p.ev2, idx := p.idx + 1#2 } := by
  unfold Parser.store Parser.put
  by_cases h0 : p.idx = 0#2
  · simp [h0]
  · by_cases h1 : p.idx = 1#2
    · simp [h1]
    · by_cases h2 : p.idx = 2#2 <;> simp [h0, h1, h2]

/-- A completion moves `idx` only: the data fields are those of the store. -/
theorem Parser.storeAndComplete_buffer (c : Config) (p : Parser) (b : Byte) (cs : List Condition) :
    (p.storeAndComplete c b cs).parser.ev0 = (if p.idx = 0#2 then b else p.ev0) ∧
      (p.storeAndComplete c b cs).parser.ev1 = (if p.idx = 1#2 then b else p.ev1) ∧
      (p.storeAndComplete c b cs).parser.ev2 = (if p.idx = 2#2 then b else p.ev2) := by
  change ((p.store b).complete c b).1.ev0 = _ ∧ ((p.store b).complete c b).1.ev1 = _ ∧
    ((p.store b).complete c b).1.ev2 = _
  rw [Parser.complete_keeps, p.store_eq b]
  exact ⟨rfl, rfl, rfl⟩

/-- Check 7a looks at the stored buffer: it fires at the third byte of a packet, that is from position 2. -/
theorem Parser.store_packet_iff (p : Parser) (b : Byte) :
    (p.store b).sysex = true ∧ (p.store b).idx = 3#2 ↔ p.sysex = true ∧ p.idx = 2#2 := by
  obtain ⟨-, -, hsysex⟩ := p.store_keeps b
  have hthree : ∀ k : BitVec 2, k + 1#2 = 3#2 ↔ k = 2#2 := by decide
  rw [hsysex, p.store_idx, hthree]

/-- Steps 6 and 7 as one chain of tests on the stored buffer. -/
theorem Parser.storeAndComplete_eq (c : Config) (p : Parser) (b : Byte) (cs : List Condition) :
    p.storeAndComplete c b cs =
      if (p.store b).sysex = true ∧ (p.store b).idx = 3#2 then
        ⟨{ p.store b with idx := 0#2 }, some ((p.store b).frame 4#4 3#2), cs⟩
      else if b = 0xF7#8 then
        ⟨{ p.store b with idx := 0#2 }, some ((p.store b).frame (eoxFrameType (p.store b).idx) (p.store b).idx), cs⟩
      else if (p.store b).idx = (p.store b).explen then
        ⟨{ p.store b with idx := c.carryIndex.setWidth 2 },
          some ((p.store b).frame (p.store b).openCin (p.store b).idx), cs⟩
      else ⟨p.store b, none, cs⟩ := by
  unfold Parser.storeAndComplete
  rcases (p.store b).complete_cases c b with
    ⟨hs, h3, h⟩ | ⟨hb, h7a, h⟩ | ⟨hb, h7a, hlen, h⟩ | ⟨hb, h7a, hlen, h⟩ <;> rw [h]
  · rw [if_pos ⟨hs, h3⟩]
  · rw [if_neg h7a, if_pos hb]
  · rw [if_neg h7a, if_neg hb, if_pos hlen]
  · rw [if_neg h7a, if_neg hb, if_neg hlen]

/-- 7a: the third byte of a System Exclusive packet (R110). -/
theorem Parser.storeAndComplete_packet (hs : p.sysex = true) (hk : p.idx = 2#2) :
    p.storeAndComplete c b cs = ⟨{ p with ev2 := b, idx := 0#2 }, some ⟨0#4, 4#4, p.ev0, p.ev1, b⟩, cs⟩ := by
  rw [p.storeAndComplete_eq, if_pos ((p.store_packet_iff b).mpr ⟨hs, hk⟩), p.store_eq, hk]
  rfl

/-- 7b: the end of a System Exclusive message (R111). -/
theorem Parser.storeAndComplete_end (h7a : ¬(p.sysex = true ∧ p.idx = 2#2)) :
    p.storeAndComplete c 0xF7#8 cs = ⟨{ p.store 0xF7#8 with idx := 0#2 },
      some ((p.store 0xF7#8).frame (eoxFrameType (p.idx + 1#2)) (p.idx + 1#2)), cs⟩ := by
  rw [p.storeAndComplete_eq, if_neg (mt (p.store_packet_iff _).mp h7a), if_pos rfl, p.store_idx]

/-- 7c: the expected length is reached (R112). -/
theorem Parser.storeAndComplete_message (h7a : ¬(p.sysex = true ∧ p.idx = 2#2)) (hb : b ≠ 0xF7#8)
    (hlen : p.idx + 1#2 = p.explen) :
    p.storeAndComplete c b cs = ⟨{ p.store b with idx := c.carryIndex.setWidth 2 },
      some ((p.store b).frame p.openCin (p.idx + 1#2)), cs⟩ := by
  obtain ⟨hexplen, hopen, -⟩ := p.store_keeps b
  rw [p.storeAndComplete_eq, if_neg (mt (p.store_packet_iff b).mp h7a), if_neg hb,
    if_pos ((p.store_idx b).trans (hlen.trans hexplen.symm)), hopen, p.store_idx]

/-- No check fires: the byte waits in the buffer. -/
theorem Parser.storeAndComplete_waits (h7a : ¬(p.sysex = true ∧ p.idx = 2#2)) (hb : b ≠ 0xF7#8)
    (hlen : p.idx + 1#2 ≠ p.explen) : p.storeAndComplete c b cs = ⟨p.store b, none, cs⟩ := by
  obtain ⟨hexplen, -, -⟩ := p.store_keeps b
  rw [p.storeAndComplete_eq, if_neg (mt (p.store_packet_iff b).mp h7a), if_neg hb,
    if_neg fun h => hlen ((p.store_idx b).symm.trans (h.trans hexplen))]

/-! ## The algorithm of R101 -/

/-- Steps 2 to 4 of the pseudocode: what the byte makes of the registers before it is stored (R104 to R106). -/
def Parser.prepare (c : Config) (p : Parser) (b : Byte) : Parser :=
  if b = 0xF0#8 then { p with sysex := true }
  else if b = 0xF7#8 then { p with sysex := false }
  else if b ≥ 0x80#8 then
    { p with idx := 0#2, explen := c.lenRom (statusNibble b), openCin := statusNibble b,
             sysex := if c.statusClearsSysex then false else p.sysex }
  else p

/-- The pseudocode in the model's operations: its steps 6 and 7 are `storeAndComplete`. -/
theorem feedAlgorithm_eq (c : Config) (p : Parser) (b : Byte) :
    feedAlgorithm c p b =
      if b ≥ 0xF8#8 then feedRealTime p b
      else if b < 0x80#8 ∧ p.position = 0#2 ∧ p.sysex = false then
        ⟨p.guarded, none, p.guardRaises ++ [.protocolViolation b]⟩
      else (p.guarded.prepare c b).storeAndComplete c b p.guardRaises := by
  rw [Parser.storeAndComplete_eq, Parser.store_eq, Parser.prepare, ← shift_eq_statusNibble, p.guarded_eq_position]
  rfl

/-- The test for a stray data byte (R108) reads the registers that the guard leaves. -/
theorem Parser.stray_iff (p : Parser) :
    (p.guarded.idx = 0#2 && !p.guarded.sysex) = true ↔ p.position = 0#2 ∧ p.sysex = false := by
  rw [p.guarded_eq_position, Bool.and_eq_true, decide_eq_true_iff, Bool.not_eq_true']

/-- Each class is one path through the pseudocode's tests. -/
theorem feed_eq_feedAlgorithm (c : Config) (p : Parser) (b : Byte) : feed c p b = feedAlgorithm c p b := by
  rw [feedAlgorithm_eq]
  cases hclass : byteClass b with
  | rt => rw [feed_rt c p hclass, if_pos ((byteClass_rt_iff b).mp hclass)]
  | sox =>
    obtain rfl := (byteClass_eq_sox_iff b).mp hclass
    exact feed_sox c p
  | eox =>
    obtain rfl := (byteClass_eq_eox_iff b).mp hclass
    exact feed_eox c p
  | status =>
    obtain ⟨hlo, hsox, heox, hhi⟩ := (byteClass_eq_status_iff b).mp hclass
    have hflag : (p.sysex && !c.statusClearsSysex) = if c.statusClearsSysex then false else p.guarded.sysex := by
      rw [p.guarded_eq_position]
      cases c.statusClearsSysex <;> simp
    rw [feed_status c p hclass, if_neg (BitVec.not_le.mpr hhi), if_neg fun h => BitVec.not_lt.mpr hlo h.1,
      Parser.prepare, if_neg hsox, if_neg heox, if_pos hlo, ← hflag]
    rfl
  | data =>
    have hlt := (byteClass_eq_data_iff b).mp hclass
    have hnot : ¬ b ≥ 0xF8#8 := by bv_omega
    have hprepare : p.guarded.prepare c b = p.guarded := by
      rw [Parser.prepare, if_neg (by bv_omega), if_neg (by bv_omega), if_neg (by bv_omega)]
    rw [feed_data c p hclass, if_neg hnot, hprepare, feedDataByte]
    simp only [Parser.stray_iff, hlt, true_and]

/-- `feed` as three branches: a real-time byte, a stray data byte, a byte that is stored. -/
theorem feed_eq (c : Config) (p : Parser) (b : Byte) :
    feed c p b =
      if b ≥ 0xF8#8 then feedRealTime p b
      else if b < 0x80#8 ∧ p.position = 0#2 ∧ p.sysex = false then
        ⟨p.guarded, none, p.guardRaises ++ [.protocolViolation b]⟩
      else (p.guarded.prepare c b).storeAndComplete c b p.guardRaises :=
  (feed_eq_feedAlgorithm c p b).trans (feedAlgorithm_eq c p b)

/-- Below class RT, `feed` is the guard and then `feed` from where the guard leaves the parser (R103). -/
theorem feed_guarded (c : Config) (p : Parser) (hb : b < 0xF8#8) :
    feed c p b = { feed c p.guarded b with raised := p.guardRaises ++ (feed c p.guarded b).raised } := by
  obtain ⟨hid, hno⟩ := Parser.guarded_of_ne p.guarded_idx
  have hpos : p.guarded.position = p.position := by
    rw [Parser.position_of_ne p.guarded_idx, p.guarded_eq_position]
  have hsysex : p.guarded.sysex = p.sysex := by rw [p.guarded_eq_position]
  rw [feed_eq, feed_eq c p.guarded, if_neg (BitVec.not_le.mpr hb), if_neg (BitVec.not_le.mpr hb), hid, hno, hpos,
    hsysex]
  split_ifs
  · rfl
  · rw [Parser.storeAndComplete, Parser.storeAndComplete, List.append_nil]

end Sys2Proof.Machine
end

section
/-! PROOF. The rows of format BYTE8 (42_parser): each is `feed` of its byte, and what it makes of the parser as an
equation on the registers before it. -/

namespace Sys2Proof.Machine

variable {c : Config} {p : Parser} {s : State}

/-! ## Every row runs `feed` (R63, R101) -/

/-- A row whose function is `feed` at the byte its pattern stands for. -/
theorem State.feedWith_row {row : Config → Parser → FeedResult} {v b : Byte} (hrow : ∀ c p, feed c p v = row c p)
    (hword : v.setWidth 32 = b.setWidth 32) : s.feedWith row = s.feedWith fun c p => feed c p b := by
  obtain rfl : v = b := by bv_omega
  exact congrArg s.feedWith (funext₂ fun c p => (hrow c p).symm)

/-- An instruction whose pattern is the byte `b` at the parser's port runs `feed` of `b`. -/
theorem exec_of_encode_feedByte {i : Instr} {b : Byte} (h : encode i = (.feedByte, b.setWidth 32)) :
    exec i s = s.feedWith fun c p => feed c p b := by
  obtain ⟨hport, hword⟩ := Prod.ext_iff.mp h
  cases i with
  | feedRt rt => exact State.feedWith_row (fun c p => feed_rt c p (byteClass_realTime rt)) hword
  | feedSox => exact State.feedWith_row feed_sox hword
  | feedEox => exact State.feedWith_row feed_eox hword
  | feedSt8 ch | feedSt9 ch | feedStA ch | feedStB ch | feedStC ch | feedStD ch | feedStE ch =>
    exact State.feedWith_row (fun c p => feed_status c p (byteClass_status ch (by decide) (by decide))) hword
  | feedSc1 | feedSc2 | feedSc3 | feedSc4 | feedSc5 | feedSc6 =>
    exact State.feedWith_row (fun c p => feed_status c p (by decide)) hword
  | feedData d => exact State.feedWith_row (fun c p => feed_data c p (byteClass_data d)) hword
  | _ => cases hport

/-- The state after a row of format BYTE8 whose function answers `r`. -/
abbrev State.fed (s : State) (r : FeedResult) : State :=
  { s with parser := r.parser, out := { evt := some r.event }, trace := s.trace ++ r.raised.map .raised }

/-- A row of format BYTE8 writes the parser and the model's record only. -/
theorem State.fed_keeps (s : State) (r : FeedResult) :
    KeepsFifo s (s.fed r) ∧ KeepsSerializer s (s.fed r) ∧ KeepsController s (s.fed r) ∧ KeepsInputs s (s.fed r) :=
  ⟨⟨rfl, rfl, rfl, fun _ => rfl⟩, rfl, ⟨rfl, rfl, rfl, rfl⟩, ⟨rfl, rfl, rfl⟩, rfl, rfl, rfl⟩

theorem exec_feedRt_run (rt : BitVec 3) (hb : s.bridgeMode = true) :
    exec (.feedRt rt) s = .next (s.fed (feedRealTime s.parser (0xF8#8 + rt.setWidth 8))) := by
  rw [← realTimeByte_eq]
  exact State.feedWith_run hb fun _ p => feedRealTime p (0b11111#5 ++ rt)

theorem exec_feedSox_run (hb : s.bridgeMode = true) :
    exec .feedSox s = .next (s.fed (feedSysexStart s.config s.parser)) :=
  State.feedWith_run hb feedSysexStart

theorem exec_feedEox_run (hb : s.bridgeMode = true) :
    exec .feedEox s = .next (s.fed (feedSysexEnd s.config s.parser)) :=
  State.feedWith_run hb feedSysexEnd

theorem exec_feedData_run (d : BitVec 7) (hb : s.bridgeMode = true) :
    exec (.feedData d) s = .next (s.fed (feedDataByte s.config s.parser (d.setWidth 8))) := by
  rw [← dataByte_eq]
  exact State.feedWith_run hb fun c p => feedDataByte c p (0#1 ++ d)

/-! ## The classes where the path is known (R104 to R108) -/

theorem feedSysexStart_eq (c : Config) (p : Parser) : feedSysexStart c p =
    Parser.storeAndComplete c { p with idx := p.position, sysex := true } 0xF0#8 p.guardRaises := by
  rw [feedSysexStart, p.guarded_eq_position]

theorem feedSysexEnd_eq (c : Config) (p : Parser) : feedSysexEnd c p =
    Parser.storeAndComplete c { p with idx := p.position, sysex := false } 0xF7#8 p.guardRaises := by
  rw [feedSysexEnd, p.guarded_eq_position]

theorem feedStatus_eq (c : Config) (p : Parser) (b : Byte) : feedStatus c p b =
    Parser.storeAndComplete c { p with idx := 0#2, explen := c.lenRom (statusNibble b), openCin := statusNibble b,
                                       sysex := p.sysex && !c.statusClearsSysex } b p.guardRaises := by
  rw [feedStatus, p.guarded_eq_position]

/-- A byte of the system-common range is a message of one byte, complete when it is stored. -/
theorem feedStatus_systemCommon {b : Byte} (hb : b ≠ 0xF7#8) (hnibble : statusNibble b = 15#4) :
    feedStatus c p b =
      ⟨{ p with ev0 := b, idx := c.carryIndex.setWidth 2, sysex := p.sysex && !c.statusClearsSysex, explen := 1#2,
                openCin := 15#4 }, some (realTimeEvent b), p.guardRaises⟩ := by
  have hlen : c.lenRom 15#4 = 1#2 := Config.lenRom_eq c 15#4
  rw [feedStatus_eq, hnibble, hlen, Parser.storeAndComplete_message, Parser.store_eq]
  · rfl
  · simp
  · exact hb
  · rfl

theorem feedDataByte_stray (hpos : p.position = 0#2) (hs : p.sysex = false) (b : Byte) :
    feedDataByte c p b = ⟨{ p with idx := 0#2 }, none, p.guardRaises ++ [.protocolViolation b]⟩ := by
  rw [feedDataByte, if_pos (p.stray_iff.mpr ⟨hpos, hs⟩), p.guarded_eq_position, hpos]

theorem feedDataByte_open (h : p.position ≠ 0#2 ∨ p.sysex = true) (b : Byte) :
    feedDataByte c p b = Parser.storeAndComplete c { p with idx := p.position } b p.guardRaises := by
  have hnot : ¬(p.position = 0#2 ∧ p.sysex = false) := by
    rintro ⟨hpos, hs⟩
    exact h.elim (fun hne => hne hpos) fun hopen => Bool.false_ne_true (hs.symm.trans hopen)
  rw [feedDataByte, if_neg (mt p.stray_iff.mp hnot), p.guarded_eq_position]

end Sys2Proof.Machine
end

section
/-! PROOF. A channel message byte after byte, and the events of any number of messages under one status byte
(42_parser R106, R107, R112, R115). -/

namespace Sys2Proof.Machine

variable {c : Config} {p : Parser} {h ch : Nibble} {sx : Bool} {x y d : Byte}

/-! ## The open message, byte after byte (R106, R107, R112) -/

/-- The parser with a channel message of status byte `h ++ ch` open, `sx` the System Exclusive flag, `x` and `y` in the
data positions and `k` bytes buffered. -/
def Parser.channel (c : Config) (h ch : Nibble) (sx : Bool) (x y : Byte) (k : BitVec 2) : Parser :=
  { ev0 := h ++ ch, ev1 := x, ev2 := y, idx := k, sysex := sx, explen := c.lenRom h, openCin := h }

theorem Config.lenRom_channel (c : Config) {h : Nibble} (hlo : 8#4 ≤ h) (hhi : h < 15#4) : c.lenRom h ≠ 1#2 := by
  rw [Config.lenRom_eq]
  revert h
  decide

theorem feedStatus_channel (c : Config) (p : Parser) (hlo : 8#4 ≤ h) (hhi : h < 15#4) (ch : Nibble) :
    feedStatus c p (h ++ ch) =
      ⟨Parser.channel c h ch (p.sysex && !c.statusClearsSysex) p.ev1 p.ev2 1#2, none, p.guardRaises⟩ := by
  have hnibble : statusNibble (h ++ ch) = h := statusNibble_statusByte h ch
  have hne : h ++ ch ≠ 0xF7#8 := by
    intro heq
    rw [heq] at hnibble
    subst hnibble
    exact absurd hhi (by decide)
  rw [feedStatus_eq, hnibble, Parser.storeAndComplete_waits, Parser.store_eq]
  · rfl
  · simp
  · exact hne
  · exact (Config.lenRom_channel c hlo hhi).symm

theorem feed_status_channel (c : Config) (p : Parser) (hlo : 8#4 ≤ h) (hhi : h < 15#4) (ch : Nibble) :
    feed c p (h ++ ch) =
      ⟨Parser.channel c h ch (p.sysex && !c.statusClearsSysex) p.ev1 p.ev2 1#2, none, p.guardRaises⟩ :=
  (feed_status c p (byteClass_status ch hlo hhi)).trans (feedStatus_channel c p hlo hhi ch)

/-- A data byte after the status byte of a channel message is stored. -/
theorem feed_channel_data {k : BitVec 2} (hd : d < 0x80#8) (hk0 : k ≠ 0#2) (hk3 : k ≠ 3#2) :
    feed c (Parser.channel c h ch sx x y k) d = (Parser.channel c h ch sx x y k).storeAndComplete c d [] := by
  have hpos : (Parser.channel c h ch sx x y k).position = k := Parser.position_of_ne hk3
  have hraises : (Parser.channel c h ch sx x y k).guardRaises = [] := if_neg hk3
  rw [feed_data _ _ ((byteClass_eq_data_iff d).mpr hd), feedDataByte_open (.inl (by rwa [hpos])), hpos, hraises]
  rfl

/-- The first data byte of a three-byte message waits. -/
theorem feed_channel_first (hlen : c.lenRom h = 3#2) (hd : d < 0x80#8) :
    feed c (Parser.channel c h ch sx x y 1#2) d = ⟨Parser.channel c h ch sx d y 2#2, none, []⟩ := by
  rw [feed_channel_data hd (by decide) (by decide), Parser.storeAndComplete_waits, Parser.store_eq]
  · rfl
  · simp [Parser.channel]
  · exact ne_eox_of_lt hd
  · exact fun h => (by decide : 2#2 ≠ 3#2) (h.trans hlen)

/-- Outside System Exclusive the last data byte closes the message: 7c. -/
theorem feed_channel_last {k : BitVec 2} (hd : d < 0x80#8) (hk0 : k ≠ 0#2) (hk3 : k ≠ 3#2)
    (hlen : k + 1#2 = c.lenRom h) :
    feed c (Parser.channel c h ch false x y k) d =
      ⟨{ (Parser.channel c h ch false x y k).store d with idx := c.carryIndex.setWidth 2 },
        some (((Parser.channel c h ch false x y k).store d).frame h (k + 1#2)), []⟩ := by
  rw [feed_channel_data hd hk0 hk3, Parser.storeAndComplete_message]
  · rfl
  · simp [Parser.channel]
  · exact ne_eox_of_lt hd
  · exact hlen

theorem feed_channel_second (hlen : c.lenRom h = 3#2) (hd : d < 0x80#8) :
    feed c (Parser.channel c h ch false x y 2#2) d =
      ⟨Parser.channel c h ch false x d (c.carryIndex.setWidth 2), some ⟨0#4, h, h ++ ch, x, d⟩, []⟩ := by
  rw [feed_channel_last hd (by decide) (by decide) hlen.symm, Parser.store_eq]
  rfl

theorem feed_channel_only (hlen : c.lenRom h = 2#2) (hd : d < 0x80#8) :
    feed c (Parser.channel c h ch false x y 1#2) d =
      ⟨Parser.channel c h ch false d y (c.carryIndex.setWidth 2), some ⟨0#4, h, h ++ ch, d, 0#8⟩, []⟩ := by
  rw [feed_channel_last hd (by decide) (by decide) hlen.symm, Parser.store_eq]
  rfl

/-- Inside System Exclusive the second data byte closes a packet: 7a comes before 7c. -/
theorem feed_channel_packet (hd : d < 0x80#8) :
    feed c (Parser.channel c h ch true x y 2#2) d =
      ⟨Parser.channel c h ch true x d 0#2, some ⟨0#4, 4#4, h ++ ch, x, d⟩, []⟩ := by
  rw [feed_channel_data hd (by decide) (by decide), Parser.storeAndComplete_packet rfl rfl]
  rfl

/-! ## Running status (R112, R202) -/

/-- Without a message open data bytes give no event (R108). -/
theorem feedAll_stray {ds : List Byte} (hds : ∀ d ∈ ds, d < 0x80#8) (hidx : p.idx = 0#2) (hs : p.sysex = false) :
    (feedAll c p ds).2 = [] := by
  induction ds generalizing p with
  | nil => rfl
  | cons d ds ih =>
    obtain ⟨hd, hds⟩ := List.forall_mem_cons.mp hds
    rw [feedAll_cons, feed_data c p ((byteClass_eq_data_iff d).mpr hd),
      feedDataByte_stray (Parser.position_of_idle hidx) hs]
    exact ih hds rfl hs

/-- Under the status byte `h ++ ch` the data bytes `body` of a message give the one event `e` and leave `idx` at
`CARRY_INDEX`. -/
def GivesEvent (c : Config) (h ch : Nibble) (body : List Byte) (e : Event) : Prop :=
  (∀ b ∈ body, b < 0x80#8) ∧ ∀ x y, ∃ x' y', feedAll c (Parser.channel c h ch false x y 1#2) body =
    (Parser.channel c h ch false x' y' (c.carryIndex.setWidth 2), [e])

theorem givesEvent_three (hlen : c.lenRom h = 3#2) (hx : x < 0x80#8) (hy : y < 0x80#8) :
    GivesEvent c h ch [x, y] ⟨0#4, h, h ++ ch, x, y⟩ := by
  refine ⟨by simp [hx, hy], fun x₀ y₀ => ⟨x, y, ?_⟩⟩
  simp [feedAll_cons, feed_channel_first hlen hx, feed_channel_second hlen hy]

theorem givesEvent_two (hlen : c.lenRom h = 2#2) (hd : d < 0x80#8) :
    GivesEvent c h ch [d] ⟨0#4, h, h ++ ch, d, 0#8⟩ := by
  refine ⟨by simp [hd], fun x₀ y₀ => ⟨d, y₀, ?_⟩⟩
  simp [feedAll_cons, feed_channel_only hlen hd]

/-- A series of messages under one status byte: with `CARRY_INDEX` 1 each gives its event, with 0 the first alone does
and what follows is stray. -/
theorem feedAll_running {α : Type} {body : α → List Byte} {ev : α → Event} {as : List α}
    (has : ∀ a ∈ as, GivesEvent c h ch (body a) (ev a)) (x y : Byte) :
    (feedAll c (Parser.channel c h ch false x y 1#2) (as.flatMap body)).2 =
      (if c.carryIndex = 1#1 then as else as.take 1).map ev := by
  induction as generalizing x y with
  | nil => simp
  | cons a as ih =>
    obtain ⟨⟨-, hmsg⟩, has⟩ := List.forall_mem_cons.mp has
    obtain ⟨x', y', hmsg⟩ := hmsg x y
    rw [List.flatMap_cons, feedAll_append, hmsg]
    by_cases hcarry : c.carryIndex = 1#1
    · have hidx : c.carryIndex.setWidth 2 = 1#2 := by rw [hcarry]; rfl
      rw [hidx, ih has, if_pos hcarry, if_pos hcarry]
      rfl
    · have hidx : c.carryIndex.setWidth 2 = 0#2 := by
        have hone : ∀ k : BitVec 1, k ≠ 1#1 → k.setWidth 2 = 0#2 := by decide
        exact hone c.carryIndex hcarry
      have hdata : ∀ b ∈ as.flatMap body, b < 0x80#8 := by
        intro b hb
        obtain ⟨a, ha, hb⟩ := List.mem_flatMap.mp hb
        exact (has a ha).1 b hb
      rw [hidx, feedAll_stray hdata rfl rfl, if_neg hcarry]
      rfl

end Sys2Proof.Machine
end

section
/-! PROOF. A System Exclusive message: no byte is lost between the events and the buffer, for any number of data bytes
(42_parser R104, R107, R110, R111). -/

namespace Sys2Proof.Machine

variable {c : Config} {p : Parser} {b : Byte} {cs : List Condition}

/-! ## The buffer and the events (R19, R109) -/

/-- The bytes buffered, oldest first (R19, R20). -/
def Parser.buffered (p : Parser) : List Byte := [p.ev0, p.ev1, p.ev2].take p.idx.toNat

/-- A store below position 3 appends the byte to the buffer. -/
theorem Parser.buffered_store (hidx : p.idx ≠ 3#2) (b : Byte) : (p.store b).buffered = p.buffered ++ [b] := by
  have hcases : ∀ k : BitVec 2, k ≠ 3#2 → k = 0#2 ∨ k = 1#2 ∨ k = 2#2 := by decide
  rw [p.store_eq]
  rcases hcases p.idx hidx with h | h | h <;> simp [Parser.buffered, h]

/-- A frame under a Frame-Type that declares `n` bytes carries the first `n` of the buffer (R109). -/
theorem eventBytes_frame {cin : Nibble} {n : BitVec 2} (hlen : c.lenRom cin = n) :
    eventBytes c (p.frame cin n) = [p.ev0, p.ev1, p.ev2].take n.toNat := by
  have hcases : ∀ k : BitVec 2, k = 0#2 ∨ k = 1#2 ∨ k = 2#2 ∨ k = 3#2 := by decide
  rcases hcases n with rfl | rfl | rfl | rfl <;> simp [eventBytes, Parser.frame, hlen]

/-- A System Exclusive message is open, with room for a byte, and 7c cannot cut it: the last expected length is 3, which
7a reaches first, or none yet (R204). -/
structure Parser.InSysex (p : Parser) : Prop where
  flag : p.sysex = true
  room : p.idx ≠ 3#2
  length : p.explen = 0#2 ∨ p.explen = 3#2

/-- The bytes `bs` have been packed into the events `es`, each of Frame-Type 4, and what the parser `p` still
buffers. -/
structure Packed (c : Config) (bs : List Byte) (es : List Event) (p : Parser) : Prop where
  inSysex : p.InSysex
  packets : ∀ e ∈ es, e.cin = 4#4
  bytes : bs = es.flatMap (eventBytes c) ++ p.buffered

/-! ## Packing -/

/-- A byte stored inside System Exclusive completes a packet (7a) or waits; 7c does not fire. -/
theorem Parser.InSysex.storeAndComplete (hp : p.InSysex) (c : Config) (hb : b ≠ 0xF7#8) :
    Packed c (p.buffered ++ [b]) (p.storeAndComplete c b cs).event.toList (p.storeAndComplete c b cs).parser := by
  obtain ⟨hexplen, -, hsysex⟩ := p.store_keeps b
  have hflag : (p.store b).sysex = true := hsysex.trans hp.flag
  have hlength : (p.store b).explen = 0#2 ∨ (p.store b).explen = 3#2 := hexplen ▸ hp.length
  rw [← Parser.buffered_store hp.room b, p.storeAndComplete_eq]
  split_ifs with h7a hlen
  · obtain ⟨-, hthree⟩ := h7a
    refine ⟨⟨hflag, (by decide : 0#2 ≠ 3#2), hlength⟩, by simp [Parser.frame], ?_⟩
    have hlen : c.lenRom 4#4 = 3#2 := Config.lenRom_eq c 4#4
    simp [eventBytes_frame hlen, Parser.buffered, hthree]
  · rcases hlength with h | h
    · exact absurd (hlen.trans h) (Parser.store_idx_ne_zero hp.room b)
    · exact absurd ⟨hflag, hlen.trans h⟩ h7a
  · exact ⟨⟨hflag, fun h => h7a ⟨hflag, h⟩, hlength⟩, by simp, by simp⟩

theorem feed_sysexStart_packed (c : Config) (hidx : p.idx = 0#2) (hlength : p.explen = 0#2 ∨ p.explen = 3#2) :
    Packed c [0xF0#8] (feed c p 0xF0#8).event.toList (feed c p 0xF0#8).parser := by
  rw [feed_sox, feedSysexStart_eq, Parser.position_of_idle hidx]
  exact Parser.InSysex.storeAndComplete (p := { p with idx := 0#2, sysex := true })
    ⟨rfl, (by decide : 0#2 ≠ 3#2), hlength⟩ c (by decide)

theorem feed_data_packed (c : Config) (hp : p.InSysex) (hb : b < 0x80#8) :
    Packed c (p.buffered ++ [b]) (feed c p b).event.toList (feed c p b).parser := by
  rw [feed_data c p ((byteClass_eq_data_iff b).mpr hb), feedDataByte_open (.inr hp.flag),
    Parser.position_of_ne hp.room]
  exact hp.storeAndComplete c (ne_eox_of_lt hb)

/-- Packing goes on from the buffer that it has left. -/
theorem Packed.append {bs ds : List Byte} {es es' : List Event} {q : Parser} (h : Packed c bs es p)
    (h' : Packed c (p.buffered ++ ds) es' q) : Packed c (bs ++ ds) (es ++ es') q where
  inSysex := h'.inSysex
  packets := List.forall_mem_append.mpr ⟨h.packets, h'.packets⟩
  bytes := calc bs ++ ds
      = es.flatMap (eventBytes c) ++ (p.buffered ++ ds) := by rw [h.bytes, List.append_assoc]
    _ = (es ++ es').flatMap (eventBytes c) ++ q.buffered := by
        rw [h'.bytes, List.flatMap_append, List.append_assoc]

/-- Any number of data bytes inside System Exclusive. -/
theorem feedAll_packed {ds : List Byte} (hp : p.InSysex) (hds : ∀ d ∈ ds, d < 0x80#8) :
    Packed c (p.buffered ++ ds) (feedAll c p ds).2 (feedAll c p ds).1 := by
  induction ds generalizing p with
  | nil => exact ⟨hp, by simp, by simp⟩
  | cons d ds ih =>
    obtain ⟨hd, hds⟩ := List.forall_mem_cons.mp hds
    have hfirst := feed_data_packed c hp hd
    rw [List.append_cons]
    exact hfirst.append (ih hfirst.inSysex hds)

/-- 0xF7 closes the message: the last event carries what is buffered and the byte, and the parser is Idle (R105). -/
theorem feed_sysexEnd_closes (c : Config) (hidx : p.idx ≠ 3#2) :
    ∃ e, (feed c p 0xF7#8).event = some e ∧ (e.cin = 5#4 ∨ e.cin = 6#4 ∨ e.cin = 7#4) ∧
      eventBytes c e = p.buffered ++ [0xF7#8] ∧ (feed c p 0xF7#8).parser.idx = 0#2 ∧
      (feed c p 0xF7#8).parser.sysex = false := by
  have hcin : ∀ k : BitVec 2, k ≠ 3#2 →
      eoxFrameType (k + 1#2) = 5#4 ∨ eoxFrameType (k + 1#2) = 6#4 ∨ eoxFrameType (k + 1#2) = 7#4 := by decide
  have hpositive : p.idx + 1#2 ≠ 0#2 := p.store_idx 0xF7#8 ▸ Parser.store_idx_ne_zero hidx 0xF7#8
  obtain ⟨-, -, hcleared⟩ := Parser.store_keeps { p with sysex := false } 0xF7#8
  rw [feed_eox, feedSysexEnd_eq, Parser.position_of_ne hidx, Parser.storeAndComplete_end (by simp)]
  refine ⟨_, rfl, hcin p.idx hidx, ?_, rfl, hcleared⟩
  rw [eventBytes_frame (Config.lenRom_eoxFrameType c hpositive)]
  have hstored := Parser.buffered_store (p := { p with sysex := false }) hidx 0xF7#8
  rw [Parser.buffered, Parser.store_idx] at hstored
  exact hstored

end Sys2Proof.Machine
end

section
/-! PROOF. The statements about 42_parser, each from the lemmas above. -/

namespace Sys2Proof.Machine

/-- Settles O27: each class takes one path through the pseudocode's tests, to the same store. -/
theorem feedIsTheAlgorithm : Obligations.FeedIsTheAlgorithm := by
  unfold Obligations.FeedIsTheAlgorithm
  exact feed_eq_feedAlgorithm

/-- Settles O28: a byte decodes to the row it encodes, and the row runs `feed` of the byte. -/
theorem feedRowsRunFeed : Obligations.FeedRowsRunFeed := by
  unfold Obligations.FeedRowsRunFeed
  intro s b i hb hdecode
  obtain ⟨hencode, -⟩ := encodeOfDecode .feedByte (b.setWidth 32) i hdecode
  have hrun := (exec_of_encode_feedByte (s := s) hencode).trans (State.feedWith_run hb _)
  exact ⟨_, hrun, rfl, rfl, rfl, s.fed_keeps _⟩

/-- Settles O29: the event is built beside the parser. -/
theorem realTimeLeavesParser : Obligations.RealTimeLeavesParser := by
  unfold Obligations.RealTimeLeavesParser
  intro s rt hb
  exact ⟨_, exec_feedRt_run rt hb, rfl, rfl, List.append_nil _, s.fed_keeps _⟩

/-- Settles O30: after the guard the byte is stored with the flag set, so 7a fires from position 2, else 7c. -/
theorem sysexStartStores : Obligations.SysexStartStores := by
  unfold Obligations.SysexStartStores
  intro s hb k
  have hrun := exec_feedSox_run hb
  rw [feedSysexStart_eq] at hrun
  obtain ⟨h0, h1, h2⟩ :=
    Parser.storeAndComplete_buffer s.config { s.parser with idx := k, sysex := true } 0xF0#8 s.parser.guardRaises
  obtain ⟨hexplen, hopen, hsysex⟩ :=
    Parser.storeAndComplete_keeps s.config { s.parser with idx := k, sysex := true } 0xF0#8 s.parser.guardRaises
  refine ⟨_, hrun, hsysex, congrArg _ s.parser.map_guardRaises, h0, h1, h2, hexplen, hopen, ?_, ?_, ?_⟩
  · intro hk
    rw [Parser.storeAndComplete_packet rfl hk]
    exact ⟨rfl, rfl⟩
  · intro hk hlen
    rw [Parser.storeAndComplete_message (fun h => hk h.2) (by decide) hlen]
    exact ⟨rfl, rfl⟩
  · intro hk hlen
    rw [Parser.storeAndComplete_waits (fun h => hk h.2) (by decide) hlen]
    exact ⟨rfl, Parser.store_idx _ _⟩

/-- Settles O31: after the guard the byte is stored with the flag cleared, so 7a cannot fire before 7b. -/
theorem sysexEndAlwaysEmits : Obligations.SysexEndAlwaysEmits := by
  unfold Obligations.SysexEndAlwaysEmits
  intro s hb k
  have hrun := exec_feedEox_run hb
  rw [feedSysexEnd_eq, Parser.storeAndComplete_end (by simp), Parser.store_eq] at hrun
  refine ⟨_, _, hrun, rfl, rfl, rfl, rfl, rfl, rfl, congrArg _ s.parser.map_guardRaises, rfl, rfl, ?_, ?_, ?_⟩
  all_goals
    intro hk
    change s.parser.position = _ at hk
    rw [hk]
    rfl

/-- Settles O32: the seven rows are `feedStatus` at a byte of their nibble, with the expected length of the ROM. -/
theorem channelStatusOpens : Obligations.ChannelStatusOpens := by
  unfold Obligations.ChannelStatusOpens
  intro s ch hb x hx
  have hrow : exec x.1 s = s.feedWith (fun c p => feedStatus c p (x.2.1 ++ ch)) ∧ 8#4 ≤ x.2.1 ∧ x.2.1 < 15#4 ∧
      s.config.lenRom x.2.1 = x.2.2 := by
    fin_cases hx <;> exact ⟨rfl, by simp, by simp, Config.lenRom_eq s.config _⟩
  obtain ⟨hexec, hlo, hhi, hlen⟩ := hrow
  have hrun := hexec.trans (State.feedWith_run hb _)
  rw [feedStatus_channel s.config s.parser hlo hhi ch] at hrun
  exact ⟨_, hrun, rfl, congrArg _ s.parser.map_guardRaises, rfl, rfl, rfl, rfl, hlen, rfl, rfl⟩

/-- Settles O33: the six rows are `feedStatus` at a byte of nibble 15, whose length is 1. -/
theorem systemCommonEmitsAtOnce : Obligations.SystemCommonEmitsAtOnce := by
  unfold Obligations.SystemCommonEmitsAtOnce
  intro s hb x hx
  have hrow : exec x.1 s = s.feedWith (fun c p => feedStatus c p x.2) ∧ x.2 ≠ 0xF7#8 ∧
      statusNibble x.2 = 15#4 := by
    fin_cases hx <;> exact ⟨rfl, by decide, by decide⟩
  obtain ⟨hexec, hne, hnibble⟩ := hrow
  have hrun := hexec.trans (State.feedWith_run hb _)
  rw [feedStatus_systemCommon hne hnibble] at hrun
  exact ⟨_, hrun, rfl, congrArg _ s.parser.map_guardRaises, rfl, rfl, rfl, rfl, rfl, rfl, rfl⟩

/-- Settles O34: step 5 discards the byte after the guard. -/
theorem strayDataDiscarded : Obligations.StrayDataDiscarded := by
  unfold Obligations.StrayDataDiscarded
  intro s d hb hpos hsysex
  have hrun := exec_feedData_run d hb
  rw [feedDataByte_stray hpos hsysex] at hrun
  refine ⟨_, hrun, rfl, rfl, ?_⟩
  rw [← s.parser.map_guardRaises, List.append_assoc]
  exact congrArg _ List.map_append

/-- Settles O35: the byte is stored after the guard, and the completion checks are tried in their order. -/
theorem openDataStored : Obligations.OpenDataStored := by
  unfold Obligations.OpenDataStored
  intro s d hb k b hopened
  have hrun := exec_feedData_run d hb
  rw [feedDataByte_open hopened] at hrun
  have hne : b ≠ 0xF7#8 := ne_eox_of_lt (dataByte_lt d)
  obtain ⟨h0, h1, h2⟩ := Parser.storeAndComplete_buffer s.config { s.parser with idx := k } b s.parser.guardRaises
  obtain ⟨hexplen, hopen, hsysex⟩ :=
    Parser.storeAndComplete_keeps s.config { s.parser with idx := k } b s.parser.guardRaises
  refine ⟨_, hrun, congrArg _ s.parser.map_guardRaises, h0, h1, h2, hsysex, hexplen, hopen, ?_⟩
  split_ifs with h7a hlen
  · rw [Parser.storeAndComplete_packet (p := { s.parser with idx := k }) h7a.1 h7a.2]
    exact ⟨rfl, rfl⟩
  · rw [Parser.storeAndComplete_message h7a hne hlen]
    exact ⟨rfl, rfl⟩
  · rw [Parser.storeAndComplete_waits h7a hne hlen]
    exact ⟨rfl, Parser.store_idx _ _⟩

/-- Settles O36: the guard of three buffered bytes is a reset of `idx`. -/
theorem overrunRestartsFromIdle : Obligations.OverrunRestartsFromIdle := by
  unfold Obligations.OverrunRestartsFromIdle
  intro c p b hidx hb
  have hguard : p.guarded = { p with idx := 0#2 } := if_pos hidx
  have hraises : p.guardRaises = [.parserOverrun] := if_pos hidx
  rw [feed_guarded c p hb, hguard, hraises]
  exact ⟨rfl, rfl, rfl⟩

/-- Settles O38: of the three branches of `feed` the first raises nothing, the others what the guard raises, and the
second the discarded byte after it. -/
theorem feedRaisesAtMostOne : Obligations.FeedRaisesAtMostOne := by
  unfold Obligations.FeedRaisesAtMostOne
  intro c p b
  by_cases hrt : b ≥ 0xF8#8
  · rw [feed_eq, if_pos hrt, if_neg fun h => BitVec.not_lt.mpr hrt h.2, if_neg (by bv_omega)]
    rfl
  · have hguard : (if p.idx = 3 ∧ b < 0xF8#8 then [.parserOverrun] else []) = p.guardRaises := by
      simp [Parser.guardRaises, BitVec.not_le.mp hrt]
    rw [feed_eq, if_neg hrt, hguard]
    by_cases hstray : b < 0x80#8 ∧ p.position = 0#2 ∧ p.sysex = false
    · obtain ⟨hdata, hpos, hsysex⟩ := hstray
      rw [if_pos ⟨hdata, hpos, hsysex⟩, if_pos ⟨hpos, hsysex, hdata⟩]
    · rw [if_neg hstray, if_neg fun ⟨hpos, hsysex, hdata⟩ => hstray ⟨hdata, hpos, hsysex⟩]
      exact (List.append_nil _).symm

/-- Settles O41: the status byte opens a message, and each message's data bytes are one more `GivesEvent`. -/
theorem runningStatusOnInput : Obligations.RunningStatusOnInput := by
  unfold Obligations.RunningStatusOnInput
  intro c p h ch hsysex hlo hhi
  have hopen := feed_status_channel c p hlo hhi ch
  rw [hsysex, Bool.false_and] at hopen
  refine ⟨fun ds hlen hds => ?_, fun ds hlen hds => ?_⟩
  · rw [feedAll_cons, hopen]
    exact feedAll_running (fun d hd => givesEvent_three hlen (hds d hd).1 (hds d hd).2) p.ev1 p.ev2
  · have hrunning := feedAll_running (ch := ch) (fun d hd => givesEvent_two hlen (hds d hd)) p.ev1 p.ev2
    rw [List.flatMap_singleton'] at hrunning
    rw [feedAll_cons, hopen]
    exact hrunning

/-- Settles O42: 0xF0 and the data bytes are packed, and 0xF7 closes what is still buffered. -/
theorem sysexFramedWhole : Obligations.SysexFramedWhole := by
  unfold Obligations.SysexFramedWhole
  intro c p ds hidx hlength hds
  have hstart := feed_sysexStart_packed c hidx hlength
  have hpacked : Packed c (0xF0#8 :: ds) (feedAll c p (0xF0#8 :: ds)).2 (feedAll c p (0xF0#8 :: ds)).1 :=
    hstart.append (feedAll_packed hstart.inSysex hds)
  have hwhole := feedAll_append c p (0xF0#8 :: ds) [0xF7#8]
  generalize feedAll c p (0xF0#8 :: ds) = packed at hpacked hwhole
  obtain ⟨q, es⟩ := packed
  obtain ⟨hinside, hpackets, hbytes⟩ := hpacked
  obtain ⟨e, hevent, hcin, hlast, hidle, hclosed⟩ := feed_sysexEnd_closes c hinside.room
  rw [feedAll_cons, hevent] at hwhole
  intro r
  have hr : r = ((feed c q 0xF7#8).parser, es ++ [e]) := hwhole
  rw [hr]
  refine ⟨?_, ?_, ⟨e, List.getLast?_concat, hcin⟩, hidle, hclosed⟩
  · calc (es ++ [e]).flatMap (eventBytes c)
        = es.flatMap (eventBytes c) ++ (q.buffered ++ [0xF7#8]) := by
          rw [List.flatMap_append, List.flatMap_singleton, hlast]
      _ = 0xF0#8 :: ds ++ [0xF7#8] := by rw [← List.append_assoc, ← hbytes]
  · rw [List.dropLast_concat]
    exact hpackets

/-- Settles O43: the status byte opens a message with the flag that `STATUS_CLEARS_SYSEX` leaves, and the flag chooses
between 7a and 7c at the third byte. -/
theorem statusInsideSysex : Obligations.StatusInsideSysex := by
  unfold Obligations.StatusInsideSysex
  intro c p h ch x y hsysex hlo hhi hlen hx hy
  simp only [feedAll_cons, feedAll_nil, feed_status_channel c p hlo hhi ch, hsysex, Bool.true_and,
    feed_channel_first hlen hx]
  cases c.statusClearsSysex with
  | false =>
    rw [Bool.not_false, feed_channel_packet hy]
    exact ⟨rfl, rfl⟩
  | true =>
    rw [Bool.not_true, feed_channel_second hlen hy]
    exact ⟨rfl, rfl⟩

end Sys2Proof.Machine
end

section
/-! PROOF. The serializer of 43_serializer: its bytes are `d1`, unless running status omits it, and the event's other
bytes; how many they are; and what a row of format EVT32 leaves alone. -/

namespace Sys2Proof.Machine

variable {e : Event}

/-! ## The bytes of an event (R66, R127) -/

/-- The bytes of an event, with the ROM of every configuration read from the table of R66. -/
theorem eventBytes_eq (c : Config) (e : Event) :
    eventBytes c e = [e.d1, e.d2, e.d3].take (lenTable[e.cin.toNat]'e.cin.isLt).toNat := by
  rw [eventBytes, Config.lenRom_eq]

theorem length_tail_eventBytes (c : Config) (e : Event) :
    (eventBytes c e).tail.length = (lenTable[e.cin.toNat]'e.cin.isLt).toNat - 1 := by
  rw [eventBytes_eq, List.length_tail, List.length_take]
  exact congrArg (· - 1) (min_eq_left (Nat.le_of_lt_succ (lenTable[e.cin.toNat]'e.cin.isLt).isLt))

theorem tail_eventBytes (c : Config) (e : Event) :
    (eventBytes c e).tail =
      (if 2#2 ≤ c.lenRom e.cin then [e.d2] else []) ++ (if 3#2 ≤ c.lenRom e.cin then [e.d3] else []) := by
  have hcases : ∀ n : BitVec 2, n = 0#2 ∨ n = 1#2 ∨ n = 2#2 ∨ n = 3#2 := by decide
  rcases hcases (c.lenRom e.cin) with hlen | hlen | hlen | hlen <;> simp [eventBytes, hlen]

/-! ## Running status on output (R128, R129) -/

/-- A type with running status has data bytes beside `d1` (R66, R128). -/
theorem Config.lenRom_of_running (c : Config) {cin : Nibble} (h : noRunningStatus cin = false) :
    c.lenRom cin = 2#2 ∨ c.lenRom cin = 3#2 := by
  rw [Config.lenRom_eq]
  revert cin
  decide

theorem noRunningStatus_channel {h : Nibble} (hlo : 8#4 ≤ h) (hhi : h < 15#4) : noRunningStatus h = false := by
  revert h
  decide

theorem Serializer.last_eq_some_iff (s : Serializer) (b : Byte) :
    s.last = some b ↔ s.lastValid = true ∧ s.lastStatus = b := by
  rw [Serializer.last, Option.ite_none_right_eq_some, Option.some.injEq]

/-- For a type with running status, "none" counts as differing from `d1` (R129). -/
theorem Serializer.emitsD1_of_running (s : Serializer) (h : noRunningStatus e.cin = false) :
    s.emitsD1 e = true ↔ s.last ≠ some e.d1 := by
  rw [Serializer.emitsD1, h, Bool.false_or, ne_eq, s.last_eq_some_iff]
  cases s.lastValid <;> simp [eq_comm (a := e.d1)]

theorem Serializer.bytes_eq (c : Config) (s : Serializer) (e : Event) :
    s.bytes c e = (if s.emitsD1 e then [e.d1] else []) ++ (eventBytes c e).tail := by
  rw [tail_eventBytes, ← List.append_assoc, Serializer.bytes]

theorem Serializer.bytes_of_noRunningStatus (c : Config) (s : Serializer) (h : noRunningStatus e.cin = true) :
    s.bytes c e = e.d1 :: (eventBytes c e).tail := by
  rw [s.bytes_eq, Serializer.emitsD1, h]
  rfl

theorem Serializer.bytes_of_running (c : Config) (s : Serializer) (h : noRunningStatus e.cin = false) :
    s.bytes c e = (if s.last = some e.d1 then [] else [e.d1]) ++ (eventBytes c e).tail := by
  simp only [s.bytes_eq, s.emitsD1_of_running h, ne_eq, ite_not]

/-! ## The last status (R130) -/

theorem Serializer.after_of_running (c : Config) (s : Serializer) (h : noRunningStatus e.cin = false) :
    s.after c e = ⟨true, e.d1⟩ := by
  have hpos : 1#2 ≤ c.lenRom e.cin := by
    rcases Config.lenRom_of_running c h with hlen | hlen <;> rw [hlen] <;> decide
  exact if_pos hpos

/-! ## The number of bytes (R136) -/

theorem Serializer.length_bytes_of_noRunningStatus (c : Config) (s : Serializer) {k : Nat}
    (h : noRunningStatus e.cin = true) (hlen : (lenTable[e.cin.toNat]'e.cin.isLt).toNat - 1 = k) :
    (s.bytes c e).length = k + 1 := by
  rw [s.bytes_of_noRunningStatus c h, List.length_cons, length_tail_eventBytes, hlen]

theorem Serializer.length_bytes_of_running (c : Config) (s : Serializer) {k : Nat}
    (h : noRunningStatus e.cin = false) (hlen : (lenTable[e.cin.toNat]'e.cin.isLt).toNat - 1 = k) :
    (s.bytes c e).length = if s.last = some e.d1 then k else k + 1 := by
  rw [s.bytes_of_running c h, List.length_append, length_tail_eventBytes, hlen]
  split
  · exact Nat.zero_add k
  · exact Nat.add_comm 1 k

theorem Serializer.length_bytes_bounds (c : Config) (s : Serializer) (e : Event) :
    1 ≤ (s.bytes c e).length ∧ (s.bytes c e).length ≤ 3 := by
  cases h : noRunningStatus e.cin with
  | true =>
    have hlt : (lenTable[e.cin.toNat]'e.cin.isLt).toNat < 4 := (lenTable[e.cin.toNat]'e.cin.isLt).isLt
    rw [s.length_bytes_of_noRunningStatus c h rfl]
    omega
  | false =>
    rw [s.length_bytes_of_running c h rfl, ← Config.lenRom_eq c]
    rcases Config.lenRom_of_running c h with hlen | hlen <;> rw [hlen] <;> split <;> decide

/-! ## The rows of format EVT32 (R126) -/

/-- The state after a row of format EVT32 with the event `e`. -/
abbrev State.serialized (s : State) (e : Event) : State :=
  { s with ser := s.ser.after s.config e, out := { ser := some (s.ser.bytes s.config e) } }

/-- A row of format EVT32 writes the serializer and the model's record of results only. -/
theorem State.serialized_keeps (s : State) (e : Event) :
    (s.serialized e).trace = s.trace ∧ KeepsFifo s (s.serialized e) ∧ KeepsParser s (s.serialized e) ∧
      KeepsController s (s.serialized e) ∧ KeepsInputs s (s.serialized e) :=
  ⟨rfl, ⟨rfl, rfl, rfl, fun _ => rfl⟩, rfl, ⟨rfl, rfl, rfl, rfl⟩, ⟨rfl, rfl, rfl⟩, rfl, rfl, rfl⟩

end Sys2Proof.Machine
end

section
/-! PROOF. Serialized channel messages at the parser: the status byte the serializer leaves out is the one the parser
still holds (43_serializer R129, R134; 42_parser R112). -/

namespace Sys2Proof.Machine

variable {c : Config} {p : Parser} {s : Serializer} {e : Event}

theorem statusNibble_append (b : Byte) : statusNibble b ++ b.setWidth 4 = b := by
  revert b
  decide

/-- The parser has kept up with the serializer: outside System Exclusive, and with the last status, once there is one,
open for the next message's data bytes. -/
structure Parser.KeepsUp (c : Config) (p : Parser) (s : Serializer) : Prop where
  outside : p.sysex = false
  opened : ∀ b, s.last = some b → ∃ x y, p = Parser.channel c (statusNibble b) (b.setWidth 4) false x y 1#2

theorem Parser.keepsUp_reset (c : Config) : Parser.reset.KeepsUp c Serializer.reset := ⟨rfl, nofun⟩

/-- A status byte, or its omission under the same last status, opens the message. -/
theorem Parser.KeepsUp.feedAll_status (h : p.KeepsUp c s) {b : Byte} (hlo : 8#4 ≤ statusNibble b)
    (hhi : statusNibble b < 15#4) :
    ∃ x y, feedAll c p (if s.last = some b then [] else [b]) =
      (Parser.channel c (statusNibble b) (b.setWidth 4) false x y 1#2, []) := by
  by_cases hlast : s.last = some b
  · obtain ⟨x, y, rfl⟩ := h.opened b hlast
    exact ⟨x, y, by rw [if_pos hlast, feedAll_nil]⟩
  · refine ⟨p.ev1, p.ev2, ?_⟩
    have hopen := feed_status_channel c p hlo hhi (b.setWidth 4)
    rw [statusNibble_append, h.outside, Bool.false_and] at hopen
    rw [if_neg hlast, feedAll_cons, hopen]
    rfl

/-- The bytes of a channel message after its status byte give the message back. -/
theorem ChannelMessage.givesEvent (he : ChannelMessage c e) :
    GivesEvent c (statusNibble e.d1) (e.d1.setWidth 4) (eventBytes c e).tail e := by
  obtain ⟨cable, cin, d1, d2, d3⟩ := e
  obtain ⟨hcable, hlo, hhi, hnibble, hd2, hd3, hpad⟩ := he
  dsimp only at *
  subst hcable hnibble
  rcases Config.lenRom_of_running c (noRunningStatus_channel hlo hhi) with hlen | hlen
  · obtain rfl := hpad hlen
    have hgives := givesEvent_two (ch := d1.setWidth 4) hlen hd2
    rw [statusNibble_append] at hgives
    simpa [eventBytes, hlen] using hgives
  · have hgives := givesEvent_three (ch := d1.setWidth 4) hlen hd2 hd3
    rw [statusNibble_append] at hgives
    simpa [eventBytes, hlen] using hgives

/-- The bytes of one channel message are parsed to it, and the parser has kept up again. -/
theorem Parser.KeepsUp.feedAll_bytes (h : p.KeepsUp c s) (hcarry : c.carryIndex = 1#1) (he : ChannelMessage c e) :
    ∃ q : Parser, feedAll c p (s.bytes c e) = (q, [e]) ∧ q.KeepsUp c (s.after c e) := by
  have ⟨_, hlo, hhi, hnibble, _⟩ := he
  have hrunning : noRunningStatus e.cin = false := noRunningStatus_channel hlo hhi
  rw [← hnibble] at hlo hhi
  obtain ⟨x, y, hstatus⟩ := h.feedAll_status hlo hhi
  obtain ⟨x', y', hbody⟩ := (ChannelMessage.givesEvent he).2 x y
  have hidx : c.carryIndex.setWidth 2 = 1#2 := by rw [hcarry]; rfl
  rw [hidx] at hbody
  refine ⟨Parser.channel c (statusNibble e.d1) (e.d1.setWidth 4) false x' y' 1#2, ?_, rfl, ?_⟩
  · rw [s.bytes_of_running c hrunning, feedAll_append, hstatus, hbody]
    rfl
  · rw [s.after_of_running c hrunning]
    rintro b ⟨⟩
    exact ⟨x', y', rfl⟩

theorem Parser.KeepsUp.feedAll_serializeAll {es : List Event} (h : p.KeepsUp c s) (hcarry : c.carryIndex = 1#1)
    (hes : ∀ e ∈ es, ChannelMessage c e) : (feedAll c p (serializeAll c s es).2).2 = es := by
  induction es generalizing p s with
  | nil => rfl
  | cons e es ih =>
    obtain ⟨he, hes⟩ := List.forall_mem_cons.mp hes
    obtain ⟨q, hbytes, hq⟩ := h.feedAll_bytes hcarry he
    rw [serializeAll_cons, feedAll_append, hbytes, ih hq hes]
    rfl

end Sys2Proof.Machine
end

section
/-! PROOF. The statements about 43_serializer, each from the lemmas above. -/

namespace Sys2Proof.Machine

/-- Settles O44: none of the seven types has running status, and a byte count of 0 leaves the last status. -/
theorem neverCompressedTypes : Obligations.NeverCompressedTypes := by
  unfold Obligations.NeverCompressedTypes
  intro s cable d1 d2 d3 hb x hx
  have hrow : ∃ e : Event, exec x.1 s = s.serializeWith e ∧ noRunningStatus e.cin = true ∧
      e.d1 :: (eventBytes s.config e).tail = x.2.1 ∧ s.ser.after s.config e = x.2.2 := by
    simp only [eventBytes_eq, Serializer.after, Config.lenRom_eq]
    fin_cases hx <;> exact ⟨_, rfl, rfl, rfl, rfl⟩
  obtain ⟨e, hexec, hwhole, hbytes, hafter⟩ := hrow
  have hout : s.ser.bytes s.config e = x.2.1 := (s.ser.bytes_of_noRunningStatus s.config hwhole).trans hbytes
  exact ⟨_, hexec.trans (State.serializeWith_run hb e), congrArg some hout, hafter, s.serialized_keeps e⟩

/-- Settles O45: the nine types have running status and a positive byte count. -/
theorem compressibleTypes : Obligations.CompressibleTypes := by
  unfold Obligations.CompressibleTypes
  intro s cable d1 d2 d3 hb x hx
  have hrow : ∃ e : Event, exec x.1 s = s.serializeWith e ∧ noRunningStatus e.cin = false ∧ e.d1 = d1 ∧
      (eventBytes s.config e).tail = x.2 := by
    simp only [eventBytes_eq]
    fin_cases hx <;> exact ⟨_, rfl, rfl, rfl, rfl⟩
  obtain ⟨e, hexec, hrunning, rfl, hdata⟩ := hrow
  have hout : s.ser.bytes s.config e =
      if s.ser.lastValid = true ∧ s.ser.lastStatus = e.d1 then x.2 else e.d1 :: x.2 := by
    simp only [s.ser.bytes_of_running s.config hrunning, s.ser.last_eq_some_iff, hdata]
    split <;> rfl
  exact ⟨_, hexec.trans (State.serializeWith_run hb e), congrArg some hout,
    s.ser.after_of_running s.config hrunning, s.serialized_keeps e⟩

/-- Settles O46: the number is the byte count of the type, but 1 where it is 0, and one less without `d1`. -/
theorem outputLengths : Obligations.OutputLengths := by
  unfold Obligations.OutputLengths
  rintro c s ⟨cable, cin, d1, d2, d3⟩ n
  refine ⟨fun h => ?_, fun h => ?_, fun h => ?_, fun h => ?_, fun h => ?_, s.length_bytes_bounds c _⟩
  · fin_cases h <;> exact s.length_bytes_of_noRunningStatus c rfl rfl
  · cases h
    exact s.length_bytes_of_noRunningStatus c rfl rfl
  · fin_cases h <;> exact s.length_bytes_of_noRunningStatus c rfl rfl
  · fin_cases h <;> exact s.length_bytes_of_running c rfl rfl
  · fin_cases h <;> exact s.length_bytes_of_running c rfl rfl

/-- Settles O47: from reset the parser has kept up with the serializer, and each message's bytes keep it so. -/
theorem serializeThenParse : Obligations.SerializeThenParse := by
  unfold Obligations.SerializeThenParse
  intro c es hcarry hes
  exact (Parser.keepsUp_reset c).feedAll_serializeAll hcarry hes

end Sys2Proof.Machine
end

section
/-! PROOF. Inside a phase action (44_bridge): what the host answers there, and what the handler and the loop have done
together up to any of its points. -/

namespace Sys2Proof.Machine

variable {c : Config} {s t : State} {b : Byte} {e : Event} {n : Nat} {items xs : List TraceItem}

/-! ## The loop's own items of a trace -/

/-- A reading that skips the producer's items reads the loop's items only. -/
theorem filterMap_loopTrace {α : Type} {f : TraceItem → Option α} (hf : ∀ x, x.isArrival = true → f x = none)
    (tr : List TraceItem) : (loopTrace tr).filterMap f = tr.filterMap f := by
  rw [loopTrace, List.filterMap_filter]
  refine List.filterMap_congr fun x _ => ?_
  cases hx : x.isArrival with
  | false => rfl
  | true => exact (hf x hx).symm

theorem acceptedEvents_loopTrace (tr : List TraceItem) : acceptedEvents (loopTrace tr) = acceptedEvents tr :=
  filterMap_loopTrace (fun x hx => by cases x with | insert | raised => rfl | _ => cases hx) tr

theorem receivedEvents_loopTrace (tr : List TraceItem) : receivedEvents (loopTrace tr) = receivedEvents tr :=
  filterMap_loopTrace (fun x hx => by cases x with | insert | raised => rfl | _ => cases hx) tr

theorem sentBytes_loopTrace (tr : List TraceItem) : sentBytes (loopTrace tr) = sentBytes tr :=
  filterMap_loopTrace (fun x hx => by cases x with | insert | raised => rfl | _ => cases hx) tr

/-- The loop's own items neither store nor offer a byte. -/
theorem noBytes_of_loopTrace_eq (hxs : loopTrace xs = xs) : acceptedBytes xs = [] ∧ offeredBytes xs = [] := by
  have hloop : ∀ x ∈ xs, x.isArrival = false := by simpa [loopTrace] using hxs
  refine ⟨List.filterMap_eq_nil_iff.mpr fun x hx => ?_, List.filterMap_eq_nil_iff.mpr fun x hx => ?_⟩ <;>
    cases x with
    | insert => cases hloop _ hx
    | _ => rfl

/-- `feed` raises no other condition than the overrun and the discarded byte (R103, R108). -/
theorem feed_raised_mem {p : Parser} {x : Condition} (hx : x ∈ (feed c p b).raised) :
    x = .parserOverrun ∨ x = .protocolViolation b := by
  rw [feedRaisesAtMostOne] at hx
  rcases List.mem_append.mp hx with hx | hx
  · exact .inl (by simpa using (List.mem_ite_nil_right.mp hx).2)
  · exact .inr (by simpa using (List.mem_ite_nil_right.mp hx).2)

/-- What `feed` raises inside STEP.DRAIN_A is the loop's own doing. -/
theorem loopTrace_feed_raised (c : Config) (p : Parser) (b : Byte) :
    loopTrace ((feed c p b).raised.map .raised) = (feed c p b).raised.map .raised := by
  refine List.filter_eq_self.mpr fun x hx => ?_
  obtain ⟨y, hy, rfl⟩ := List.mem_map.mp hx
  rcases feed_raised_mem hy with rfl | rfl <;> rfl

/-! ## The host's answers (R142) -/

/-- The answer is the script's next one, where there is one (R78, log 8). -/
abbrev Answers {α : Type} (script : List α) (a : α) : Prop := ∀ x rest, script = x :: rest → a = x

theorem Answers.of_cons {α : Type} {script rest : List α} {a x : α} (h : Answers script a) (hs : script = x :: rest) :
    a = x ∧ script.tail = rest :=
  ⟨h x rest hs, hs ▸ rfl⟩

theorem Answers.head {α : Type} (a : α) (rest : List α) : Answers (a :: rest) a := by
  rintro x rest' ⟨⟩
  rfl

theorem State.askConfigured_scripted (s : State) : Answers s.host.cfg s.askConfigured.1 ∧ ∃ d, s.askConfigured.2 =
    { s with host := { s.host with cfg := s.host.cfg.tail }, draws := d,
             trace := s.trace ++ [.configured s.askConfigured.1] } := by
  obtain ⟨_, _, _, _, _, _, _, _, _, _, ⟨_ | ⟨a, rest⟩, _, _, _⟩, _, _, draws, _⟩ := s
  · exact ⟨nofun, draws + 1, rfl⟩
  · exact ⟨.head a rest, draws, rfl⟩

theorem State.askSend_scripted (s : State) (e : Event) : Answers s.host.acc (s.askSend e).1 ∧ ∃ d, (s.askSend e).2 =
    { s with host := { s.host with acc := s.host.acc.tail }, draws := d,
             trace := s.trace ++ [.send e (s.askSend e).1] } := by
  obtain ⟨_, _, _, _, _, _, _, _, _, _, ⟨_, _ | ⟨a, rest⟩, _, _⟩, _, _, draws, _⟩ := s
  · exact ⟨nofun, draws + 1, rfl⟩
  · exact ⟨.head a rest, draws, rfl⟩

theorem State.askTxReady_scripted (s : State) : Answers s.host.txr s.askTxReady.1 ∧ ∃ d, s.askTxReady.2 =
    { s with host := { s.host with txr := s.host.txr.tail }, draws := d,
             trace := s.trace ++ [.txReady s.askTxReady.1] } := by
  obtain ⟨_, _, _, _, _, _, _, _, _, _, ⟨_, _, _, _ | ⟨a, rest⟩⟩, _, _, draws, _⟩ := s
  · exact ⟨nofun, draws + 1, rfl⟩
  · exact ⟨.head a rest, draws, rfl⟩

theorem State.askReceive_scripted (s : State) : Answers s.host.rx s.askReceive.1 ∧ ∃ d, s.askReceive.2 =
    { s with host := { s.host with rx := s.host.rx.tail }, draws := d,
             trace := s.trace ++ [.receive s.askReceive.1] } := by
  obtain ⟨_, _, _, _, _, _, _, _, _, _, ⟨_, _, _ | ⟨a, rest⟩, _⟩, _, _, draws, _⟩ := s
  · exact ⟨nofun, draws + 1, rfl⟩
  · exact ⟨.head a rest, draws, rfl⟩

/-! ## Up to one point of a phase action -/

/-- From `s` to `t` the loop has done `items` and the handler may have run at `n` points; the FIFO has received what
arrived, and no other register has changed (R52, R143, log 10). -/
structure State.Advances (n : Nat) (items : List TraceItem) (s t : State) : Prop extends State.MovesFifo s t where
  turns : t.turns = s.turns
  entered : t.entered = s.entered
  trace : ∃ new, t.trace = s.trace ++ new ∧ loopTrace new = items
  gaps : ∀ gs more, s.gaps = gs ++ more → gs.length = n →
    t.gaps = more ∧ offeredBytes t.trace = offeredBytes s.trace ++ gs.flatten
  receives : s.fifo.Inv s.config → Receives 0 s t

namespace State.Advances

theorem refl (s : State) : State.Advances 0 [] s s where
  toMovesFifo := .of_moves .refl
  turns := rfl
  entered := rfl
  trace := ⟨[], (List.append_nil _).symm, rfl⟩
  gaps gs more hgaps hlen := by
    obtain rfl := List.length_eq_zero_iff.mp hlen
    exact ⟨hgaps, (List.append_nil _).symm⟩
  receives := Receives.refl

/-- One more point at which the handler may run. -/
theorem gap (h : State.Advances n items s t) (hc : s.config = c) : State.Advances (n + 1) items s (t.gap c) where
  toMovesFifo := h.toMovesFifo.trans (.gap (h.config.trans hc))
  turns := (t.gap_turns c).trans h.turns
  entered := (t.gap_entered c).trans h.entered
  trace := by
    obtain ⟨new, htrace, hnew⟩ := h.trace
    obtain ⟨arrived, hgap, harrival⟩ := t.gap_trace c
    refine ⟨new ++ arrived, by rw [hgap, htrace, List.append_assoc], ?_⟩
    rw [loopTrace_append, hnew, loopTrace, List.filter_eq_nil_iff.mpr (by simpa using harrival), List.append_nil]
  gaps gs more hgaps hlen := by
    obtain ⟨front, g, rfl⟩ := List.eq_nil_or_concat gs |>.resolve_left (by rintro rfl; cases hlen)
    obtain ⟨hleft, hoffered⟩ := h.gaps front (g :: more) (by simpa using hgaps) (by simpa using hlen)
    obtain ⟨hnext, hbytes⟩ := State.gap_listed c hleft
    exact ⟨hnext, by simp [hbytes, hoffered]⟩
  receives hf := by
    subst hc
    exact (h.receives hf).gap (h.fifo.inv hf)

/-- One more doing of the loop that reaches no register. -/
theorem loop (h : State.Advances n items s t) (hxs : loopTrace xs = xs) (ho : HostAnswers) (d : Nat) :
    State.Advances n (items ++ xs) s { t with host := ho, draws := d, trace := t.trace ++ xs } where
  toMovesFifo := h.toMovesFifo.trans (.of_moves .refl)
  turns := h.turns
  entered := h.entered
  trace := by
    obtain ⟨new, htrace, hnew⟩ := h.trace
    exact ⟨new ++ xs, by rw [htrace, List.append_assoc], by rw [loopTrace_append, hnew, hxs]⟩
  gaps gs more hgaps hlen := by
    obtain ⟨hleft, hoffered⟩ := h.gaps gs more hgaps hlen
    obtain ⟨-, hno⟩ := noBytes_of_loopTrace_eq hxs
    exact ⟨hleft, by rw [← hoffered]; simp [offeredBytes, List.filterMap_append] at hno ⊢; exact hno⟩
  receives hf := by
    obtain ⟨more, haccepted, hfifo⟩ := h.receives hf
    obtain ⟨hno, -⟩ := noBytes_of_loopTrace_eq hxs
    exact ⟨more, by rw [acceptedBytes_append, haccepted, hno, List.append_nil], hfifo⟩

theorem raiseAll (h : State.Advances n items s t) {cs : List Condition}
    (hcs : loopTrace (cs.map .raised) = cs.map .raised) :
    State.Advances n (items ++ cs.map .raised) s (t.raiseAll cs) := by
  rw [State.raiseAll_eq]
  exact h.loop hcs t.host t.draws

theorem askSend (h : State.Advances n items s t) (e : Event) :
    State.Advances n (items ++ [.send e (t.askSend e).1]) s (t.askSend e).2 := by
  obtain ⟨-, d, hasked⟩ := t.askSend_scripted e
  rw [hasked]
  exact h.loop rfl _ d

theorem askTxReady (h : State.Advances n items s t) :
    State.Advances n (items ++ [.txReady t.askTxReady.1]) s t.askTxReady.2 := by
  obtain ⟨-, d, hasked⟩ := t.askTxReady_scripted
  rw [hasked]
  exact h.loop rfl _ d

theorem askReceive (h : State.Advances n items s t) :
    State.Advances n (items ++ [.receive t.askReceive.1]) s t.askReceive.2 := by
  obtain ⟨-, d, hasked⟩ := t.askReceive_scripted
  rw [hasked]
  exact h.loop rfl _ d

theorem sendBytes (h : State.Advances n items s t) (hc : s.config = c) (bs : List Byte) :
    State.Advances (n + bs.length) (items ++ bs.map .sendByte) s (t.sendBytes c bs) := by
  induction bs generalizing n items t with
  | nil => simpa using h
  | cons v bs ih =>
    have hsent := ih ((h.gap hc).loop (xs := [.sendByte v]) rfl (t.gap c).host (t.gap c).draws)
    simpa [Nat.add_assoc, Nat.add_comm, State.log] using hsent

/-- The serializer takes no part in it. -/
theorem with_ser (h : State.Advances n items s t) (q : Serializer) :
    State.Advances n items { s with ser := q } { t with ser := q } :=
  { config := h.config, modeIn := h.modeIn, bridgeMode := h.bridgeMode, parser := h.parser, ser := rfl,
    timerA := h.timerA, timerB := h.timerB, fifo := h.fifo, turns := h.turns, entered := h.entered, trace := h.trace,
    gaps := h.gaps, receives := h.receives }

theorem platform (h : State.Advances n items s t) : KeepsPlatform s t := ⟨h.config, h.modeIn, h.turns⟩

theorem loopTrace_eq (h : State.Advances n items s t) : loopTrace t.trace = loopTrace s.trace ++ items := by
  obtain ⟨new, htrace, rfl⟩ := h.trace
  rw [htrace, loopTrace_append]

/-- What the loop has done is new in the trace. -/
theorem mem_new (h : State.Advances n items s t) {x : TraceItem} (hx : x ∈ items) :
    x ∈ t.trace.drop s.trace.length := by
  obtain ⟨new, htrace, rfl⟩ := h.trace
  rw [htrace, List.drop_left]
  exact List.mem_of_mem_filter hx

end State.Advances

end Sys2Proof.Machine
end

section
/-! PROOF. Everything that a phase action can do (44_bridge R144 to R150): STEP.DRAIN_A and STEP.DRAIN_B each as one case
analysis. -/

namespace Sys2Proof.Machine

variable {s t : State} {b : Byte} {e : Event} {n : Nat} {items : List TraceItem}

/-! ## STEP.PUMP1 and STEP.CFG -/

theorem tick_eq (k : Nat) : tick k = if k ≠ 0 then k - 1 else 0 := by
  unfold tick
  split <;> omega

theorem State.cfgAction_eq (s : State) : Answers s.host.cfg s.askConfigured.1 ∧ ∃ d, s.cfgAction =
    { s with host := { s.host with cfg := s.host.cfg.tail }, draws := d,
             trace := s.trace ++ [.configured s.askConfigured.1],
             phase := if s.askConfigured.1 = true then .drainA else .pump2 } := by
  obtain ⟨hanswer, d, hasked⟩ := s.askConfigured_scripted
  refine ⟨hanswer, d, ?_⟩
  unfold State.cfgAction
  dsimp only
  rw [hasked]

/-! ## STEP.DRAIN_A -/

/-- The byte `b` is the one that STEP.DRAIN_A peeks, whatever arrives before the `PEEK`. -/
structure State.Peeks (s : State) (b : Byte) : Prop where
  held : s.fifo.count ≠ 0
  oldest : s.fifo.Inv s.config → (s.fifo.contents s.config).head? = some b

/-- What STEP.DRAIN_A computes: `feed` of the byte at the parser's state, not yet kept (R147). -/
abbrev State.fedBy (s : State) (b : Byte) : FeedResult := feed s.config s.parser b

/-- What the loop has done once a byte is fed: it has reported the conditions. -/
abbrev State.feedItems (s : State) (b : Byte) : List TraceItem := (s.fedBy b).raised.map .raised

/-- Everything STEP.DRAIN_A can do from `s` (R146, R147): nothing to drain; a byte that completes no event is consumed;
a byte that completes one is consumed once the event is accepted, and left where it is when the event is refused. -/
inductive State.DrainsA (s : State) : State → Prop where
  | empty (drained : s.fifo.count = 0) : s.DrainsA { s with phase := .drainB }
  | silent {b : Byte} {u : State} (peeks : s.Peeks b) (event : (s.fedBy b).event = none) (host : u.host = s.host)
      (adv : State.Advances 2 (s.feedItems b) s u) : s.DrainsA (u.commit s.config (s.fedBy b).parser)
  | accepted {b : Byte} {u : State} {e : Event} (peeks : s.Peeks b) (event : (s.fedBy b).event = some e)
      (answer : Answers s.host.acc true) (host : u.host = { s.host with acc := s.host.acc.tail })
      (adv : State.Advances 3 (s.feedItems b ++ [.send e true]) s u) :
      s.DrainsA { u.commit s.config (s.fedBy b).parser with timerA := s.config.activityReload }
  | refused {b : Byte} {u : State} {e : Event} (peeks : s.Peeks b) (event : (s.fedBy b).event = some e)
      (answer : Answers s.host.acc false) (host : u.host = { s.host with acc := s.host.acc.tail })
      (adv : State.Advances 2 (s.feedItems b ++ [.send e false, .raised (.transmitNotReady e)]) s u) :
      s.DrainsA { u with phase := .drainB }

theorem State.Peeks.of_contents (h : s.Peeks b) {b' : Byte} {rest : List Byte} (hf : s.fifo.Inv s.config)
    (hs : s.fifo.contents s.config = b' :: rest) : b = b' := by
  have hhead := h.oldest hf
  rw [hs] at hhead
  exact (Option.some.inj hhead).symm

/-- What arrives before the `PEEK` stands behind the oldest byte. -/
theorem State.peeks_front_gap (hne : s.fifo.count ≠ 0) : s.Peeks (s.gap s.config).fifo.front where
  held := hne
  oldest hf := by
    obtain ⟨more, -, hcontents, -⟩ := (Receives.refl hf).gap hf
    rw [← Fifo.head?_contents (State.gap_inv hf) (State.gap_count_ne_zero s.config hne), hcontents, List.drop_zero,
      List.head?_append_of_ne_nil _ (mt (Fifo.contents_eq_nil_iff s.config s.fifo).mp hne)]

/-- Up to the delivery: the byte is peeked and fed, with two points for the handler. -/
theorem State.drainAAction_held (hne : s.fifo.count ≠ 0) : ∃ b u, s.Peeks b ∧ u.host = s.host ∧
    State.Advances 2 (s.feedItems b) s u ∧ s.drainAAction s.config = u.offer s.config (s.fedBy b) := by
  rcases s.drainAAction_cases s.config with ⟨hempty, -⟩ | ⟨-, w, rfl, haction⟩
  · exact absurd hempty hne
  · refine ⟨_, _, State.peeks_front_gap hne, by simp, ?_, haction⟩
    exact (((State.Advances.refl s).gap rfl).raiseAll (loopTrace_feed_raised ..)).gap rfl

theorem State.drainAAction_empty (hempty : s.fifo.count = 0) :
    s.drainAAction s.config = { s with phase := .drainB } :=
  (s.drainAAction_cases s.config).elim (fun hcase => hcase.2) fun hcase => absurd hempty hcase.1

theorem State.drainAAction_drains (s : State) : s.DrainsA (s.drainAAction s.config) := by
  by_cases hempty : s.fifo.count = 0
  · exact State.drainAAction_empty hempty ▸ .empty hempty
  obtain ⟨b, u, hpeeks, hhost, hadv, haction⟩ := State.drainAAction_held hempty
  rw [haction]
  rcases u.offer_cases s.config (s.fedBy b) with ⟨hevent, h⟩ | ⟨e, hevent, hoffered⟩
  · exact h ▸ .silent hpeeks hevent hhost hadv
  obtain ⟨hanswer, d, hasked⟩ := u.askSend_scripted e
  rw [hhost] at hanswer hasked
  have hsent := hadv.askSend e
  rcases hoffered with ⟨ha, h⟩ | ⟨ha, h⟩ <;> rw [ha] at hanswer hsent <;> rw [h]
  · refine .accepted hpeeks hevent hanswer ?_ (hsent.gap rfl)
    rw [State.gap_host, hasked]
  · refine .refused hpeeks hevent hanswer (hasked ▸ rfl) ?_
    have hraised := hsent.raiseAll (cs := [.transmitNotReady e]) rfl
    rwa [List.append_assoc] at hraised

/-- With a byte held that completes no event, STEP.DRAIN_A consumes it. -/
theorem State.DrainsA.silent_of_contents {rest : List Byte} (h : s.DrainsA t) (hf : s.fifo.Inv s.config)
    (hs : s.fifo.contents s.config = b :: rest) (hevent : (s.fedBy b).event = none) :
    ∃ u, s.Peeks b ∧ u.host = s.host ∧ State.Advances 2 (s.feedItems b) s u ∧
      t = u.commit s.config (s.fedBy b).parser := by
  cases h with
  | empty hempty => cases hs.symm.trans ((Fifo.contents_eq_nil_iff ..).mpr hempty)
  | silent hpeeks _ hhost hadv =>
    obtain rfl := hpeeks.of_contents hf hs
    exact ⟨_, hpeeks, hhost, hadv, rfl⟩
  | accepted hpeeks hsome | refused hpeeks hsome =>
    obtain rfl := hpeeks.of_contents hf hs
    cases hsome.symm.trans hevent

/-- With a byte held that completes an event, STEP.DRAIN_A offers the event once, and goes by the answer. -/
theorem State.DrainsA.offered_of_contents {rest : List Byte} (h : s.DrainsA t) (hf : s.fifo.Inv s.config)
    (hs : s.fifo.contents s.config = b :: rest) (hevent : (s.fedBy b).event = some e) :
    ∃ u, s.Peeks b ∧ u.host = { s.host with acc := s.host.acc.tail } ∧
      ((Answers s.host.acc true ∧ State.Advances 3 (s.feedItems b ++ [.send e true]) s u ∧
          t = { u.commit s.config (s.fedBy b).parser with timerA := s.config.activityReload }) ∨
        (Answers s.host.acc false ∧
          State.Advances 2 (s.feedItems b ++ [.send e false, .raised (.transmitNotReady e)]) s u ∧
          t = { u with phase := .drainB })) := by
  cases h with
  | empty hempty => cases hs.symm.trans ((Fifo.contents_eq_nil_iff ..).mpr hempty)
  | silent hpeeks hnone =>
    obtain rfl := hpeeks.of_contents hf hs
    cases hevent.symm.trans hnone
  | accepted hpeeks hsome hanswer hhost hadv =>
    obtain rfl := hpeeks.of_contents hf hs
    obtain rfl := Option.some.inj (hsome.symm.trans hevent)
    exact ⟨_, hpeeks, hhost, .inl ⟨hanswer, hadv, rfl⟩⟩
  | refused hpeeks hsome hanswer hhost hadv =>
    obtain rfl := hpeeks.of_contents hf hs
    obtain rfl := Option.some.inj (hsome.symm.trans hevent)
    exact ⟨_, hpeeks, hhost, .inr ⟨hanswer, hadv, rfl⟩⟩

theorem exec_stepDrainA_drains (hb : s.bridgeMode = true) : ∃ t, exec .stepDrainA s = .next t ∧ s.freshLoop.DrainsA t :=
  ⟨_, exec_stepDrainA_run hb, State.drainAAction_drains s.freshLoop⟩

theorem exec_stepDrainA_next (h : exec .stepDrainA s = .next t) : s.freshLoop.DrainsA t := by
  obtain ⟨-, rfl⟩ := State.inLoop_next.mp h
  exact State.drainAAction_drains s.freshLoop

/-! ## STEP.DRAIN_B -/

/-- Everything STEP.DRAIN_B can do from `s` (R148, R149): the egress is not ready; it is ready and no event waits; an
event is received, serialized and sent whole. -/
inductive State.DrainsB (s : State) : State → Prop where
  | notReady {d : Nat} (answer : Answers s.host.txr false) :
      s.DrainsB { s with host := { s.host with txr := s.host.txr.tail }, draws := d,
                         trace := s.trace ++ [.txReady false], phase := .pump2 }
  | noEvent {u : State} (ready : Answers s.host.txr true) (answer : Answers s.host.rx none)
      (host : u.host = { s.host with txr := s.host.txr.tail, rx := s.host.rx.tail })
      (adv : State.Advances 1 [.txReady true, .receive none] s u) : s.DrainsB { u with phase := .pump2 }
  | event {u : State} {e : Event} (ready : Answers s.host.txr true) (answer : Answers s.host.rx (some e))
      (host : u.host = { s.host with txr := s.host.txr.tail, rx := s.host.rx.tail })
      (adv : State.Advances (1 + (s.ser.bytes s.config e).length)
        ([.txReady true, .receive (some e)] ++ (s.ser.bytes s.config e).map .sendByte)
        { s with ser := s.ser.after s.config e } u) :
      s.DrainsB { u with timerB := s.config.activityReload, phase := .drainB }

/-- The second half of STEP.DRAIN_B: the event is serialized, and before every byte the handler may run (R149). -/
theorem State.Advances.deliver (h : State.Advances n items s t) (e : Event) :
    ∃ u, State.Advances (n + (s.ser.bytes s.config e).length) (items ++ (s.ser.bytes s.config e).map .sendByte)
        { s with ser := s.ser.after s.config e } u ∧ u.host = t.host ∧
      t.deliver s.config e = { u with timerB := s.config.activityReload, phase := .drainB } := by
  refine ⟨_, (h.with_ser (s.ser.after s.config e)).sendBytes rfl (s.ser.bytes s.config e), by simp, ?_⟩
  rw [← h.ser]
  rfl

theorem State.drainBAction_drains (s : State) : s.DrainsB (s.drainBAction s.config) := by
  obtain ⟨q, rfl, hq⟩ := s.drainBAction_cases s.config
  obtain ⟨hready, d, hasked⟩ := s.askTxReady_scripted
  have hadv := (State.Advances.refl s).askTxReady
  rcases hq with ⟨ha, h⟩ | ⟨ha, r, rfl, hr⟩ <;> rw [ha] at hready hasked hadv
  · rw [h, hasked]
    exact .notReady hready
  obtain ⟨hanswer, d', hreceived⟩ := (s.askTxReady.2.gap s.config).askReceive_scripted
  have hhost : (s.askTxReady.2.gap s.config).askReceive.2.host =
      { s.host with txr := s.host.txr.tail, rx := s.host.rx.tail } := by
    rw [hreceived, State.gap_host, hasked]
  have hrx : (s.askTxReady.2.gap s.config).host.rx = s.host.rx := by
    rw [State.gap_host, hasked]
  have hadv' := (hadv.gap rfl).askReceive
  rcases hr with ⟨hr, h⟩ | ⟨e, hr, h⟩ <;> rw [hr, hrx] at hanswer <;> rw [hr] at hadv' <;> rw [h]
  · exact .noEvent hready hanswer hhost hadv'
  · obtain ⟨u, hsent, hkept, hdelivered⟩ := hadv'.deliver e
    exact hdelivered ▸ .event hready hanswer (hkept.trans hhost) hsent

theorem exec_stepDrainB_drains (hb : s.bridgeMode = true) : ∃ t, exec .stepDrainB s = .next t ∧ s.freshLoop.DrainsB t :=
  ⟨_, exec_stepDrainB_run hb, State.drainBAction_drains s.freshLoop⟩

theorem exec_stepDrainB_next (h : exec .stepDrainB s = .next t) : s.freshLoop.DrainsB t := by
  obtain ⟨-, rfl⟩ := State.inLoop_next.mp h
  exact State.drainBAction_drains s.freshLoop

end Sys2Proof.Machine
end

section
/-! PROOF. The fetch by the kind of the turn (44_bridge R143, 60_exceptions R176, 30_encoding R78), and the table words
placed for it. -/

namespace Sys2Proof.Machine

variable {s u : State} {b : Byte} {i : Instr} {p : Inlet} {w : Word}

/-! ## What a turn presents -/

theorem decode_irq (b : Byte) :
    decode .request ((portVector false true false b).setWidth 32) = .ok (.insert false b) :=
  decodeOfEncode (.insert false b) rfl

theorem decode_phaseCode (ph : Phase) : decode .phase ((phaseCode ph).setWidth 32) = .ok (phaseAction ph) := by
  cases ph with
  | pump1 => exact decodeOfEncode .stepPump1 rfl
  | cfg => exact decodeOfEncode .stepCfg rfl
  | drainA => exact decodeOfEncode .stepDrainA rfl
  | drainB => exact decodeOfEncode .stepDrainB rfl
  | pump2 => exact decodeOfEncode .stepPump2 rfl

/-- The only patterns at an inlet that are no instruction: an idle request vector and the reset input at 0
(R76, R77). -/
theorem decode_lines_error {r : Reject} (h : decode p.port (p.port.lines w) = .error r) :
    p = .request ∧ r = .noRequest ∨ p = .rst ∧ r = .resetNotAsserted := by
  rw [Port.lines, decode_setWidth] at h
  cases p with
  | request =>
    change decodeRequest _ = _ at h
    unfold decodeRequest at h
    split_ifs at h
    cases h
    exact .inl ⟨rfl, rfl⟩
  | rdData | count | empty | full | serEvt => cases h
  | feedByte =>
    obtain ⟨i, hi⟩ := Option.isSome_iff_exists.mp (decodeByte_total (w.setWidth 8))
    change decodeFeed (w.setWidth 8) = _ at h
    rw [decodeFeed, hi] at h
    cases h
  | rst =>
    change decodeReset _ = _ at h
    unfold decodeReset at h
    split_ifs at h
    cases h
    exact .inr ⟨rfl, rfl⟩

/-! ## The step, by the turn it takes -/

theorem State.nextTurn_listed {x : Turn} {rest : List Turn} (h : s.turns = x :: rest) :
    s.nextTurn = (x, { s with turns := rest }) := by
  unfold State.nextTurn
  rw [h]

theorem State.nextTurn_unlisted (h : s.turns = []) :
    s.nextTurn = ((Config.arrival s.draws).elim .loop .irq, s.drawn) := by
  unfold State.nextTurn
  rw [h]
  cases Config.arrival s.draws <;> rfl

theorem step_of_fetch_ok (h : s.fetch = (.ok i, u)) : step s = exec i u := by
  unfold step
  rw [h]

theorem step_of_fetch_error {r : Reject} (h : s.fetch = (.error r, u)) : step s = u.idle := by
  unfold step
  rw [h]

theorem step_irq (h : s.nextTurn = (.irq b, u)) : step s = exec (.insert false b) u.enter := by
  have hfetch : s.fetch = (decode .request ((portVector false true false b).setWidth 32), u.enter) := by
    unfold State.fetch
    rw [h]
  exact step_of_fetch_ok (decode_irq b ▸ hfetch)

theorem step_loop (h : s.nextTurn = (.loop, u)) : step s = exec (phaseAction u.phase) u := by
  have hfetch : s.fetch = (decode .phase ((phaseCode u.phase).setWidth 32), u) := by
    unfold State.fetch
    rw [h]
  exact step_of_fetch_ok (decode_phaseCode u.phase ▸ hfetch)

theorem State.fetch_request (h : s.nextTurn = (.request p w, u)) :
    s.fetch = (decode p.port (p.port.lines w), u) := by
  unfold State.fetch
  rw [h]

theorem step_request (h : s.nextTurn = (.request p w, u)) (hi : decode p.port (p.port.lines w) = .ok i) :
    step s = exec i u :=
  step_of_fetch_ok (hi ▸ State.fetch_request h)

theorem step_request_idle (h : s.nextTurn = (.request p w, u)) {r : Reject}
    (hr : decode p.port (p.port.lines w) = .error r) : step s = u.idle :=
  step_of_fetch_error (hr ▸ State.fetch_request h)

/-- A turn of the handler or of the loop, taken from the list or chosen by the free value. -/
theorem State.nextTurn_of_bridgeTurn (h : s.bridgeTurn = true) :
    (∃ b u, s.nextTurn = (.irq b, u)) ∨ ∃ u, s.nextTurn = (.loop, u) := by
  unfold State.bridgeTurn at h
  cases hturns : s.turns with
  | nil =>
    rw [State.nextTurn_unlisted hturns]
    cases Config.arrival s.draws with
    | none => exact .inr ⟨_, rfl⟩
    | some b => exact .inl ⟨b, _, rfl⟩
  | cons x rest =>
    rw [State.nextTurn_listed hturns]
    cases x with
    | irq b => exact .inl ⟨b, _, rfl⟩
    | loop => exact .inr ⟨_, rfl⟩
    | request p w =>
      rw [hturns] at h
      cases h

/-! ## A table word placed for the fetch (log 15, log 16) -/

theorem Port.inlet_eq_none {q : Port} (h : q.inlet = none) : q = .phase := by
  cases q with
  | phase => rfl
  | _ => cases h

theorem Port.inlet_eq_some {q : Port} (h : q.inlet = some p) : p.port = q := by
  cases q <;> cases h <;> rfl

theorem decodeTableWord_eq_some {nbits w : Nat} (h : decodeTableWord nbits w = some i) :
    w < 2 ^ 32 ∧ decode (tablePort nbits w) (BitVec.ofNat 32 w) = .ok i := by
  unfold decodeTableWord at h
  split at h
  · cases h
  · next hw =>
    split at h
    · next j hj =>
      cases h
      exact ⟨Nat.lt_of_not_le hw, hj⟩
    · cases h

/-- A pattern that decodes at a port is the whole of what the port sees. -/
theorem lines_of_decode {q : Port} (h : decode q w = .ok i) : q.lines w = w := by
  obtain ⟨v, rfl⟩ := exists_lines_of_decode h
  exact Port.lines_of_lt (q.toNat_setWidth v ▸ v.isLt)

/-- A word that decodes at the phase register is the code of the phase whose action it is (R72). -/
theorem codePhase_of_decode {w : Nat} (hw : w < 2 ^ 32) (h : decode .phase (BitVec.ofNat 32 w) = .ok i) :
    ∃ ph, codePhase w = some ph ∧ i = phaseAction ph := by
  have hlt : w < 8 := by
    obtain ⟨v, hv⟩ := exists_lines_of_decode h
    have hnat := congrArg BitVec.toNat hv
    rw [Port.toNat_setWidth, BitVec.toNat_ofNat, Nat.mod_eq_of_lt hw] at hnat
    exact hnat ▸ v.isLt
  interval_cases w <;> cases h <;> exact ⟨_, rfl, rfl⟩

theorem step_placed {nbits w : Nat} (h : decodeTableWord nbits w = some i) :
    step (s.place nbits w) = exec i s ∨
      ∃ ph, i = phaseAction ph ∧ step (s.place nbits w) = exec i { s with phase := ph } := by
  obtain ⟨hw, hdecode⟩ := decodeTableWord_eq_some h
  unfold State.place
  cases hinlet : (tablePort nbits w).inlet with
  | some p =>
    have hport := Port.inlet_eq_some hinlet
    rw [← hport] at hdecode
    refine .inl (step_request (State.nextTurn_listed rfl) ?_)
    rw [lines_of_decode hdecode, hdecode]
  | none =>
    rw [Port.inlet_eq_none hinlet] at hdecode
    obtain ⟨ph, hcode, rfl⟩ := codePhase_of_decode hw hdecode
    rw [hcode]
    exact .inr ⟨ph, rfl, step_loop (State.nextTurn_listed rfl)⟩

end Sys2Proof.Machine
end

section
/-! PROOF. The two directions end to end (44_bridge R156): what every turn of the handler and of the loop delivers, said
once, and that it keeps both histories. -/

namespace Sys2Proof.Machine

variable {c : Config} {s t u : State} {b : Byte} {e : Event} {n : Nat} {items : List TraceItem} {taken : List Byte}

/-! ## What a turn delivers -/

/-- From `s` to `t` the loop has done `items` and consumed the oldest bytes `taken`; the parser and the accepted events
are what `feed` makes of these bytes, the serializer and the sent bytes what `serialize` makes of the received events,
and no read has underflowed (R147, R149). -/
structure State.Delivers (taken : List Byte) (items : List TraceItem) (s t : State) : Prop where
  config : t.config = s.config
  trace : ∃ new, t.trace = s.trace ++ new ∧ loopTrace new = items
  receives : s.fifo.Inv s.config → Receives taken.length s t ∧ taken <+: s.fifo.contents s.config
  fed : feedAll s.config s.parser taken = (t.parser, acceptedEvents items)
  serialized : serializeAll s.config s.ser (receivedEvents items) = (t.ser, sentBytes items)
  reads : .raised .underflow ∉ items

namespace State.Delivers

/-- The phase and the timers play no part in it. -/
theorem update (h : State.Delivers taken items s t) (ph : Phase) (x y : Nat) :
    State.Delivers taken items s { t with phase := ph, timerA := x, timerB := y } :=
  ⟨h.config, h.trace, h.receives, h.fed, h.serialized, h.reads⟩

theorem acceptedEvents_trace (h : State.Delivers taken items s t) :
    acceptedEvents t.trace = acceptedEvents s.trace ++ acceptedEvents items := by
  obtain ⟨new, htrace, rfl⟩ := h.trace
  rw [htrace, acceptedEvents_append, acceptedEvents_loopTrace]

theorem receivedEvents_trace (h : State.Delivers taken items s t) :
    receivedEvents t.trace = receivedEvents s.trace ++ receivedEvents items := by
  obtain ⟨new, htrace, rfl⟩ := h.trace
  rw [htrace, receivedEvents_append, receivedEvents_loopTrace]

theorem sentBytes_trace (h : State.Delivers taken items s t) :
    sentBytes t.trace = sentBytes s.trace ++ sentBytes items := by
  obtain ⟨new, htrace, rfl⟩ := h.trace
  rw [htrace, sentBytes_append, sentBytes_loopTrace]

end State.Delivers

/-- A doing of the loop that consumes, receives and sends nothing. -/
theorem State.Advances.delivers (h : State.Advances n items s t) (haccepted : acceptedEvents items = [])
    (hreceived : receivedEvents items = []) (hsent : sentBytes items = []) (hreads : .raised .underflow ∉ items) :
    State.Delivers [] items s t where
  config := h.config
  trace := h.trace
  receives hf := ⟨h.receives hf, List.nil_prefix⟩
  fed := by rw [haccepted, h.parser, feedAll_nil]
  serialized := by rw [hreceived, hsent, h.ser, serializeAll_nil]
  reads := hreads

/-- One consumed byte (R147). -/
theorem State.Advances.delivers_commit (h : State.Advances n items s u) (hpeeks : s.Peeks b)
    (haccepted : acceptedEvents items = (s.fedBy b).event.toList) (hreceived : receivedEvents items = [])
    (hsent : sentBytes items = []) (hreads : .raised .underflow ∉ items) :
    State.Delivers [b] items s (u.commit s.config (s.fedBy b).parser) where
  config := h.config
  trace := h.trace
  receives hf := by
    refine ⟨(h.receives hf).pop hpeeks.held (h.fifo.inv hf) rfl rfl, ?_⟩
    obtain ⟨rest, hrest⟩ := List.head?_eq_some_iff.mp (hpeeks.oldest hf)
    exact ⟨rest, hrest.symm⟩
  fed := by
    rw [feedAll_cons, feedAll_nil, List.append_nil, haccepted]
    rfl
  serialized := by
    rw [hreceived, hsent, serializeAll_nil]
    exact congrArg (·, []) h.ser.symm
  reads := hreads

theorem underflow_notMem_feedItems (s : State) (b : Byte) : .raised .underflow ∉ s.feedItems b := by
  intro hmem
  obtain ⟨x, hx, hraised⟩ := List.mem_map.mp hmem
  rcases feed_raised_mem hx with rfl | rfl <;> cases hraised

theorem State.DrainsA.delivers (h : s.DrainsA t) : ∃ taken items, State.Delivers taken items s t := by
  cases h with
  | empty =>
    exact ⟨[], [], ((State.Advances.refl s).delivers rfl rfl rfl (List.not_mem_nil)).update ..⟩
  | @silent b u hpeeks hevent _ hadv =>
    exact ⟨[b], _, hadv.delivers_commit hpeeks (by simp [hevent]) (by simp) (by simp) (underflow_notMem_feedItems s b)⟩
  | @accepted b u e hpeeks hevent _ _ hadv =>
    refine ⟨[b], _, (hadv.delivers_commit hpeeks ?_ ?_ ?_ ?_).update ..⟩
    · simp [hevent, acceptedEvents]
    · simp [receivedEvents]
    · simp [sentBytes]
    · simpa using underflow_notMem_feedItems s b
  | @refused b u e _ _ _ _ hadv =>
    refine ⟨[], _, (hadv.delivers ?_ ?_ ?_ ?_).update ..⟩
    · simp [acceptedEvents]
    · simp [receivedEvents]
    · simp [sentBytes]
    · simpa using underflow_notMem_feedItems s b

theorem State.DrainsB.delivers (h : s.DrainsB t) : ∃ items, State.Delivers [] items s t := by
  cases h with
  | @notReady d answer =>
    have hadv := (State.Advances.refl s).loop (xs := [.txReady false]) rfl
      { s.host with txr := s.host.txr.tail } d
    exact ⟨_, (hadv.delivers rfl rfl rfl (by simp)).update ..⟩
  | noEvent _ _ _ hadv => exact ⟨_, (hadv.delivers rfl rfl rfl (by simp)).update ..⟩
  | @event u e _ _ _ hadv =>
    refine ⟨_, hadv.config, hadv.trace, fun hf => ⟨hadv.receives hf, List.nil_prefix⟩, ?fed, ?serialized, by simp⟩
    case fed =>
      rw [acceptedEvents_append, acceptedEvents_sendByte, feedAll_nil]
      exact congrArg (·, []) hadv.parser.symm
    case serialized =>
      rw [receivedEvents_append, receivedEvents_sendByte, sentBytes_append, sentBytes_sendByte]
      change serializeAll s.config s.ser [e] = (u.ser, s.ser.bytes s.config e)
      rw [hadv.ser, serializeAll_cons, serializeAll_nil, List.append_nil]

/-- One item of the loop and nothing else, but for the phase and the timers (R144, R145, R150). -/
theorem State.delivers_item (s : State) {x : TraceItem} (hx : loopTrace [x] = [x]) (haccepted : acceptedEvents [x] = [])
    (hreceived : receivedEvents [x] = []) (hsent : sentBytes [x] = []) (hreads : .raised .underflow ∉ [x])
    (ho : HostAnswers) (d : Nat) (ph : Phase) (y z : Nat) :
    State.Delivers [] [x] s { s with host := ho, draws := d, trace := s.trace ++ [x], phase := ph, timerA := y,
                                     timerB := z } :=
  (((State.Advances.refl s).loop hx ho d).delivers haccepted hreceived hsent hreads).update ..

theorem State.cfgAction_delivers (s : State) : State.Delivers [] [.configured s.askConfigured.1] s s.cfgAction := by
  obtain ⟨-, d, haction⟩ := s.cfgAction_eq
  rw [haction]
  exact s.delivers_item rfl rfl rfl rfl (by simp) ..

/-- Every phase action delivers, in any state (R143). -/
theorem exec_phaseAction_delivers {ph : Phase} (h : exec (phaseAction ph) s = .next t) :
    ∃ taken items, State.Delivers taken items s.freshLoop t := by
  cases ph with
  | pump1 =>
    obtain ⟨-, rfl⟩ := State.inLoop_next.mp h
    exact ⟨[], [.pump], s.freshLoop.delivers_item rfl rfl rfl rfl (by simp) ..⟩
  | cfg =>
    obtain ⟨-, rfl⟩ := State.inLoop_next.mp h
    exact ⟨[], _, s.freshLoop.cfgAction_delivers⟩
  | drainA => exact (exec_stepDrainA_next h).delivers
  | drainB => exact ⟨[], (exec_stepDrainB_next h).delivers⟩
  | pump2 =>
    obtain ⟨-, rfl⟩ := State.inLoop_next.mp h
    exact ⟨[], [.pump], s.freshLoop.delivers_item rfl rfl rfl rfl (by simp) ..⟩

/-- The handler's `INSERT` delivers nothing and receives its byte. -/
theorem State.insertOp_delivers (hc : s.config = c) (b : Byte) : State.Delivers [] [] s (s.insertOp c b) := by
  have hmoves := State.MovesFifo.insertOp hc b
  subst hc
  refine ⟨hmoves.config, ?trace, fun hf => ⟨?receives, List.nil_prefix⟩, ?fed, ?serialized, List.not_mem_nil⟩
  case trace =>
    rcases s.insertOp_cases s.config b with ⟨-, h⟩ | ⟨-, h⟩ <;> rw [h] <;> exact ⟨_, rfl, rfl⟩
  case receives =>
    exact Receives.store (u := { s with out := { s.out with wrOk := some (!s.fifo.isFull s.config) } }) hf (.refl hf) b
  case fed => rw [hmoves.parser]; rfl
  case serialized => rw [hmoves.ser]; rfl

theorem exec_insert_delivers (h : exec (.insert false b) s = .next t) : State.Delivers [] [] s.fresh t := by
  obtain ⟨-, rfl⟩ := (State.inBridge_next (f := fun u => u.insertOp u.config b)).mp h
  exact State.insertOp_delivers rfl b

/-! ## The histories -/

/-- The serializer reads its last status only (R22, R129). -/
theorem Serializer.bytes_congr {q q' : Serializer} (h : q.last = q'.last) (e : Event) :
    q.bytes c e = q'.bytes c e ∧ (q.after c e).last = (q'.after c e).last := by
  obtain ⟨_ | _, x⟩ := q <;> obtain ⟨_ | _, y⟩ := q' <;> cases h
  · exact ⟨Serializer.bytes_of_none c x y e, Serializer.last_after_none c x y e⟩
  · exact ⟨rfl, rfl⟩

theorem serializeAll_congr {q q' : Serializer} (h : q.last = q'.last) (es : List Event) :
    (serializeAll c q es).1.last = (serializeAll c q' es).1.last ∧
      (serializeAll c q es).2 = (serializeAll c q' es).2 := by
  induction es generalizing q q' with
  | nil => exact ⟨h, rfl⟩
  | cons e es ih =>
    obtain ⟨hbytes, hafter⟩ := Serializer.bytes_congr (c := c) h e
    obtain ⟨hlast, hrest⟩ := ih hafter
    exact ⟨hlast, congrArg₂ (· ++ ·) hbytes hrest⟩

theorem State.Delivers.directionA (h : State.Delivers taken items s t) (hf : s.fifo.Inv s.config) (hs : s.DirectionA) :
    t.DirectionA := by
  obtain ⟨consumed, hbytes, hevents⟩ := hs
  obtain ⟨⟨more, haccepted, hcontents, -⟩, rest, hrest⟩ := h.receives hf
  refine ⟨consumed ++ taken, ?_, ?_⟩
  · calc acceptedBytes t.trace
        = consumed ++ (taken ++ rest) ++ more := by rw [haccepted, hbytes, hrest]
      _ = consumed ++ taken ++ ((taken ++ rest).drop taken.length ++ more) := by simp
      _ = consumed ++ taken ++ t.fifo.contents t.config := by rw [hrest, ← hcontents, h.config]
  · rw [h.config, feedAll_append, hevents, h.fed, h.acceptedEvents_trace]

theorem State.Delivers.directionB (h : State.Delivers taken items s t) (hs : s.DirectionB) : t.DirectionB := by
  obtain ⟨hlast, hsent⟩ := hs
  obtain ⟨hlast', hbytes'⟩ := serializeAll_congr (c := s.config) hlast (receivedEvents items)
  rw [h.serialized] at hlast' hbytes'
  unfold State.DirectionB
  rw [h.config, h.receivedEvents_trace, h.sentBytes_trace, serializeAll_append]
  exact ⟨hlast', congrArg₂ (· ++ ·) hsent hbytes'⟩

/-- A turn of the handler or of the loop delivers, from a state with the registers, the parameters and the trace of
`s`. -/
theorem step_delivers (hturn : s.bridgeTurn = true) (h : step s = .next t) :
    ∃ taken items ts d, State.Delivers taken items
      { s with turns := ts, draws := d, entered := true, out := {} } t := by
  obtain ⟨ts, d, htaken⟩ := s.nextTurn_eq
  rcases State.nextTurn_of_bridgeTurn hturn with ⟨b, u, hnext⟩ | ⟨u, hnext⟩ <;> rw [hnext] at htaken <;> subst htaken
  · rw [step_irq hnext] at h
    exact ⟨[], [], ts, d, exec_insert_delivers h⟩
  · rw [step_loop hnext] at h
    obtain ⟨taken, items, hdelivers⟩ := exec_phaseAction_delivers h
    exact ⟨taken, items, ts, d, hdelivers⟩

end Sys2Proof.Machine
end

section
/-! PROOF. The statements about 44_bridge and the fetch, each from the lemmas above. -/

namespace Sys2Proof.Machine

/-- Settles O59: a turn consumes the oldest bytes held, receives behind them, and delivers what `feed` makes of those
consumed. -/
theorem directionADeliversInOrder : Obligations.DirectionADeliversInOrder := by
  unfold Obligations.DirectionADeliversInOrder
  intro s t hturn hf hs h
  obtain ⟨taken, items, ts, d, hdelivers⟩ := step_delivers hturn h
  exact hdelivers.directionA hf hs

/-- Settles O60: a turn sends what `serialize` makes of the event it receives, and `serialize` reads the last status
only. -/
theorem directionBDeliversInOrder : Obligations.DirectionBDeliversInOrder := by
  unfold Obligations.DirectionBDeliversInOrder
  intro s t hturn hs h
  obtain ⟨taken, items, ts, d, hdelivers⟩ := step_delivers hturn h
  exact hdelivers.directionB hs

/-- Settles O57: among the loop's own items there is no `Underflow`, and the handler's are no reads. -/
theorem loopNeverUnderflows : Obligations.LoopNeverUnderflows := by
  unfold Obligations.LoopNeverUnderflows
  intro ph s t h
  obtain ⟨taken, items, hdelivers⟩ := exec_phaseAction_delivers h
  obtain ⟨new, htrace, rfl⟩ := hdelivers.trace
  exact ⟨new, htrace, fun hmem => hdelivers.reads (List.mem_filter.mpr ⟨hmem, rfl⟩)⟩

/-- Settles O52: the byte is consumed with two points for the handler and nothing done but the report of conditions. -/
theorem drainAConsumesSilently : Obligations.DrainAConsumesSilently := by
  unfold Obligations.DrainAConsumesSilently
  intro s b rest hb hf hcontents hevent
  obtain ⟨t, hrun, hdrains⟩ := exec_stepDrainA_drains hb
  obtain ⟨u, hpeeks, hhost, hadv, rfl⟩ := hdrains.silent_of_contents hf hcontents hevent
  refine ⟨_, hrun, rfl, (hadv.receives hf).pop hpeeks.held (hadv.fifo.inv hf) rfl rfl, rfl, hadv.loopTrace_eq, ?_,
    hadv.ser, hadv.timerA, hadv.timerB, hadv.bridgeMode, hadv.platform, hhost, hadv.entered⟩
  intro g₁ g₂ more hgaps
  simpa using hadv.gaps [g₁, g₂] more hgaps rfl

/-- Settles O53: the event is offered once; on acceptance the commit follows a third point for the handler, on refusal
nothing does. -/
theorem drainACommitsOnAcceptance : Obligations.DrainACommitsOnAcceptance := by
  unfold Obligations.DrainACommitsOnAcceptance
  intro s b rest e hb hf hcontents hevent
  obtain ⟨t, hrun, hdrains⟩ := exec_stepDrainA_drains hb
  obtain ⟨u, hpeeks, hhost, houtcome⟩ := hdrains.offered_of_contents hf hcontents hevent
  have hscript : ∀ a, Answers s.host.acc a → ∀ a' more, s.host.acc = a' :: more → a = a' ∧ u.host.acc = more := by
    intro a hanswer a' more hacc
    obtain ⟨ha, htail⟩ := hanswer.of_cons hacc
    exact ⟨ha, (congrArg (·.acc) hhost).trans htail⟩
  rcases houtcome with ⟨hanswer, hadv, rfl⟩ | ⟨hanswer, hadv, rfl⟩
  · refine ⟨_, true, hrun, hscript true hanswer, congrArg (·.cfg) hhost, congrArg (·.rx) hhost,
      congrArg (·.txr) hhost, hadv.ser, hadv.timerB, hadv.bridgeMode, hadv.platform, hadv.entered, ?_⟩
    rw [if_pos rfl]
    refine ⟨rfl, (hadv.receives hf).pop hpeeks.held (hadv.fifo.inv hf) rfl rfl, rfl, rfl,
      hadv.loopTrace_eq.trans (List.append_assoc ..).symm, fun g₁ g₂ g₃ more hgaps => ?_⟩
    simpa using hadv.gaps [g₁, g₂, g₃] more hgaps rfl
  · refine ⟨_, false, hrun, hscript false hanswer, congrArg (·.cfg) hhost, congrArg (·.rx) hhost,
      congrArg (·.txr) hhost, hadv.ser, hadv.timerB, hadv.bridgeMode, hadv.platform, hadv.entered, ?_⟩
    rw [if_neg Bool.false_ne_true]
    refine ⟨hadv.parser, hadv.receives hf, rfl, hadv.timerA, hadv.loopTrace_eq.trans (List.append_assoc ..).symm,
      fun g₁ g₂ more hgaps => ?_⟩
    simpa using hadv.gaps [g₁, g₂] more hgaps rfl

/-- Settles O58: a refusal leaves the parser and the oldest byte, and the offer depends on no more. -/
theorem refusedEventOfferedAgain : Obligations.RefusedEventOfferedAgain := by
  unfold Obligations.RefusedEventOfferedAgain
  intro s t u b rest more e hb hf hcontents hevent hrun hphase hub huc huf hparser hucontents
  rw [← huc] at huf
  obtain ⟨w, -, -, ⟨-, -, rfl⟩ | ⟨-, hadv, rfl⟩⟩ := (exec_stepDrainA_next hrun).offered_of_contents hf hcontents hevent
  · cases hphase
  obtain ⟨arrived, -, hkept, -⟩ := hadv.receives hf
  have hoffered : u.fifo.contents u.config = b :: (rest ++ arrived ++ more) := by
    rw [huc, hucontents, hkept, hcontents]
    simp
  have hagain : (u.fedBy b).event = some e := by
    rw [State.fedBy, huc, hparser, hadv.parser, hevent]
  obtain ⟨v, hvrun, hdrains⟩ := exec_stepDrainA_drains hub
  obtain ⟨w, -, -, ⟨-, hadv, rfl⟩ | ⟨-, hadv, rfl⟩⟩ := hdrains.offered_of_contents huf hoffered hagain
  · exact ⟨_, true, hvrun, hadv.mem_new (by simp)⟩
  · exact ⟨_, false, hvrun, hadv.mem_new (by simp)⟩

/-- Settles O55: the three cases of STEP.DRAIN_B. -/
theorem drainBSendsWholeEvents : Obligations.DrainBSendsWholeEvents := by
  unfold Obligations.DrainBSendsWholeEvents
  intro s hb hf
  obtain ⟨t, hrun, hdrains⟩ := exec_stepDrainB_drains hb
  cases hdrains with
  | notReady hready =>
    refine ⟨_, false, none, hrun, fun a rest => hready.of_cons, rfl, rfl, nofun, rfl, rfl, rfl, ⟨rfl, rfl, rfl⟩, rfl,
      ?_, nofun, nofun, nofun⟩
    exact fun _ => ⟨rfl, rfl, rfl, rfl, ⟨rfl, rfl, rfl, fun _ => rfl⟩, rfl, rfl⟩
  | @noEvent u hready hanswer hhost hadv =>
    refine ⟨_, true, none, hrun, fun a rest htxr => ?txr, congrArg (·.cfg) hhost, congrArg (·.acc) hhost,
      fun _ a rest hrx => ?rx, hadv.parser, hadv.timerA, hadv.bridgeMode, hadv.platform, hadv.entered, nofun,
      fun _ => hadv.receives hf, fun _ _ => ⟨rfl, hadv.ser, hadv.timerB, hadv.loopTrace_eq, fun g more hgaps => ?gaps⟩,
      fun _ _ => nofun⟩
    case txr => exact (hready.of_cons htxr).imp_right (congrArg (·.txr) hhost).trans
    case rx => exact (hanswer.of_cons hrx).imp_right (congrArg (·.rx) hhost).trans
    case gaps => simpa using hadv.gaps [g] more hgaps rfl
  | @event u e hready hanswer hhost hadv =>
    refine ⟨_, true, some e, hrun, fun a rest htxr => ?txr, congrArg (·.cfg) hhost, congrArg (·.acc) hhost,
      fun _ a rest hrx => ?rx, hadv.parser, hadv.timerA, hadv.bridgeMode, hadv.platform, hadv.entered, nofun,
      fun _ => hadv.receives hf, fun _ => nofun, fun _ e' he => ?sent⟩
    case txr => exact (hready.of_cons htxr).imp_right (congrArg (·.txr) hhost).trans
    case rx => exact (hanswer.of_cons hrx).imp_right (congrArg (·.rx) hhost).trans
    case sent =>
      cases he
      exact ⟨rfl, hadv.ser, rfl, hadv.loopTrace_eq.trans (List.append_assoc ..).symm, hadv.gaps⟩

/-- Settles O6, by the kind of the turn; where none is listed the free value chooses one. -/
theorem stepRunsFetchedInstruction : Obligations.StepRunsFetchedInstruction := by
  unfold Obligations.StepRunsFetchedInstruction
  refine ⟨fun s b rest h => ?irq, fun s rest h => ?loop, fun s p w rest i h hi => ?request,
    fun s p w rest r h hr => ⟨decode_lines_error hr, fun hb => ?idle⟩, fun s h => ?unlisted⟩
  case irq => exact step_irq (State.nextTurn_listed h)
  case loop => exact step_loop (State.nextTurn_listed h)
  case request => exact step_request (State.nextTurn_listed h) hi
  case idle =>
    rw [step_request_idle (State.nextTurn_listed h) hr]
    exact State.idle_run hb
  case unlisted =>
    have hnext := State.nextTurn_unlisted h
    cases harrival : Config.arrival s.draws with
    | none => exact step_loop (harrival ▸ hnext)
    | some b => exact step_irq (harrival ▸ hnext)

/-- Settles O7: a word placed as a request decodes at its port, a phase code by the loop's turn. -/
theorem placedWordRunsNext : Obligations.PlacedWordRunsNext := by
  unfold Obligations.PlacedWordRunsNext
  intro s nbits w i h
  rcases step_placed (s := s) h with hstep | ⟨ph, hi, hstep⟩
  · exact ⟨s, hstep, .inl rfl⟩
  · exact ⟨_, hstep, .inr ⟨ph, hi, rfl⟩⟩

/-- Settles O49: the action ticks, pumps and moves on. -/
theorem pump1TicksTimers : Obligations.Pump1TicksTimers := by
  unfold Obligations.Pump1TicksTimers
  intro s hb
  exact ⟨_, exec_stepPump1_run hb, tick_eq s.timerA, tick_eq s.timerB, rfl, rfl, ⟨rfl, rfl, rfl, fun _ => rfl⟩,
    rfl, rfl, rfl, ⟨rfl, rfl, rfl⟩, rfl, rfl, rfl⟩

/-- Settles O50: the one call of the action chooses the phase. -/
theorem cfgAsksConfigured : Obligations.CfgAsksConfigured := by
  unfold Obligations.CfgAsksConfigured
  intro s hb
  obtain ⟨hanswer, d, haction⟩ := s.freshLoop.cfgAction_eq
  have hrun := exec_stepCfg_run hb
  rw [haction] at hrun
  exact ⟨_, _, hrun, fun a' rest => hanswer.of_cons, rfl, rfl, rfl, rfl, rfl, ⟨rfl, rfl, rfl, fun _ => rfl⟩, rfl, rfl,
    rfl, rfl, rfl, ⟨rfl, rfl, rfl⟩, rfl, rfl⟩

/-- Settles O51: with nothing held only the phase moves on. -/
theorem drainAEndsWhenEmpty : Obligations.DrainAEndsWhenEmpty := by
  unfold Obligations.DrainAEndsWhenEmpty
  intro s hb hempty
  have hrun := exec_stepDrainA_run hb
  rw [State.drainAAction_empty (s := s.freshLoop) hempty] at hrun
  exact ⟨_, hrun, rfl, rfl, ⟨rfl, rfl, rfl, fun _ => rfl⟩, rfl, rfl, rfl, rfl, rfl, ⟨rfl, rfl, rfl⟩, rfl, rfl, rfl⟩

/-- Settles O56: the action pumps and moves on. -/
theorem pump2EndsLoopStep : Obligations.Pump2EndsLoopStep := by
  unfold Obligations.Pump2EndsLoopStep
  intro s hb
  exact ⟨_, exec_stepPump2_run hb, rfl, rfl, ⟨rfl, rfl, rfl, fun _ => rfl⟩, rfl, rfl, rfl, rfl, rfl, ⟨rfl, rfl, rfl⟩,
    rfl, rfl, rfl⟩

end Sys2Proof.Machine
end

section
/-! PROOF. The two conditions of the FIFO in 60_exceptions: an insert that finds it full and a read that finds it empty
report their condition and write no register. -/

namespace Sys2Proof.Machine

variable {s : State} {i : Instr}

theorem State.peekOp_empty (h : s.fifo.count = 0) : s.peekOp = s.underflowRead :=
  s.peekOp_cases.elim (fun hcase => hcase.2) fun hcase => absurd h hcase.1

/-- On an empty FIFO both ways to read it are the one underflow (R88, R89, R171). -/
theorem exec_emptyRead_run {c w r : Bool} {d : Byte} (hi : i ∈ [Instr.remove false d, .peek c w r d])
    (hb : s.bridgeMode = true) (hempty : s.fifo.count = 0) : exec i s = .next s.fresh.underflowRead := by
  rcases List.mem_pair.mp hi with rfl | rfl
  · rw [exec_remove_run d hb, State.removeOp_empty (s := s.fresh) hempty]
  · rw [exec_peek_run c w r d hb, State.peekOp_empty (s := s.fresh) hempty]

/-- The model's record and its count of free values are no registers. -/
theorem State.keeps_record (s : State) (o : Outputs) (tr : List TraceItem) (k : Nat) :
    KeepsFifo s { s with out := o, trace := tr, draws := k } ∧
      s.KeepsRest { s with out := o, trace := tr, draws := k } :=
  ⟨⟨rfl, rfl, rfl, fun _ => rfl⟩, s.keepsRest_update s.fifo o tr⟩

/-- Settles O13: on a full FIFO the `INSERT` writes its result and its two trace items only. -/
theorem insertOnFullDrops : Obligations.InsertOnFullDrops := by
  unfold Obligations.InsertOnFullDrops
  intro s b hb hfull
  have hrun := exec_insert_run b hb
  rw [State.insertOp_full (s := s.fresh) hfull b] at hrun
  exact ⟨_, hrun, rfl, rfl, s.keeps_record _ _ _⟩

/-- Settles O15: both reads draw a free byte as their result and report `Underflow`. -/
theorem emptyReadUnderflows : Obligations.EmptyReadUnderflows := by
  unfold Obligations.EmptyReadUnderflows
  intro s c w r d hb hempty i hi
  exact ⟨_, _, exec_emptyRead_run hi hb hempty, rfl, rfl, s.keeps_record _ _ _⟩

end Sys2Proof.Machine
end

section
/-! PROOF. The completion statement of `RESET` (70_reset_and_hazards R191 to R194). -/

namespace Sys2Proof.Machine

/-- Settles O9: `RESET` has no guard, and its one next state clears the FIFO's indices and count but no cell, and of the
serializer writes the valid bit alone. -/
theorem resetInitialises : Obligations.ResetInitialises := by
  unfold Obligations.ResetInitialises
  intro s
  have hcells : ∀ a, Mem.read s.resetOp.fifo.mem a = Mem.read s.fifo.mem a := fun _ => rfl
  have hstatus : s.resetOp.ser.lastStatus = s.ser.lastStatus := rfl
  have hplatform : KeepsPlatform s s.resetOp := ⟨s.resetOp_config, s.resetOp_modeIn, s.resetOp_turns⟩
  exact ⟨s.resetOp, exec_reset_run s, rfl, rfl, rfl, hcells, s.resetOp_parser, rfl, hstatus, s.resetOp_bridgeMode,
    s.resetOp_phase, s.resetOp_timerA, s.resetOp_timerB, hplatform, s.resetOp_host, s.resetOp_gaps, s.resetOp_entered⟩

end Sys2Proof.Machine
end
